-- ==== Sys2Proof/Word.lean ====
section
/-! DEFINITION. Word.lean: the two word types of the block (spec/00_scope.md R8, spec/30_encoding.md R80). -/

namespace Sys2Proof

/-- A register byte and a byte on the bus: "register width 8 bits" (R8). -/
abbrev Byte := BitVec 8

/-- A stimulus word: the 16-bit encoding of one event (R80). -/
abbrev Word := BitVec 16

end Sys2Proof
end

