-- ==== Sys2Proof/Config.lean ====
section
/-! DEFINITION. Config.lean: the construction-time parameters of one instance (spec/00_scope.md R7), their
constraints and defaults, and the one free value of the model. The parameter record is fixed when the instance is
built and no event writes it (spec/70_reset_and_hazards.md R231); it stands in State so that a statement ranges over
every instance (log entry 1). -/

namespace Sys2Proof

/-- `TX_FULL_POLICY` of R7: what a write of the transmit holding register does when there is no room (R144). -/
inductive TxFullPolicy where
  | drop
  | overwriteLast
deriving DecidableEq, Repr

/-- The agents whose events may coincide in one clock cycle without reset (spec/60_exceptions.md R212). -/
inductive Source where
  | tick
  | rxb
  | msl
  | bus
deriving DecidableEq, Repr

/-- `EVENT_ORDER` of R7: every interleaving, or a fixed permutation of the four sources. -/
inductive EventOrder where
  | any
  | fixed (order : List Source)
deriving DecidableEq, Repr

/-- The parameter table of R7. `TRIG[0..3]` is written as four fields. For `F_BASE` R7 says only "positive": that it is
a whole number of Hz is the model's own (DESIGN CHOICE, unsafe; log entry 17). -/
structure Params where
  fifoDepth : Nat
  trig0 : Nat
  trig1 : Nat
  trig2 : Nat
  trig3 : Nat
  fBase : Nat
  prescale : Nat
  divisorReset : BitVec 16
  rxTimeoutChars : Nat
  txFullPolicy : TxFullPolicy
  eventOrder : EventOrder
deriving DecidableEq, Repr

/-- The four sources, each once, in the order R212 recommends for a cycle-based model. -/
def Source.all : List Source := [.tick, .rxb, .msl, .bus]

/-- `EVENT_ORDER` is `any` or a permutation of the four sources (R7). -/
def EventOrder.legal : EventOrder → Bool
  | .any => true
  | .fixed o => o.isPerm Source.all

/-- The column "type and constraint" of R7. -/
abbrev Params.Valid (p : Params) : Prop :=
  1 ≤ p.fifoDepth ∧
  (1 ≤ p.trig0 ∧ p.trig0 ≤ p.trig1 ∧ p.trig1 ≤ p.trig2 ∧ p.trig2 ≤ p.trig3 ∧ p.trig3 ≤ p.fifoDepth) ∧
  1 ≤ p.fBase ∧ 1 ≤ p.prescale ∧ 1 ≤ p.rxTimeoutChars ∧ p.eventOrder.legal = true

/-- The column "default" of R7. -/
def Params.default : Params where
  fifoDepth := 16
  trig0 := 1
  trig1 := 4
  trig2 := 8
  trig3 := 14
  fBase := 1843200
  prescale := 16
  divisorReset := 0x000C#16
  rxTimeoutChars := 4
  txFullPolicy := .drop
  eventOrder := .any

/-- What reading past the end of a FIFO's data array would give. The array of R33 has `C` entries and every index is
below `C`, so no rule ever does; the list that holds the array could be shorter in a state that is no state of the
block, and there this value is free (log entry 6). -/
opaque Config.noEntry : Byte

end Sys2Proof
end

