-- ==== Sys2Proof/Syntax.lean ====
section
/-! DEFINITION. Syntax.lean: the 24 operations and events of spec/opcode_table.json, one constructor per row
(spec/30_encoding.md R81, R95), and the decoder's named rejections (R89). -/

namespace Sys2Proof

/-- One event (spec/00_scope.md R3): a bus operation or an environment event. A write carries the byte `v = wdata`; a
read carries nothing, since its `wdata` is ignored (R81, R83). The eight operations at offsets 0 and 1 also assert the
bank they belong to (R93); WellFormed.lean holds that check. -/
inductive Instr where
  | wrThr (v : Byte)
  | rdRbr
  | wrDll (v : Byte)
  | rdDll
  | wrIer (v : Byte)
  | rdIer
  | wrDlm (v : Byte)
  | rdDlm
  | wrFcr (v : Byte)
  | rdIir
  | wrLcr (v : Byte)
  | rdLcr
  | wrMcr (v : Byte)
  | rdMcr
  | rdLsr
  | wrLsr (v : Byte)
  | rdMsr
  | wrMsr (v : Byte)
  | wrScr (v : Byte)
  | rdScr
  | rxb (data : Byte) (pe fe bi : Bool)
  | msl (cts dsr ri dcd : Bool)
  | tick
  | rst
deriving DecidableEq, Repr

/-- Why a stimulus word spells no event (R89). -/
inductive Reject where
  /-- kind 0b0101 to 0b1111 -/
  | reservedKind
  /-- an `RXB` word with `w[11] = 1` -/
  | rxbBit11
  /-- an `MSL` word with `w[11:4] != 0` -/
  | mslHighBits
  /-- a `TICK` word with `w[11:0] != 0` -/
  | tickLowBits
  /-- an `RST` word with `w[11:0] != 0` -/
  | rstLowBits
deriving DecidableEq, Repr

end Sys2Proof
end

