-- ==== Sys2Proof/WellFormed.lean ====
section
/-! DEFINITION. WellFormed.lean: the only check an operation needs beyond its fields' widths is the bank it asserts
(spec/30_encoding.md R93, R95: the `mode` entry of its opcode-table row). -/

namespace Sys2Proof

/-- The value of `lcr.DLAB` an operation needs, or none for the sixteen that have no condition (R81, R95). -/
def Instr.bank : Instr → Option Bool
  | .wrThr _ => some false
  | .rdRbr => some false
  | .wrDll _ => some true
  | .rdDll => some true
  | .wrIer _ => some false
  | .rdIer => some false
  | .wrDlm _ => some true
  | .rdDlm => some true
  | .wrFcr _ => none
  | .rdIir => none
  | .wrLcr _ => none
  | .rdLcr => none
  | .wrMcr _ => none
  | .rdMcr => none
  | .rdLsr => none
  | .wrLsr _ => none
  | .rdMsr => none
  | .wrMsr _ => none
  | .wrScr _ => none
  | .rdScr => none
  | .rxb _ _ _ _ => none
  | .msl _ _ _ _ => none
  | .tick => none
  | .rst => none

/-- `i` is well-formed while `lcr.DLAB = dlab`: "a trace that spells `WR_DLL` while `lcr.DLAB = 0` is ill-formed" (R93). -/
def Instr.wf (dlab : Bool) (i : Instr) : Bool :=
  match i.bank with
  | none => true
  | some b => b == dlab

end Sys2Proof
end

