-- ==== Sys2Proof/Decode.lean ====
section
/-! DEFINITION. Decode.lean: from a stimulus word and `lcr.DLAB` to an event or a named rejection, and back
(spec/30_encoding.md R80 to R83, R89, R93 to R95). -/

namespace Sys2Proof

/-- `w[15:12]`, the kind of the event (R80). -/
def wordKind (w : Word) : BitVec 4 := w.extractLsb' 12 4

/-- `w[11]` of format B, `we` (R80). -/
def wordWe (w : Word) : Bool := w.getLsbD 11

/-- `w[10:8]` of format B, `addr` (R80). -/
def wordAddr (w : Word) : BitVec 3 := w.extractLsb' 8 3

/-- `w[7:0]`, `wdata` of format B and `data` of format X (R80). -/
def wordByte (w : Word) : Byte := w.extractLsb' 0 8

/-- `w[11:4]`, zero in format M (R80). -/
def wordMslZero (w : Word) : BitVec 8 := w.extractLsb' 4 8

/-- `w[11:0]`, zero in format T (R80). -/
def wordLow12 (w : Word) : BitVec 12 := w.extractLsb' 0 12

/-- Register selection (R81): offset, direction and, for offsets 0 and 1, the bank bit. -/
def selectBus (dlab we : Bool) (addr : BitVec 3) (v : Byte) : Instr :=
  match addr.toFin, we, dlab with
  | 0, true, false => .wrThr v
  | 0, false, false => .rdRbr
  | 0, true, true => .wrDll v
  | 0, false, true => .rdDll
  | 1, true, false => .wrIer v
  | 1, false, false => .rdIer
  | 1, true, true => .wrDlm v
  | 1, false, true => .rdDlm
  | 2, true, _ => .wrFcr v
  | 2, false, _ => .rdIir
  | 3, true, _ => .wrLcr v
  | 3, false, _ => .rdLcr
  | 4, true, _ => .wrMcr v
  | 4, false, _ => .rdMcr
  | 5, false, _ => .rdLsr
  | 5, true, _ => .wrLsr v
  | 6, false, _ => .rdMsr
  | 6, true, _ => .wrMsr v
  | 7, true, _ => .wrScr v
  | 7, false, _ => .rdScr

/-- The decoder: total, with `lcr.DLAB` at the start of the event as its second input (R82, R95). Every format-B word
is an event; the words of R89 are rejected by name. -/
def decode (dlab : Bool) (w : Word) : Except Reject Instr :=
  match (wordKind w).toNat with
  | 0 => .ok (selectBus dlab (wordWe w) (wordAddr w) (wordByte w))
  | 1 =>
    if w.getLsbD 11 then .error .rxbBit11
    else .ok (.rxb (wordByte w) (w.getLsbD 8) (w.getLsbD 9) (w.getLsbD 10))
  | 2 =>
    if wordMslZero w ≠ 0#8 then .error .mslHighBits
    else .ok (.msl (w.getLsbD 0) (w.getLsbD 1) (w.getLsbD 2) (w.getLsbD 3))
  | 3 => if wordLow12 w ≠ 0#12 then .error .tickLowBits else .ok .tick
  | 4 => if wordLow12 w ≠ 0#12 then .error .rstLowBits else .ok .rst
  | _ => .error .reservedKind

/-- A byte as a 16-bit word. -/
def byteBits (v : Byte) : Word := v.setWidth 16

/-- An offset as a 16-bit word. -/
def addrBits (a : BitVec 3) : Word := a.setWidth 16

/-- A flag as a 16-bit word. -/
def flagBits (b : Bool) : Word := (BitVec.ofBool b).setWidth 16

/-- Format B: `we << 11 | addr << 8 | wdata` (R80, R93). -/
def busWord (we : Bool) (addr : BitVec 3) (v : Byte) : Word := flagBits we <<< 11 ||| addrBits addr <<< 8 ||| byteBits v

/-- The stimulus word of an event (R80, R93); a read has `w[7:0] = 0`, its canonical spelling (R81). -/
def encode : Instr → Word
  | .wrThr v => busWord true 0#3 v
  | .rdRbr => busWord false 0#3 0#8
  | .wrDll v => busWord true 0#3 v
  | .rdDll => busWord false 0#3 0#8
  | .wrIer v => busWord true 1#3 v
  | .rdIer => busWord false 1#3 0#8
  | .wrDlm v => busWord true 1#3 v
  | .rdDlm => busWord false 1#3 0#8
  | .wrFcr v => busWord true 2#3 v
  | .rdIir => busWord false 2#3 0#8
  | .wrLcr v => busWord true 3#3 v
  | .rdLcr => busWord false 3#3 0#8
  | .wrMcr v => busWord true 4#3 v
  | .rdMcr => busWord false 4#3 0#8
  | .rdLsr => busWord false 5#3 0#8
  | .wrLsr v => busWord true 5#3 v
  | .rdMsr => busWord false 6#3 0#8
  | .wrMsr v => busWord true 6#3 v
  | .wrScr v => busWord true 7#3 v
  | .rdScr => busWord false 7#3 0#8
  | .rxb d pe fe bi =>
    0x1000#16 ||| flagBits bi <<< 10 ||| flagBits fe <<< 9 ||| flagBits pe <<< 8 ||| byteBits d
  | .msl cts dsr ri dcd =>
    0x2000#16 ||| flagBits dcd <<< 3 ||| flagBits ri <<< 2 ||| flagBits dsr <<< 1 ||| flagBits cts
  | .tick => 0x3000#16
  | .rst => 0x4000#16

/-- The first stimulus word of an instruction whose bits are `w`, as the host numbers them: one 16-bit word, the bits
above `nbits` zero. -/
def tableWord (nbits w : Nat) : Word := BitVec.ofNat 16 (w % 2 ^ nbits)

/-- What the decoder reads from a table word in the bank that holds after reset, `lcr.DLAB = 0` (R20). The four rows of
the other bank share their words with rows of this one (R95), so the bank decides between them (log entry 8). -/
def decodeTableWord (nbits w : Nat) : Option Instr :=
  match decode false (tableWord nbits w) with
  | .ok i => some i
  | .error _ => none

/-- The ten operations that return a byte (R85). -/
def Instr.isRead : Instr → Bool
  | .rdRbr => true
  | .rdDll => true
  | .rdIer => true
  | .rdDlm => true
  | .rdIir => true
  | .rdLcr => true
  | .rdMcr => true
  | .rdLsr => true
  | .rdMsr => true
  | .rdScr => true
  | .wrThr _ => false
  | .wrDll _ => false
  | .wrIer _ => false
  | .wrDlm _ => false
  | .wrFcr _ => false
  | .wrLcr _ => false
  | .wrMcr _ => false
  | .wrLsr _ => false
  | .wrMsr _ => false
  | .wrScr _ => false
  | .rxb _ _ _ _ => false
  | .msl _ _ _ _ => false
  | .tick => false
  | .rst => false

/-! ### Pseudo-operations (R94): expansions into the 24 -/

/-- `WR <off> <byte>`: the write R81 selects under the current `lcr.DLAB`. -/
def pseudoWr (dlab : Bool) (off : BitVec 3) (v : Byte) : Instr := selectBus dlab true off v

/-- `RD <off>`: the read R81 selects under the current `lcr.DLAB`. -/
def pseudoRd (dlab : Bool) (off : BitVec 3) : Instr := selectBus dlab false off 0#8

/-- `TICK*<n>`. -/
def pseudoTicks (n : Nat) : List Instr := List.replicate n .tick

/-- `SETDIV <d16> <l>`. -/
def pseudoSetDiv (d : BitVec 16) (l : Byte) : List Instr :=
  [.wrLcr (l ||| 0x80#8), .wrDll (d.extractLsb' 0 8), .wrDlm (d.extractLsb' 8 8), .wrLcr (l &&& 0x7F#8)]

/-- `FIFO_ON <t>`: `WR_FCR (0x07 | t << 6)`. -/
def pseudoFifoOn (t : BitVec 2) : List Instr := [.wrFcr (t ++ 0b000111#6)]

/-- `FIFO_OFF`: `WR_FCR 0x00`. -/
def pseudoFifoOff : List Instr := [.wrFcr 0#8]

end Sys2Proof
end

