-- ==== Sys2Proof/Machine/State.lean ====
section
/-! DEFINITION. Machine/State.lean: the state of one instance (spec/10_state.md R20 to R45), the reasons a step can
stop, and the state right after reset (spec/70_reset_and_hazards.md R230, R231). -/

namespace Sys2Proof.Machine

/-- The reasons a step can fault. There is none: "No event faults" (spec/60_exceptions.md R200), and every operation
"raises no exception of any kind" (spec/40_bus_register_ops.md R108). -/
inductive Fault where
deriving DecidableEq, Repr

/-- The reasons there is no step. -/
inductive Refusal where
  /-- An instruction whose meaning has not been written. Raised by no arm of exec. Safe: nothing follows from it. -/
  | notModelled (mnemonic : String)
  /-- A stimulus word that spells no event (R89), raised by `runWord`. Safe: R89 asks for the refusal. -/
  | notAnEvent (reason : Reject)
  /-- No event has been presented, raised by `step`. Safe: the block changes state only in events (R3; log entry 3). -/
  | noEvent
  /-- A bus access with an offset outside 0 to 7, raised by `memRead` and `memWrite`. Safe: R65 asks for it. -/
  | badOffset (off : Nat)
  /-- A bus access of another width than one byte, raised by `memRead` and `memWrite`. Safe: R64 asks for it. -/
  | badWidth (bytes : Nat)
deriving DecidableEq, Repr

/-- A FIFO (R33, R34): `data[0..C-1]`, the write index `head`, the read index `tail`, the number of queued bytes. -/
@[ext]
structure Fifo where
  data : List Byte
  head : Nat
  tail : Nat
  count : Nat
deriving DecidableEq, Repr

/-- The complete state of one instance (R20), the instance's parameters (R7), and the model's own fields: the events
still to come and the outputs of R4. -/
@[ext]
structure State where
  /-- construction-time parameters, never written (R7, R231) -/
  cfg : Params
  /-- divisor latch (R21) -/
  dl : BitVec 16
  /-- last byte taken from the receive FIFO by a read (R22) -/
  rbr : Byte
  /-- last byte written to the transmit holding register (R23) -/
  thr : Byte
  /-- transmit shift stage and whether it is occupied (R24) -/
  tsr : Byte
  tsrFull : Bool
  /-- interrupt enable: ERBFI, ETBEI, ELSI, EDSSI from bit 0 (R25) -/
  ier : BitVec 4
  /-- the kept fields of FIFO control (R27) -/
  fifoen : Bool
  rxtrig : BitVec 2
  /-- line control (R28) -/
  lcr : Byte
  /-- modem control: DTR, RTS, OUT1, OUT2, LOOP from bit 0 (R29) -/
  mcr : BitVec 5
  /-- the six stored bits of line status (R30) -/
  lsrOe : Bool
  lsrPe : Bool
  lsrFe : Bool
  lsrBi : Bool
  lsrThre : Bool
  lsrTemt : Bool
  /-- modem status: four delta bits, then CTS, DSR, RI, DCD (R31) -/
  msr : Byte
  /-- scratch (R32) -/
  scr : Byte
  /-- receive and transmit FIFO (R33, R34) -/
  rxf : Fifo
  txf : Fifo
  /-- hidden flags (R40, R41, R42) -/
  thrIpending : Bool
  timeoutIpending : Bool
  lastBreakEnable : Bool
  /-- transmit timer (R43) -/
  txArmed : Bool
  txCnt : Nat
  /-- receive-FIFO timeout timer (R44) -/
  rxArmed : Bool
  rxCnt : Nat
  /-- the model's own: events presented and not yet applied, next first (R3; log entry 2) -/
  stim : List Word
  /-- the model's own: the byte the last event returned on `bus_rdata` (R4, R50; log entry 4) -/
  rdata : Option Byte
  /-- the model's own: the `tx_valid`/`tx_data` pulse of the last event (R4, R50, R51; log entry 4) -/
  txOut : Option Byte
  /-- the model's own: the output sequence of the transmit port, oldest first (R4, R10; log entry 4) -/
  sent : List Byte
deriving DecidableEq, Repr

/-- An empty FIFO whose `c` entries hold zero: U1 lets a model zero them (DESIGN CHOICE, log entry 5). -/
def Fifo.fresh (c : Nat) : Fifo where
  data := List.replicate c 0#8
  head := 0
  tail := 0
  count := 0

/-- The state right after reset (R20, R230, R231) of the instance with the parameters `p`. -/
def State.resetOf (p : Params) : State where
  cfg := p
  dl := p.divisorReset
  rbr := 0#8
  thr := 0#8
  tsr := 0#8
  tsrFull := false
  ier := 0#4
  fifoen := false
  rxtrig := 0#2
  lcr := 0#8
  mcr := 0#5
  lsrOe := false
  lsrPe := false
  lsrFe := false
  lsrBi := false
  lsrThre := true
  lsrTemt := true
  msr := 0#8
  scr := 0#8
  rxf := Fifo.fresh p.fifoDepth
  txf := Fifo.fresh p.fifoDepth
  thrIpending := false
  timeoutIpending := false
  lastBreakEnable := false
  txArmed := false
  txCnt := 0
  rxArmed := false
  rxCnt := 0
  stim := []
  rdata := none
  txOut := none
  sent := []

/-- The state right after reset with the default parameters of R7 (log entry 1). -/
def State.reset : State := State.resetOf Params.default

end Sys2Proof.Machine
end

