-- ==== Sys2Proof/Machine/Operands.lean ====
section
/-! DEFINITION. Machine/Operands.lean: the fields of a written byte, the bytes a read assembles, the named bits of the
registers, and the derived selectors and times that are functions of the configuration bits
(spec/30_encoding.md R83 to R86, spec/10_state.md R45, spec/42_timing_and_transmit.md R160 to R162). -/

namespace Sys2Proof.Machine

/-! ### Written bytes (R83, R86) -/

/-- `WR_IER` keeps `v[3:0]`. -/
def ierOf (v : Byte) : BitVec 4 := v.extractLsb' 0 4

/-- `WR_MCR` keeps `v[4:0]`. -/
def mcrOf (v : Byte) : BitVec 5 := v.extractLsb' 0 5

/-- FIFO control bit 0, `FIFOEN`. -/
def fcrEnable (v : Byte) : Bool := v.getLsbD 0

/-- FIFO control bit 1, `RXRST`. -/
def fcrRxReset (v : Byte) : Bool := v.getLsbD 1

/-- FIFO control bit 2, `TXRST`. -/
def fcrTxReset (v : Byte) : Bool := v.getLsbD 2

/-- FIFO control bits 7:6, `RXTRIG`. -/
def fcrTrigger (v : Byte) : BitVec 2 := v.extractLsb' 6 2

/-- `dl[7:0] <- v` (R84). -/
def dlWithLow (dl : BitVec 16) (v : Byte) : BitVec 16 := dl.extractLsb' 8 8 ++ v

/-- `dl[15:8] <- v` (R84). -/
def dlWithHigh (dl : BitVec 16) (v : Byte) : BitVec 16 := v ++ dl.extractLsb' 0 8

/-! ### Read bytes (R85) -/

/-- `dl[7:0]`. -/
def dlLow (dl : BitVec 16) : Byte := dl.extractLsb' 0 8

/-- `dl[15:8]`. -/
def dlHigh (dl : BitVec 16) : Byte := dl.extractLsb' 8 8

/-- `{0b0000, ier}`. -/
def ierByte (ier : BitVec 4) : Byte := 0b0000#4 ++ ier

/-- `{0b000, mcr}`. -/
def mcrByte (mcr : BitVec 5) : Byte := 0b000#3 ++ mcr

/-! ### Named bits -/

/-- `lcr[7]`, the divisor-latch-access bit (R28, R82). -/
def State.dlab (s : State) : Bool := s.lcr.getLsbD 7

/-- `lcr[6]`, break-set (R28). -/
def State.brk (s : State) : Bool := s.lcr.getLsbD 6

/-- `mcr[4]`, loopback enable (R29, R183). -/
def State.loop (s : State) : Bool := s.mcr.getLsbD 4

/-- `msr[3:0]`, the delta bits (R31). -/
def msrDelta (msr : Byte) : BitVec 4 := msr.extractLsb' 0 4

/-- `msr[7:4]`, the recorded lines {DCD, RI, DSR, CTS} (R31). -/
def msrLines (msr : Byte) : BitVec 4 := msr.extractLsb' 4 4

/-- The operand of `MSL` in the order of `msr[7:4]` (R182). -/
def modemLines (cts dsr ri dcd : Bool) : BitVec 4 :=
  BitVec.ofBool dcd ++ BitVec.ofBool ri ++ BitVec.ofBool dsr ++ BitVec.ofBool cts

/-- `loop_lines()` (R181): {DCD, RI, DSR, CTS} from {OUT2, OUT1, DTR, RTS}. -/
def State.loopLines (s : State) : BitVec 4 :=
  BitVec.ofBool (s.mcr.getLsbD 3) ++ BitVec.ofBool (s.mcr.getLsbD 2) ++
    BitVec.ofBool (s.mcr.getLsbD 0) ++ BitVec.ofBool (s.mcr.getLsbD 1)

/-! ### Selectors (R45) -/

/-- `TRIG[i]` (R7). -/
def trigLevel (p : Params) (i : BitVec 2) : Nat :=
  match i.toFin with
  | 0 => p.trig0
  | 1 => p.trig1
  | 2 => p.trig2
  | 3 => p.trig3

/-- `ceff()`: the effective FIFO depth. -/
def State.ceff (s : State) : Nat := if s.fifoen then s.cfg.fifoDepth else 1

/-- `trig_eff()`: the effective receive trigger level. -/
def State.trigEff (s : State) : Nat := if s.fifoen then trigLevel s.cfg s.rxtrig else 1

/-! ### The character time (R160 to R162) -/

/-- `frame_bits()`: start bit, `5 + WLS` data bits, the parity bit if enabled, one or two stop bits. -/
def State.frameBits (s : State) : Nat :=
  1 + (5 + (s.lcr.extractLsb' 0 2).toNat) + (if s.lcr.getLsbD 3 then 1 else 0) + (if s.lcr.getLsbD 2 then 2 else 1)

/-- `eff_div()`: a stored divisor of 0 times as 1. -/
def State.effDiv (s : State) : Nat := if s.dl = 0#16 then 1 else s.dl.toNat

/-- `char_ticks()`: the number of `TICK` events one character lasts. -/
def State.charTicks (s : State) : Nat := s.frameBits * s.cfg.prescale * s.effDiv

/-- The load of the receive-FIFO timeout timer (R44, R145). -/
def State.timeoutTicks (s : State) : Nat := s.cfg.rxTimeoutChars * s.charTicks

/-- The line speed in bits per second, `F_BASE / (PRESCALE * eff_div())`; R162 gives the quotient and no rule uses it.
The spec states no rounding: that the quotient is truncated to a natural number is the model's own (DESIGN CHOICE,
unsafe; log entry 16). -/
def State.lineSpeed (s : State) : Nat := s.cfg.fBase / (s.cfg.prescale * s.effDiv)

end Sys2Proof.Machine
end

