-- ==== Sys2Proof/Machine/Flags.lean ====
section
/-! DEFINITION. Machine/Flags.lean: line status as it is read (spec/10_state.md R30), the four interrupt sources and
the arbiter's two functions (spec/60_exceptions.md R201 to R206). -/

namespace Sys2Proof.Machine

/-- `DR`, data ready: derived from `rxf.count` (R30). -/
def State.dr (s : State) : Bool := decide (0 < s.rxf.count)

/-- `lsr()` = {0, TEMT, THRE, BI, FE, PE, OE, DR} (R30, R85). -/
def State.lsr (s : State) : Byte :=
  0b0#1 ++ BitVec.ofBool s.lsrTemt ++ BitVec.ofBool s.lsrThre ++ BitVec.ofBool s.lsrBi ++ BitVec.ofBool s.lsrFe ++
    BitVec.ofBool s.lsrPe ++ BitVec.ofBool s.lsrOe ++ BitVec.ofBool s.dr

/-- `rls_pending()` (R201). -/
def State.rlsPending (s : State) : Bool := s.lsrOe || s.lsrPe || s.lsrFe || s.lsrBi

/-- `rls_active()`, receive line status, priority 1 (R201). -/
def State.rlsActive (s : State) : Bool := s.ier.getLsbD 2 && s.rlsPending

/-- `rda_level()` (R202). -/
def State.rdaLevel (s : State) : Bool := decide (s.trigEff ≤ s.rxf.count)

/-- `rda_pending()` (R202). -/
def State.rdaPending (s : State) : Bool := s.rdaLevel || s.timeoutIpending

/-- `rda_active()`, received data available, priority 2 (R202). -/
def State.rdaActive (s : State) : Bool := s.ier.getLsbD 0 && s.rdaPending

/-- `thre_active()`, transmit holding register empty, priority 3: the pending flag, not the status bit (R203). -/
def State.threActive (s : State) : Bool := s.ier.getLsbD 1 && s.thrIpending

/-- `ms_pending()` (R204). -/
def State.msPending (s : State) : Bool := msrDelta s.msr != 0#4

/-- `ms_active()`, modem status, priority 4 (R204). -/
def State.msActive (s : State) : Bool := s.ier.getLsbD 3 && s.msPending

/-- The low six bits of `iir()`: the code of the highest-priority active source (R87, R205). -/
def State.iirCode (s : State) : Byte :=
  if s.rlsActive then 0x06#8
  else if s.rdaActive && s.rdaLevel then 0x04#8
  else if s.rdaActive then 0x0C#8
  else if s.threActive then 0x02#8
  else if s.msActive then 0x00#8
  else 0x01#8

/-- `iir()` (R26, R205). -/
def State.iir (s : State) : Byte := (if s.fifoen then 0xC0#8 else 0x00#8) ||| s.iirCode

/-- `irq()`, the level of the interrupt output (R206). -/
def State.irq (s : State) : Bool := s.rlsActive || s.rdaActive || s.threActive || s.msActive

end Sys2Proof.Machine
end

