-- ==== Sys2Proof/Machine/Ops.lean ====
section
/-! DEFINITION. Machine/Ops.lean: the procedures the operations and events call: the FIFO primitives, the receive
path, the transmit path, the timers, modem status and break (spec/41_fifo_and_receive.md,
spec/42_timing_and_transmit.md, spec/43_modem_loopback_break.md), and the outputs of an event. The block takes no
exception and returns from none (spec/60_exceptions.md R200, R210, R211), so there is no entry operation here. -/

namespace Sys2Proof.Machine

/-! ### FIFO primitives -/

/-- `fifo_enq(f, d)` on a FIFO of capacity `c` (R140). -/
def Fifo.enq (c : Nat) (f : Fifo) (d : Byte) : Fifo :=
  { f with data := f.data.set f.head d, head := (f.head + 1) % c, count := f.count + 1 }

/-- The byte `fifo_deq(f)` returns, `data[tail]` (R141). -/
def Fifo.front (f : Fifo) : Byte := f.data.getD f.tail Config.noEntry

/-- What `fifo_deq(f)` leaves; `data` is not erased (R141). -/
def Fifo.deq (c : Nat) (f : Fifo) : Fifo := { f with tail := (f.tail + 1) % c, count := f.count - 1 }

/-- `fifo_reset(f)`: `data` is not written (R142). -/
def Fifo.clear (f : Fifo) : Fifo := { f with count := 0, head := 0, tail := 0 }

/-- Replace the newest entry, `data[(head + C - 1) mod C] <- v` (R144). -/
def Fifo.replaceNewest (c : Nat) (f : Fifo) (v : Byte) : Fifo :=
  { f with data := f.data.set ((f.head + c - 1) % c) v }

/-- The queued bytes, oldest first (R35). -/
def Fifo.contents (c : Nat) (f : Fifo) : List Byte :=
  (List.range f.count).map fun k => f.data.getD ((f.tail + k) % c) Config.noEntry

/-! ### Outputs of an event -/

/-- At the start of an event neither a read result nor a transmit pulse is on the ports (R50, R51). -/
def State.clearOutputs (s : State) : State := { s with rdata := none, txOut := none }

/-- `result <- b` (R10). -/
def State.reply (s : State) (b : Byte) : State := { s with rdata := some b }

/-- `send(b)`: append to the output sequence of the transmit port, one `tx_valid` pulse (R10, R50). -/
def State.send (s : State) (b : Byte) : State := { s with txOut := some b, sent := s.sent ++ [b] }

/-! ### Receive path -/

/-- The receive FIFO is full: `rxf.count >= ceff()` (R143). -/
def State.rxFull (s : State) : Bool := decide (s.ceff ≤ s.rxf.count)

/-- The arming condition of the timeout timer (R145). -/
def State.rxtoWanted (s : State) : Bool := s.fifoen && decide (0 < s.rxf.count ∧ s.rxf.count < s.trigEff)

/-- `rxto_restart()` (R145). -/
def State.rxtoRestart (s : State) : State :=
  { s with rxArmed := s.rxtoWanted, rxCnt := if s.rxtoWanted then s.timeoutTicks else s.rxCnt }

/-- The part of `rx_accept` before the timer: overrun or enqueue, and the sticky flags (R146). -/
def State.rxStore (s : State) (d : Byte) (pe fe bi : Bool) : State :=
  { s with
    rxf := if s.rxFull then s.rxf else s.rxf.enq s.cfg.fifoDepth d
    lsrOe := s.lsrOe || s.rxFull
    lsrPe := s.lsrPe || pe
    lsrFe := s.lsrFe || fe
    lsrBi := s.lsrBi || bi }

/-- `rx_accept(d, pe, fe, bi)` (R146). -/
def State.rxAccept (s : State) (d : Byte) (pe fe bi : Bool) : State := (s.rxStore d pe fe bi).rxtoRestart

/-! ### Transmit path -/

/-- The transmit FIFO has room: `txf.count < ceff()` (R143, R144). -/
def State.txRoom (s : State) : Bool := decide (s.txf.count < s.ceff)

/-- The transmit FIFO once `tx_enqueue(v)` has run (R144). -/
def State.txfWith (s : State) (v : Byte) : Fifo :=
  if s.txRoom then s.txf.enq s.cfg.fifoDepth v
  else if s.cfg.txFullPolicy = .overwriteLast ∧ 0 < s.txf.count then s.txf.replaceNewest s.cfg.fifoDepth v
  else s.txf

/-- `tx_enqueue(v)`: only the transmit FIFO is written (R144). -/
def State.txEnqueue (s : State) (v : Byte) : State := { s with txf := s.txfWith v }

/-- A transmitter that holds a byte: THRE, TEMT and the pending flag fall (R110). -/
def State.txBusy (s : State) : State := { s with lsrThre := false, lsrTemt := false, thrIpending := false }

/-- A transmitter that has sent everything: THRE, TEMT and the pending flag rise (R167). -/
def State.txDrained (s : State) : State := { s with lsrThre := true, lsrTemt := true, thrIpending := true }

/-- The oldest queued byte moves into the shift stage (R163). -/
def State.promote (s : State) : State :=
  { s with txf := s.txf.deq s.cfg.fifoDepth, tsr := s.txf.front, tsrFull := true }

/-- The character in the shift stage is done (R167). -/
def State.emptyShift (s : State) : State := { s with tsrFull := false }

/-- The transmit timer starts with `n` ticks to go (R43). -/
def State.armTx (s : State) (n : Nat) : State := { s with txArmed := true, txCnt := n }

/-- `deliver(b)`: into the receive path in loopback, else out of the transmit port (R164). -/
def State.deliver (s : State) (b : Byte) : State :=
  if s.loop then s.rxAccept b false false false else s.send b

/-- `tx_start()`: promote the oldest byte into the shift stage, deliver it, arm the timer (R163). -/
def State.txStart (s : State) : State :=
  if 0 < s.txf.count then (s.promote.deliver s.txf.front).armTx s.charTicks else s

/-- `tx_expire()`: the character in the shift stage has been sent (R167). -/
def State.txExpire (s : State) : State :=
  if 0 < s.txf.count then s.emptyShift.txStart else s.emptyShift.txDrained

/-- `rxto_expire()` (R168). -/
def State.rxtoExpire (s : State) : State := { s with timeoutIpending := true }

/-! ### The parts of a `TICK`, in the order of R166 -/

/-- `fire_tx`. -/
def State.fireTx (s : State) : Bool := s.txArmed && s.txCnt == 1

/-- `fire_rx`. -/
def State.fireRx (s : State) : Bool := s.rxArmed && s.rxCnt == 1

/-- Both armed counters lose one tick. -/
def State.countDown (s : State) : State :=
  { s with
    txCnt := if s.txArmed then s.txCnt - 1 else s.txCnt
    rxCnt := if s.rxArmed then s.rxCnt - 1 else s.rxCnt }

/-- `tx_armed <- 0`. -/
def State.disarmTx (s : State) : State := { s with txArmed := false }

/-- `rx_armed <- 0`. -/
def State.disarmRx (s : State) : State := { s with rxArmed := false }

/-- The transmit expiry, when `fire` says so. -/
def State.tickTx (s : State) (fire : Bool) : State := if fire then s.disarmTx.txExpire else s

/-- The timeout expiry, when `fire` says so and the timer was not restarted or disarmed in between. -/
def State.tickRx (s : State) (fire : Bool) : State :=
  if fire && s.rxArmed && s.rxCnt == 0 then s.disarmRx.rxtoExpire else s

/-! ### Modem status and break -/

/-- `msr_update(n)`: lines that differ set their sticky delta bits, then the lines are recorded (R180). -/
def State.msrUpdate (s : State) (n : BitVec 4) : State :=
  { s with msr := n ++ (msrDelta s.msr ||| (n ^^^ msrLines s.msr)) }

/-- `break_edge(b)` (R185). -/
def State.breakEdge (s : State) (b : Bool) : State :=
  { s with lastBreakEnable := b, lsrBi := s.lsrBi || (b && !s.lastBreakEnable) }

/-! ### What a register access writes -/

/-- `thr <- v` (R110). -/
def State.setThr (s : State) (v : Byte) : State := { s with thr := v }

/-- `dl <- d` (R112, R116). -/
def State.setDl (s : State) (d : BitVec 16) : State := { s with dl := d }

/-- `ier <- x` (R114). -/
def State.setIer (s : State) (x : BitVec 4) : State := { s with ier := x }

/-- `lcr <- v` (R120). -/
def State.setLcr (s : State) (v : Byte) : State := { s with lcr := v }

/-- `mcr <- x` (R122). -/
def State.setMcr (s : State) (x : BitVec 5) : State := { s with mcr := x }

/-- `scr <- v` (R128). -/
def State.setScr (s : State) (v : Byte) : State := { s with scr := v }

/-- `rbr <- fifo_deq(rxf)` when a byte waits (R111). -/
def State.takeRbr (s : State) : State :=
  { s with
    rbr := if 0 < s.rxf.count then s.rxf.front else s.rbr
    rxf := if 0 < s.rxf.count then s.rxf.deq s.cfg.fifoDepth else s.rxf }

/-- `timeout_ipending <- 0` (R111). -/
def State.clearTimeout (s : State) : State := { s with timeoutIpending := false }

/-- The writes of `WR_FCR` before the timer: the enable, the two reset commands whatever the enable says, the trigger
(R86, R118). -/
def State.setFcr (s : State) (v : Byte) : State :=
  { s with
    fifoen := fcrEnable v
    rxf := if fcrRxReset v then s.rxf.clear else s.rxf
    timeoutIpending := s.timeoutIpending && !fcrRxReset v
    txf := if fcrTxReset v then s.txf.clear else s.txf
    rxtrig := fcrTrigger v }

/-- `thr_ipending <- 0` (R119). -/
def State.clearThrPending (s : State) : State := { s with thrIpending := false }

/-- The four error bits fall (R124). -/
def State.clearErrors (s : State) : State := { s with lsrOe := false, lsrPe := false, lsrFe := false, lsrBi := false }

/-- `msr[3:0] <- 0` (R126). -/
def State.clearDeltas (s : State) : State := { s with msr := msrLines s.msr ++ 0#4 }

end Sys2Proof.Machine
end

