-- ==== Sys2Proof/Machine/Bus.lean ====
section
/-! DEFINITION. Machine/Bus.lean: the twenty bus operations (spec/40_bus_register_ops.md R108 to R129), in offset
order. Which of two operations an access at offset 0 or 1 reaches is the decoder's choice (R81, R82); the meaning here
is the operation's own pseudocode (log entry 7). A read takes its result from the state before its own side effect
(spec/20_memory.md R74). -/

namespace Sys2Proof.Machine

/-! ### Offset 0 -/

/-- `WR_THR` (R110). -/
def execWrThr (v : Byte) (s : State) : Host.Outcome State Fault Refusal :=
  let queued := ((s.setThr v).txEnqueue v).txBusy
  .next (if queued.tsrFull then queued else queued.txStart)

/-- `RD_RBR` (R111): an empty FIFO returns the latched `rbr`. -/
def execRdRbr (s : State) : Host.Outcome State Fault Refusal :=
  .next (s.takeRbr.clearTimeout.rxtoRestart.reply s.takeRbr.rbr)

/-- `WR_DLL` (R112). -/
def execWrDll (v : Byte) (s : State) : Host.Outcome State Fault Refusal := .next (s.setDl (dlWithLow s.dl v))

/-- `RD_DLL` (R113). -/
def execRdDll (s : State) : Host.Outcome State Fault Refusal := .next (s.reply (dlLow s.dl))

/-! ### Offset 1 -/

/-- `WR_IER` (R114). -/
def execWrIer (v : Byte) (s : State) : Host.Outcome State Fault Refusal := .next (s.setIer (ierOf v))

/-- `RD_IER` (R115). -/
def execRdIer (s : State) : Host.Outcome State Fault Refusal := .next (s.reply (ierByte s.ier))

/-- `WR_DLM` (R116). -/
def execWrDlm (v : Byte) (s : State) : Host.Outcome State Fault Refusal := .next (s.setDl (dlWithHigh s.dl v))

/-- `RD_DLM` (R117). -/
def execRdDlm (s : State) : Host.Outcome State Fault Refusal := .next (s.reply (dlHigh s.dl))

/-! ### Offset 2 -/

/-- `WR_FCR` (R118). -/
def execWrFcr (v : Byte) (s : State) : Host.Outcome State Fault Refusal := .next (s.setFcr v).rxtoRestart

/-- `RD_IIR` (R119): the clear is unconditional (spec/90_conflicts.md C2). -/
def execRdIir (s : State) : Host.Outcome State Fault Refusal := .next (s.reply s.iir).clearThrPending

/-! ### Offset 3 -/

/-- `WR_LCR` (R120). -/
def execWrLcr (v : Byte) (s : State) : Host.Outcome State Fault Refusal :=
  .next ((s.setLcr v).breakEdge (v.getLsbD 6))

/-- `RD_LCR` (R121). -/
def execRdLcr (s : State) : Host.Outcome State Fault Refusal := .next (s.reply s.lcr)

/-! ### Offset 4 -/

/-- `WR_MCR` (R122): in loopback the outputs just written are looped into modem status. -/
def execWrMcr (v : Byte) (s : State) : Host.Outcome State Fault Refusal :=
  let written := s.setMcr (mcrOf v)
  .next (if written.loop then written.msrUpdate written.loopLines else written)

/-- `RD_MCR` (R123). -/
def execRdMcr (s : State) : Host.Outcome State Fault Refusal := .next (s.reply (mcrByte s.mcr))

/-! ### Offset 5 -/

/-- `RD_LSR` (R124): returns, then clears the four error bits. -/
def execRdLsr (s : State) : Host.Outcome State Fault Refusal := .next (s.reply s.lsr).clearErrors

/-- `WR_LSR` (R125): "no state changes". -/
def execWrLsr (_v : Byte) (s : State) : Host.Outcome State Fault Refusal := .next s

/-! ### Offset 6 -/

/-- `RD_MSR` (R126): returns, then clears the delta bits. -/
def execRdMsr (s : State) : Host.Outcome State Fault Refusal := .next (s.reply s.msr).clearDeltas

/-- `WR_MSR` (R127): "no state changes". -/
def execWrMsr (_v : Byte) (s : State) : Host.Outcome State Fault Refusal := .next s

/-! ### Offset 7 -/

/-- `WR_SCR` (R128). -/
def execWrScr (v : Byte) (s : State) : Host.Outcome State Fault Refusal := .next (s.setScr v)

/-- `RD_SCR` (R129). -/
def execRdScr (s : State) : Host.Outcome State Fault Refusal := .next (s.reply s.scr)

end Sys2Proof.Machine
end

