-- ==== Sys2Proof/Machine/Events.lean ====
section
/-! DEFINITION. Machine/Events.lean: the four environment events: `RXB` (spec/41_fifo_and_receive.md R148), `MSL`
(spec/43_modem_loopback_break.md R182), `TICK` (spec/42_timing_and_transmit.md R166), `RST`
(spec/70_reset_and_hazards.md R230). -/

namespace Sys2Proof.Machine

/-- `RXB` (R148): accepted in every state, also in loopback. -/
def execRxb (data : Byte) (pe fe bi : Bool) (s : State) : Host.Outcome State Fault Refusal :=
  .next (s.rxAccept data pe fe bi)

/-- `MSL` (R182): in loopback the real lines are not looked at. -/
def execMsl (cts dsr ri dcd : Bool) (s : State) : Host.Outcome State Fault Refusal :=
  .next (if s.loop then s else s.msrUpdate (modemLines cts dsr ri dcd))

/-- `TICK` (R166): which timers fire is settled first, then both count, then the transmit expiry, then the timeout. -/
def execTick (s : State) : Host.Outcome State Fault Refusal :=
  .next ((s.countDown.tickTx s.fireTx).tickRx s.fireRx)

/-- `RST` (R230): every register takes its reset value; the FIFO data arrays are not written. The parameters stay
(R231), and so do the events still to come and the bytes already sent (corner (a)). -/
def execRst (s : State) : Host.Outcome State Fault Refusal :=
  .next
    { s with
      dl := s.cfg.divisorReset
      rbr := 0#8
      thr := 0#8
      tsr := 0#8
      tsrFull := false
      ier := 0#4
      fifoen := false
      rxtrig := 0#2
      lcr := 0#8
      mcr := 0#5
      msr := 0#8
      scr := 0#8
      lsrOe := false
      lsrPe := false
      lsrFe := false
      lsrBi := false
      lsrThre := true
      lsrTemt := true
      rxf := s.rxf.clear
      txf := s.txf.clear
      thrIpending := false
      timeoutIpending := false
      lastBreakEnable := false
      txArmed := false
      txCnt := 0
      rxArmed := false
      rxCnt := 0 }

end Sys2Proof.Machine
end

