-- ==== Sys2Proof/Machine/Dispatch.lean ====
section
/-! DEFINITION. Machine/Dispatch.lean: one arm per operation or event of spec/opcode_table.json. -/

namespace Sys2Proof.Machine

def exec (i : Instr) (s : State) : Host.Outcome State Fault Refusal :=
  match i with
  | .wrThr v => Sys2Proof.Machine.execWrThr v s
  | .rdRbr => Sys2Proof.Machine.execRdRbr s
  | .wrDll v => Sys2Proof.Machine.execWrDll v s
  | .rdDll => Sys2Proof.Machine.execRdDll s
  | .wrIer v => Sys2Proof.Machine.execWrIer v s
  | .rdIer => Sys2Proof.Machine.execRdIer s
  | .wrDlm v => Sys2Proof.Machine.execWrDlm v s
  | .rdDlm => Sys2Proof.Machine.execRdDlm s
  | .wrFcr v => Sys2Proof.Machine.execWrFcr v s
  | .rdIir => Sys2Proof.Machine.execRdIir s
  | .wrLcr v => Sys2Proof.Machine.execWrLcr v s
  | .rdLcr => Sys2Proof.Machine.execRdLcr s
  | .wrMcr v => Sys2Proof.Machine.execWrMcr v s
  | .rdMcr => Sys2Proof.Machine.execRdMcr s
  | .rdLsr => Sys2Proof.Machine.execRdLsr s
  | .wrLsr v => Sys2Proof.Machine.execWrLsr v s
  | .rdMsr => Sys2Proof.Machine.execRdMsr s
  | .wrMsr v => Sys2Proof.Machine.execWrMsr v s
  | .wrScr v => Sys2Proof.Machine.execWrScr v s
  | .rdScr => Sys2Proof.Machine.execRdScr s
  | .rxb data pe fe bi => Sys2Proof.Machine.execRxb data pe fe bi s
  | .msl cts dsr ri dcd => Sys2Proof.Machine.execMsl cts dsr ri dcd s
  | .tick => Sys2Proof.Machine.execTick s
  | .rst => Sys2Proof.Machine.execRst s

end Sys2Proof.Machine
end

