-- ==== Sys2Proof/Machine/Access.lean ====
section
/-! DEFINITION. Machine/Access.lean: one event from its stimulus word, and the bus access primitives
(spec/30_encoding.md R81, R82, R89, spec/20_memory.md R64, R65). -/

namespace Sys2Proof.Machine

/-- One event (R3): decoded with the `lcr.DLAB` it finds (R82), then applied whole. A word that spells no event is
refused: no step (R89). -/
def runWord (w : Word) (s : State) : Host.Outcome State Fault Refusal :=
  match decode s.dlab w with
  | .ok i => exec i s.clearOutputs
  | .error r => .refused (.notAnEvent r)

/-- The next event the environment has presented, if any. -/
def fetchWord (s : State) : Option Word := s.stim.head?

/-- The state once the next event's word has been taken from the queue. -/
def afterFetch (s : State) : State := { s with stim := s.stim.tail }

/-- `s` with `w` presented as the very next event, before those already waiting. -/
def presentFirst (s : State) (w : Word) : State := { s with stim := w :: s.stim }

/-- A bus access of `bytes` bytes at offset `off`: only one byte at offsets 0 to 7 exists (R64, R65). -/
def busAccess (we : Bool) (off bytes : Nat) (v : Byte) (s : State) : Host.Outcome State Fault Refusal :=
  if bytes ≠ 1 then .refused (.badWidth bytes)
  else if 8 ≤ off then .refused (.badOffset off)
  else runWord (busWord we (BitVec.ofNat 3 off) v) s

/-- `MemRead(off, bytes)`: the byte it yields is `rdata` of the state it answers (R10, R64). -/
def memRead (off bytes : Nat) (s : State) : Host.Outcome State Fault Refusal := busAccess false off bytes 0#8 s

/-- `MemWrite(off, bytes, v)` (R10, R64). -/
def memWrite (off bytes : Nat) (v : Byte) (s : State) : Host.Outcome State Fault Refusal := busAccess true off bytes v s

end Sys2Proof.Machine
end

