-- ==== Sys2Proof/Machine/Step.lean ====
section
/-! DEFINITION. Machine/Step.lean: one step is the next event the environment has presented (spec/00_scope.md R3). -/

namespace Sys2Proof.Machine

/-- One step: take the next event and apply it. With no event presented there is no step (log entry 3). -/
def step (s : State) : Host.Outcome State Fault Refusal :=
  match fetchWord s with
  | some w => runWord w (afterFetch s)
  | none => .refused .noEvent

/-- `s` with the given instruction as the very next event (log entries 2 and 8). -/
def State.withFetchWord (s : State) (nbits w : Nat) : State := presentFirst s (tableWord nbits w)

end Sys2Proof.Machine
end

