-- ==== Sys2Proof/Machine/Ports.lean ====
section
/-! DEFINITION. Machine/Ports.lean: the interface signals (spec/10_state.md R50, R51), which events one clock cycle
holds, and in which orders they may be applied (spec/60_exceptions.md R212, `EVENT_ORDER` of spec/00_scope.md R7). -/

namespace Sys2Proof.Machine

/-- The input ports during one clock cycle (R50). -/
structure Pins where
  rst : Bool
  busSel : Bool
  busWe : Bool
  busAddr : BitVec 3
  busWdata : Byte
  rxValid : Bool
  rxData : Byte
  rxPe : Bool
  rxFe : Bool
  rxBi : Bool
  mslValid : Bool
  cts : Bool
  dsr : Bool
  ri : Bool
  dcd : Bool
deriving DecidableEq, Repr

/-- The output ports right after one event (R50, R51): `rdata` is present if it was a read, `tx` if it sent a byte. What
they show over a whole clock cycle is `CycleOutputs` in Machine/Cycle.lean. -/
structure Outputs where
  rdata : Option Byte
  tx : Option Byte
  irq : Bool
  dtr : Bool
  rts : Bool
  out1 : Bool
  out2 : Bool
  lcrOut : Byte
deriving DecidableEq, Repr

/-- The outputs after an event (R4, R51, R186): the modem-control outputs follow `mcr[3:0]` in every mode. -/
def State.outputs (s : State) : Outputs where
  rdata := s.rdata
  tx := s.txOut
  irq := s.irq
  dtr := s.mcr.getLsbD 0
  rts := s.mcr.getLsbD 1
  out1 := s.mcr.getLsbD 2
  out2 := s.mcr.getLsbD 3
  lcrOut := s.lcr

/-- The event a source causes in a cycle without reset: a `TICK` always, the others when their valid input is 1 (R50). -/
def Pins.event (p : Pins) : Source → Option Word
  | .tick => some (encode .tick)
  | .rxb => if p.rxValid then some (encode (.rxb p.rxData p.rxPe p.rxFe p.rxBi)) else none
  | .msl => if p.mslValid then some (encode (.msl p.cts p.dsr p.ri p.dcd)) else none
  | .bus => if p.busSel then some (busWord p.busWe p.busAddr p.busWdata) else none

/-- The events of one clock cycle, applied in the given order of sources; "a cycle with `rst = 1` is the `RST` event
and nothing else" (R50). -/
def Pins.events (p : Pins) (order : List Source) : List Word :=
  if p.rst then [encode .rst] else order.filterMap p.event

/-- The orders `EVENT_ORDER` admits: every permutation, or the fixed one (R7, R212). -/
def orderAdmitted (o : EventOrder) (order : List Source) : Bool :=
  match o with
  | .any => order.isPerm Source.all
  | .fixed fixedOrder => order == fixedOrder

/-- `s` with the events of one more clock cycle presented, after those already waiting. -/
def State.presentCycle (s : State) (p : Pins) (order : List Source) : State :=
  { s with stim := s.stim ++ p.events order }

end Sys2Proof.Machine
end

