-- ==== Sys2Proof/Machine/Cycle.lean ====
section
/-! DEFINITION. Machine/Cycle.lean: one whole clock cycle at the ports (spec/10_state.md R50, R51): its events are
applied one step each, and its outputs are gathered over all of them. -/

namespace Sys2Proof.Machine

/-- The output ports of R50 over one clock cycle. `rdata` is the byte of the cycle's read, if it has one. `tx` holds the
bytes the cycle's events passed to `send`, oldest first; from a state of the block it holds at most one, which is
`tx_data`. The others are levels, "functions of the state after the last event" (R51). -/
structure CycleOutputs where
  rdata : Option Byte
  tx : List Byte
  irq : Bool
  dtr : Bool
  rts : Bool
  out1 : Bool
  out2 : Bool
  lcrOut : Byte
deriving DecidableEq, Repr

/-- `tx_valid`: "1 exactly in a cycle whose events executed `send`" (R51). -/
def CycleOutputs.txValid (o : CycleOutputs) : Bool := !o.tx.isEmpty

/-- A cycle before its first event: no read result, no transmit pulse, the levels of the state (R51). -/
def CycleOutputs.idle (s : State) : CycleOutputs where
  rdata := none
  tx := []
  irq := s.outputs.irq
  dtr := s.outputs.dtr
  rts := s.outputs.rts
  out1 := s.outputs.out1
  out2 := s.outputs.out2
  lcrOut := s.outputs.lcrOut

/-- A cycle after one more event that led to `t`: its read result and its pulse are kept, the levels follow `t`. -/
def CycleOutputs.afterEvent (o : CycleOutputs) (t : State) : CycleOutputs :=
  { CycleOutputs.idle t with rdata := t.outputs.rdata.or o.rdata, tx := o.tx ++ t.outputs.tx.toList }

/-- The next `n` steps, with the outputs gathered since the cycle began. -/
def runCycle (o : CycleOutputs) : Nat → State → Host.Outcome (CycleOutputs × State) Fault Refusal
  | 0, s => .next (o, s)
  | n + 1, s =>
    match step s with
    | .next t => runCycle (o.afterEvent t) n t
    | .fault f => .fault f
    | .refused r => .refused r

/-- One clock cycle with the inputs `p`, its events applied in the given order of sources (R50, R212): what the ports
show in it, and the state after it. -/
def clockCycle (p : Pins) (order : List Source) (s : State) : Host.Outcome (CycleOutputs × State) Fault Refusal :=
  runCycle (CycleOutputs.idle s) (p.events order).length { s with stim := p.events order ++ s.stim }

end Sys2Proof.Machine
end

