-- ==== Sys2Proof/Safety.lean ====
section
/-! DEFINITION. Safety.lean: what a good state and a safe run are, in the terms the statements use: the invariants of
spec/10_state.md R35 and R46, the words that spell events (spec/30_encoding.md R89), the timeout timer in line with its
FIFO (spec/41_fifo_and_receive.md R145), and the two "looks the same" relations behind spec/10_state.md R23, R24, R33. -/

namespace Sys2Proof.Machine

/-- The invariant of a FIFO of capacity `c` (R33, R35): an array of `c` bytes, indices below `c`, `count` at most `c`,
`head = (tail + count) mod c`. -/
abbrev Fifo.Wf (c : Nat) (f : Fifo) : Prop :=
  f.data.length = c ∧ f.head < c ∧ f.tail < c ∧ f.count ≤ c ∧ f.head = (f.tail + f.count) % c

/-- R46 items 1 to 4 and the transmit half of item 7. -/
abbrev State.TxInv (s : State) : Prop :=
  s.tsrFull = s.txArmed ∧ (0 < s.txf.count → s.tsrFull = true) ∧ s.lsrThre = !s.tsrFull ∧ s.lsrTemt = !s.tsrFull ∧
  (s.thrIpending = true → s.lsrThre = true) ∧ (s.txArmed = true → 1 ≤ s.txCnt)

/-- R46 items 5 and 6 and the receive half of item 7. -/
abbrev State.RxInv (s : State) : Prop :=
  (s.rxArmed = true → s.fifoen = true ∧ 0 < s.rxf.count ∧ s.rxf.count < s.trigEff) ∧
  (s.timeoutIpending = true → 0 < s.rxf.count) ∧ (s.rxArmed = true → 1 ≤ s.rxCnt)

/-- The invariant of every state reachable from `RST`: legal parameters (R7), R46, and `last_break_enable = lcr[6]`
(R185 corner (d)). -/
abbrev State.Inv (s : State) : Prop :=
  s.cfg.Valid ∧ s.rxf.Wf s.cfg.fifoDepth ∧ s.txf.Wf s.cfg.fifoDepth ∧ s.TxInv ∧ s.RxInv ∧ s.lastBreakEnable = s.brk

/-- The stimulus words that spell an event (R89): kind at most 4 and the must-be-zero bits of the kind zero. -/
abbrev EventWord (w : Word) : Prop :=
  (wordKind w).toNat ≤ 4 ∧
  ((wordKind w).toNat = 1 → w.getLsbD 11 = false) ∧
  ((wordKind w).toNat = 2 → wordMslZero w = 0#8) ∧
  ((wordKind w).toNat = 3 ∨ (wordKind w).toNat = 4 → wordLow12 w = 0#12)

/-- A step never ends in a fault; a run is safe when it is refused only for want of an event (R89, R200). -/
abbrev State.SafeInput (s : State) : Prop := ∀ w ∈ s.stim, EventWord w

/-- The timeout timer of `t` is in line with the FIFO of `t` (R145): running with a full load, or disarmed with the
count `old` left where it was. -/
def State.TimerInLine (t : State) (old : Nat) : Prop :=
  (t.fifoen = true ∧ 0 < t.rxf.count ∧ t.rxf.count < t.trigEff →
    t.rxArmed = true ∧ t.rxCnt = t.cfg.rxTimeoutChars * t.charTicks) ∧
  (¬(t.fifoen = true ∧ 0 < t.rxf.count ∧ t.rxf.count < t.trigEff) → t.rxArmed = false ∧ t.rxCnt = old)

/-- The event `i` promotes a byte into the shift stage (R110, R163, R167): a `WR_THR` that finds the stage empty, or a
`TICK` whose due expiry finds a byte queued. These are the events that call `deliver` and arm the transmit timer. -/
def State.promotes (s : State) (i : Instr) : Prop :=
  ((∃ v, i = .wrThr v) ∧ s.tsrFull = false) ∨ (i = .tick ∧ s.txArmed = true ∧ s.txCnt = 1 ∧ 0 < s.txf.count)

/-- The event `i` brings a byte to the receive path (R148, R164): an `RXB`, or in loopback a promotion. -/
def State.receives (s : State) (i : Instr) : Prop :=
  (∃ d pe fe bi, i = .rxb d pe fe bi) ∨ (s.loop = true ∧ s.promotes i)

/-- The event `i` passes through `rxto_restart` (R145): an arrival, `RD_RBR` or `WR_FCR`. -/
def State.restartsTimeout (s : State) (i : Instr) : Prop :=
  s.receives i ∨ i = .rdRbr ∨ ∃ v, i = .wrFcr v

/-- A count after the event `i` has done its counting (R166): one less in a `TICK` while the timer runs. -/
def countAfter (i : Instr) (armed : Bool) (cnt : Nat) : Nat := if i = .tick ∧ armed = true then cnt - 1 else cnt

/-- Two states that differ at most in the latches `thr` and `tsr`. -/
def State.SameButLatches (s t : State) : Prop := t = { s with thr := t.thr, tsr := t.tsr }

/-- Two FIFOs that hold the same bytes at the same indices within the live range. -/
def Fifo.SameQueue (c : Nat) (f g : Fifo) : Prop :=
  g.head = f.head ∧ g.tail = f.tail ∧ g.count = f.count ∧ g.contents c = f.contents c

/-- Two states that differ at most in FIFO entries outside the live ranges (U1). -/
def State.SameButDeadEntries (s t : State) : Prop :=
  t = { s with rxf := t.rxf, txf := t.txf } ∧ Fifo.SameQueue s.cfg.fifoDepth s.rxf t.rxf ∧
    Fifo.SameQueue s.cfg.fifoDepth s.txf t.txf

end Sys2Proof.Machine
end

