-- ==== Sys2Proof/Certificates/Slice0/Obligations.lean ====
section
/-! DEFINITION. Certificates/Slice0/Obligations.lean: the statements for the provers. Each docstring says which rule of
spec/ it comes from; "the spec's decision D<n>" marks a clause that spec/92_eei_decisions.md makes, not the source. -/

open Sys2Proof Sys2Proof.Machine

/-! ### Encoding -/

/-- R80, R81, R89 and the spellings of V62 (the stimulus word is the spec's decision D3): words written out from the
encodings decode to the events they spell, in both banks. -/
def Obligations.SpelledWordsDecode : Prop :=
  decode false 0x0841#16 = .ok (.wrThr 0x41#8) ∧ decode true 0x0841#16 = .ok (.wrDll 0x41#8) ∧
  decode false 0x0037#16 = .ok .rdRbr ∧ decode true 0x0037#16 = .ok .rdDll ∧
  decode false 0x09FF#16 = .ok (.wrIer 0xFF#8) ∧ decode true 0x0912#16 = .ok (.wrDlm 0x12#8) ∧
  decode false 0x0A47#16 = .ok (.wrFcr 0x47#8) ∧ decode false 0x0200#16 = .ok .rdIir ∧
  decode false 0x0B83#16 = .ok (.wrLcr 0x83#8) ∧ decode true 0x0C1F#16 = .ok (.wrMcr 0x1F#8) ∧
  decode false 0x0FA5#16 = .ok (.wrScr 0xA5#8) ∧
  decode false 0x1200#16 = .ok (.rxb 0x00#8 false true false) ∧ decode true 0x1600#16 = .ok (.rxb 0x00#8 false true true) ∧
  decode false 0x200B#16 = .ok (.msl true true false true) ∧ decode false 0x3000#16 = .ok .tick ∧
  decode true 0x4000#16 = .ok .rst ∧ decode false 0x5000#16 = .error .reservedKind ∧
  decode true 0x1800#16 = .error .rxbBit11 ∧ decode false 0x2010#16 = .error .mslHighBits ∧
  decode false 0x3001#16 = .error .tickLowBits ∧ decode true 0x4001#16 = .error .rstLowBits

/-- R80, R81, R93 (the stimulus word is the spec's decision D3): in the bank an operation asserts, the decoder reads
back every encoded event with every operand. -/
def Obligations.DecodeOfEncode : Prop :=
  ∀ (dlab : Bool) (i : Instr), i.wf dlab = true → decode dlab (encode i) = .ok i

/-- R80, R81, R83 (the spec's decision D3), the other direction: what is decoded asserts the bank in force and encodes
back to the word, whose ignored byte a read spells as zero. -/
def Obligations.EncodeOfDecode : Prop :=
  ∀ (dlab : Bool) (w : Word) (i : Instr), decode dlab w = .ok i →
    i.wf dlab = true ∧ encode i = if i.isRead then w &&& 0xFF00#16 else w

/-- R89 (the spec's decision D3): the rejected words are exactly those of the rule, each for its own reason, and every
format-B word is valid. -/
def Obligations.RejectedWordsAreTheNonEvents : Prop :=
  ∀ (dlab : Bool) (w : Word),
    ((∃ i, decode dlab w = .ok i) ↔ EventWord w) ∧
    (decode dlab w = .error .reservedKind ↔ 5 ≤ (w >>> 12).toNat) ∧
    (decode dlab w = .error .rxbBit11 ↔ (w >>> 12).toNat = 1 ∧ w.getLsbD 11 = true) ∧
    (decode dlab w = .error .mslHighBits ↔ (w >>> 12).toNat = 2 ∧ w &&& 0x0FF0#16 ≠ 0#16) ∧
    (decode dlab w = .error .tickLowBits ↔ (w >>> 12).toNat = 3 ∧ w &&& 0x0FFF#16 ≠ 0#16) ∧
    (decode dlab w = .error .rstLowBits ↔ (w >>> 12).toNat = 4 ∧ w &&& 0x0FFF#16 ≠ 0#16)

/-- R82: `lcr.DLAB` is the only state that changes decoding, and it does so at offsets 0 and 1 only. -/
def Obligations.BankBitDecodesOnlyOffsetsZeroAndOne : Prop :=
  ∀ w : Word, decode true w ≠ decode false w ↔ (w >>> 12).toNat = 0 ∧ ((w >>> 8) &&& 7#16).toNat ≤ 1

/-! ### The step -/

/-- R3, R82: the next presented word is decoded with the `lcr.DLAB` the event finds, and the step is `exec` of the
decoded event on the state whose queue has moved on and whose event outputs are clear. -/
def Obligations.StepRunsTheDecodedEvent : Prop :=
  ∀ (s : State) (w : Word) (ws : List Word) (i : Instr), s.stim = w :: ws → decode s.dlab w = .ok i →
    step s = exec i { s with stim := ws, rdata := none, txOut := none }

/-- R89: a word that spells no event is refused, not skipped. The second clause, no step without a presented event, is
the model's choice (log entry 3). -/
def Obligations.StepRefusesWhatIsNoEvent : Prop :=
  (∀ (s : State) (w : Word) (ws : List Word) (r : Reject), s.stim = w :: ws → decode s.dlab w = .error r →
    step s = .refused (.notAnEvent r)) ∧
  (∀ s : State, s.stim = [] → step s = .refused .noEvent)

/-- The host interface (log entries 2 and 8): `withFetchWord` makes a table word the very next event, whatever is
waiting, and in bank 0 that is the event `decodeTableWord` reads. -/
def Obligations.PresentedWordRunsNext : Prop :=
  ∀ (s : State) (w : Nat) (i : Instr), s.dlab = false → decodeTableWord 16 w = some i →
    step (s.withFetchWord 16 w) = exec i { s with rdata := none, txOut := none }

/-- R200, R108: "Every operation and event of the opcode table always completes": `exec` answers a next state for every
event, operand and state. -/
def Obligations.EveryEventCompletes : Prop :=
  ∀ (i : Instr) (s : State), ∃ t : State, exec i s = .next t

/-- R200, R89 over runs: a queue (the model's own, log entry 2) that holds only events is applied to its end, one event
a step. -/
def Obligations.EventQueueRunsToItsEnd : Prop :=
  ∀ s : State, s.SafeInput → ∃ t : State, core.run s.stim.length s = .next t ∧ t.stim = []

/-! ### Bus access -/

/-- R64, R65 (the spec's decisions D25, D27): an access of another width, or at an offset outside 0 to 7, is refused and
never wrapped. -/
def Obligations.AccessOutsideTheSpaceIsRefused : Prop :=
  ∀ (off bytes : Nat) (v : Byte) (s : State),
    (bytes ≠ 1 → memRead off bytes s = .refused (.badWidth bytes) ∧ memWrite off bytes v s = .refused (.badWidth bytes)) ∧
    (8 ≤ off → memRead off 1 s = .refused (.badOffset off) ∧ memWrite off 1 v s = .refused (.badOffset off))

/-- R61, which the spec derives from R110 to R129: the offsets that read back what was written, and the two that read it
back masked. -/
def Obligations.AccessReadsBackWhatWasWritten : Prop :=
  ∀ (off : Nat) (v : Byte) (s : State),
    off = 3 ∨ off = 7 ∨ off = 4 ∨ (off = 0 ∧ s.dlab = true) ∨ off = 1 →
    ∃ t u : State, memWrite off 1 v s = .next t ∧ memRead off 1 t = .next u ∧
      u.rdata = some (if off = 4 then v &&& 0x1F#8 else if off = 1 ∧ s.dlab = false then v &&& 0x0F#8 else v)

/-! ### The plain registers -/

/-- R113, R115, R117, R121, R123, R129, each whole: the words of the six reads without side effect, their results, and
that nothing else changes. -/
def Obligations.PlainReadsReturnTheirRegister : Prop :=
  decode true 0x0000#16 = .ok .rdDll ∧ decode true 0x0100#16 = .ok .rdDlm ∧ decode false 0x0100#16 = .ok .rdIer ∧
  (∀ dlab : Bool, decode dlab 0x0300#16 = .ok .rdLcr ∧ decode dlab 0x0400#16 = .ok .rdMcr ∧
    decode dlab 0x0700#16 = .ok .rdScr) ∧
  ∀ s : State,
    exec .rdDll s = .next { s with rdata := some (s.dl.setWidth 8) } ∧
    exec .rdDlm s = .next { s with rdata := some ((s.dl >>> 8).setWidth 8) } ∧
    exec .rdIer s = .next { s with rdata := some (s.ier.setWidth 8) } ∧
    exec .rdLcr s = .next { s with rdata := some s.lcr } ∧
    exec .rdMcr s = .next { s with rdata := some (s.mcr.setWidth 8) } ∧
    exec .rdScr s = .next { s with rdata := some s.scr }

/-- R112, R114, R116, R128, each whole: the words of the four writes without side effect, the new value of the register,
and that nothing else changes: no timer is rescaled, no pending flag is written, nothing is queued or sent. -/
def Obligations.PlainWritesSetTheirRegister : Prop :=
  ∀ v : Byte,
    decode true (0x0800#16 ||| v.setWidth 16) = .ok (.wrDll v) ∧
    decode true (0x0900#16 ||| v.setWidth 16) = .ok (.wrDlm v) ∧
    decode false (0x0900#16 ||| v.setWidth 16) = .ok (.wrIer v) ∧
    (∀ dlab : Bool, decode dlab (0x0F00#16 ||| v.setWidth 16) = .ok (.wrScr v)) ∧
    ∀ s : State,
      exec (.wrDll v) s = .next { s with dl := (s.dl &&& 0xFF00#16) ||| v.setWidth 16 } ∧
      exec (.wrDlm v) s = .next { s with dl := (s.dl &&& 0x00FF#16) ||| (v.setWidth 16 <<< 8) } ∧
      exec (.wrIer v) s = .next { s with ier := v.setWidth 4 } ∧
      exec (.wrScr v) s = .next { s with scr := v }

/-- R84, R161: the divisor is the high byte and the low byte, "each written separately and in either order", and the
value used for timing is 1 for a stored 0, else the stored value. -/
def Obligations.DivisorIsWrittenInTwoHalves : Prop :=
  (∀ (low high : Byte) (s : State), ∃ a b t : State,
    exec (.wrDll low) s = .next a ∧ exec (.wrDlm high) a = .next t ∧
    exec (.wrDlm high) s = .next b ∧ exec (.wrDll low) b = .next t ∧
    t = { s with dl := t.dl } ∧ t.dl.toNat = 256 * high.toNat + low.toNat) ∧
  ∀ s : State, s.effDiv = if s.dl.toNat = 0 then 1 else s.dl.toNat

/-- R125, R127 (the spec's decision D9): a write to a read-only offset changes no state. -/
def Obligations.WritesToReadOnlyOffsetsChangeNothing : Prop :=
  ∀ (v : Byte) (s : State), exec (.wrLsr v) s = .next s ∧ exec (.wrMsr v) s = .next s

/-- R119 whole: its word, the result (the identification value before the read's own clear), and the clear, which is
unconditional and the only other effect. -/
def Obligations.ReadOfIirClearsTransmitPending : Prop :=
  (∀ dlab : Bool, decode dlab 0x0200#16 = .ok .rdIir) ∧
  ∀ s : State, exec .rdIir s = .next { s with rdata := some s.iir, thrIpending := false }

/-- R124 whole: its word, every bit of the returned byte, the four error bits cleared after it was taken, and nothing
else changed. -/
def Obligations.ReadOfLsrReturnsAndClearsErrors : Prop :=
  (∀ dlab : Bool, decode dlab 0x0500#16 = .ok .rdLsr) ∧
  ∀ s : State, ∃ b : Byte,
    exec .rdLsr s = .next { s with rdata := some b, lsrOe := false, lsrPe := false, lsrFe := false, lsrBi := false } ∧
    b.getLsbD 0 = decide (0 < s.rxf.count) ∧ b.getLsbD 1 = s.lsrOe ∧ b.getLsbD 2 = s.lsrPe ∧ b.getLsbD 3 = s.lsrFe ∧
    b.getLsbD 4 = s.lsrBi ∧ b.getLsbD 5 = s.lsrThre ∧ b.getLsbD 6 = s.lsrTemt ∧ b.getLsbD 7 = false

/-- R126 whole: its word, the byte returned, then the delta bits `msr[3:0]` cleared, and nothing else changed. -/
def Obligations.ReadOfMsrReturnsAndClearsDeltas : Prop :=
  (∀ dlab : Bool, decode dlab 0x0600#16 = .ok .rdMsr) ∧
  ∀ s : State, exec .rdMsr s = .next { s with rdata := some s.msr, msr := s.msr &&& 0xF0#8 }

/-- R120 with R185 (the break edge is the spec's decision D21): the byte is stored whole, `last_break_enable` follows
bit 6, a 0 to 1 edge of it sets `lsr_bi`, and nothing else changes: no timer is rescaled. -/
def Obligations.WriteOfLcrDetectsBreakStart : Prop :=
  ∀ (v : Byte) (s : State), ∃ t : State, exec (.wrLcr v) s = .next t ∧
    t = { s with lcr := v, lastBreakEnable := v.getLsbD 6, lsrBi := t.lsrBi } ∧
    (t.lsrBi = true ↔ s.lsrBi = true ∨ v.getLsbD 6 = true ∧ s.lastBreakEnable = false)

/-- R122 with R180, R181 (the wiring is the spec's decision D22, the delta rule D23): the five bits kept; outside
loopback nothing else changes; in loopback RTS, DTR, OUT1, OUT2 reach CTS, DSR, RI, DCD, and a line that differs from
the recorded one sets its sticky delta bit. -/
def Obligations.WriteOfMcrLoopsItsOutputs : Prop :=
  ∀ (v : Byte) (s : State), ∃ t : State, exec (.wrMcr v) s = .next t ∧
    t = { s with mcr := v.setWidth 5, msr := t.msr } ∧
    (v.getLsbD 4 = false → t.msr = s.msr) ∧
    (v.getLsbD 4 = true →
      t.msr.getLsbD 4 = v.getLsbD 1 ∧ t.msr.getLsbD 5 = v.getLsbD 0 ∧ t.msr.getLsbD 6 = v.getLsbD 2 ∧
      t.msr.getLsbD 7 = v.getLsbD 3 ∧
      ∀ k < 4, t.msr.getLsbD k = (s.msr.getLsbD k || (s.msr.getLsbD (k + 4) != t.msr.getLsbD (k + 4))))

/-- R182 with R180 (the spec's decision D23): outside loopback the four lines are recorded and changed lines set their
sticky delta bits; in loopback the event changes nothing. -/
def Obligations.ModemLineReportRecordsLines : Prop :=
  ∀ (cts dsr ri dcd : Bool) (s : State), ∃ t : State, exec (.msl cts dsr ri dcd) s = .next t ∧
    t = { s with msr := t.msr } ∧
    (s.mcr.getLsbD 4 = true → t.msr = s.msr) ∧
    (s.mcr.getLsbD 4 = false →
      t.msr.getLsbD 4 = cts ∧ t.msr.getLsbD 5 = dsr ∧ t.msr.getLsbD 6 = ri ∧ t.msr.getLsbD 7 = dcd ∧
      ∀ k < 4, t.msr.getLsbD k = (s.msr.getLsbD k || (s.msr.getLsbD (k + 4) != t.msr.getLsbD (k + 4))))

/-! ### FIFO control and the receive path -/

/-- R118 (the timeout clauses are the spec's decisions D15, D16): the two kept fields, the two reset commands, the timer,
and everything `WR_FCR` does not write. -/
def Obligations.WriteOfFcrSetsFifoMode : Prop :=
  ∀ (v : Byte) (s : State), ∃ t : State, exec (.wrFcr v) s = .next t ∧
    t = { s with
      fifoen := v.getLsbD 0, rxtrig := (v >>> 6).setWidth 2, rxf := t.rxf, txf := t.txf,
      timeoutIpending := t.timeoutIpending, rxArmed := t.rxArmed, rxCnt := t.rxCnt } ∧
    (v.getLsbD 1 = true →
      t.rxf = { data := s.rxf.data, head := 0, tail := 0, count := 0 } ∧ t.timeoutIpending = false) ∧
    (v.getLsbD 1 = false → t.rxf = s.rxf ∧ t.timeoutIpending = s.timeoutIpending) ∧
    (v.getLsbD 2 = true → t.txf = { data := s.txf.data, head := 0, tail := 0, count := 0 }) ∧
    (v.getLsbD 2 = false → t.txf = s.txf) ∧
    t.TimerInLine s.rxCnt

/-- R149: over any sequence of `WR_FCR` events, a FIFO whose reset bit none of them sets keeps its bytes, whatever the
enable bit does and whether or not the other FIFO is reset; and in either mode a transmit expiry sends the oldest queued
byte (in loopback it is not sent, R164), for one more character time. -/
def Obligations.SwitchingFifoModeKeepsTheBytes : Prop :=
  (∀ (vs : List Byte) (s : State), s.stim = vs.map (fun v => 0x0A00#16 ||| v.setWidth 16) →
    ∃ t : State, core.run vs.length s = .next t ∧
      t = { s with
        stim := [], rdata := t.rdata, txOut := t.txOut, fifoen := t.fifoen, rxtrig := t.rxtrig, rxf := t.rxf,
        txf := t.txf, timeoutIpending := t.timeoutIpending, rxArmed := t.rxArmed, rxCnt := t.rxCnt } ∧
      ((∀ v ∈ vs, v.getLsbD 1 = false) → t.rxf = s.rxf) ∧ ((∀ v ∈ vs, v.getLsbD 2 = false) → t.txf = s.txf) ∧
      (∀ v, vs.getLast? = some v → t.fifoen = v.getLsbD 0)) ∧
  (∀ (s : State) (b : Byte) (rest : List Byte), s.txf.Wf s.cfg.fifoDepth → s.txArmed = true → s.txCnt = 1 →
    s.txf.contents s.cfg.fifoDepth = b :: rest →
    ∃ t : State, exec .tick s = .next t ∧ t.fifoen = s.fifoen ∧ t.txf.contents s.cfg.fifoDepth = rest ∧ t.tsr = b ∧
      t.txArmed = true ∧ t.txCnt = s.charTicks ∧
      (s.loop = false → t.sent = s.sent ++ [b] ∧ t.txOut = some b) ∧
      (s.loop = true → t.sent = s.sent ∧ t.txOut = s.txOut))

/-- R146, R148 (the three flags are the spec's decision D20, the timer D15): a byte is queued behind the others when
there is room; otherwise the FIFO is unchanged and the overrun bit is set; the flags are recorded either way. -/
def Obligations.ArrivalIsQueuedOrOverruns : Prop :=
  ∀ (d : Byte) (pe fe bi : Bool) (s : State), s.cfg.Valid → s.rxf.Wf s.cfg.fifoDepth →
    ∃ t : State, exec (.rxb d pe fe bi) s = .next t ∧
      t = { s with
        rxf := t.rxf, lsrOe := t.lsrOe, lsrPe := s.lsrPe || pe, lsrFe := s.lsrFe || fe, lsrBi := s.lsrBi || bi,
        rxArmed := t.rxArmed, rxCnt := t.rxCnt } ∧
      (s.rxf.count < s.ceff →
        t.rxf.contents s.cfg.fifoDepth = s.rxf.contents s.cfg.fifoDepth ++ [d] ∧ t.lsrOe = s.lsrOe) ∧
      (s.ceff ≤ s.rxf.count → t.rxf = s.rxf ∧ t.lsrOe = true) ∧
      t.TimerInLine s.rxCnt

/-- R111 (the empty case is the spec's decision D19, the timeout clauses D15, D16): a read takes the oldest byte, or
returns the latched one when nothing waits. -/
def Obligations.ReadOfRbrTakesTheOldestByte : Prop :=
  ∀ s : State, s.rxf.Wf s.cfg.fifoDepth → ∃ t : State, exec .rdRbr s = .next t ∧
    t = { s with
      rxf := t.rxf, rbr := t.rbr, rdata := some t.rbr, timeoutIpending := false, rxArmed := t.rxArmed, rxCnt := t.rxCnt } ∧
    (∀ (b : Byte) (rest : List Byte), s.rxf.contents s.cfg.fifoDepth = b :: rest →
      t.rbr = b ∧ t.rxf.contents s.cfg.fifoDepth = rest ∧ t.rxf.data = s.rxf.data) ∧
    (s.rxf.contents s.cfg.fifoDepth = [] → t.rbr = s.rbr ∧ t.rxf = s.rxf) ∧
    t.TimerInLine s.rxCnt

/-- R35, R140 to R144 (which index is which is the spec's decision D11): on a well-formed FIFO the primitives are those
of a queue of bytes, and they keep it well-formed. -/
def Obligations.FifoIsAQueue : Prop :=
  ∀ (c : Nat) (f : Fifo) (v : Byte), f.Wf c →
    (f.contents c).length = f.count ∧
    (f.count < c → (f.enq c v).contents c = f.contents c ++ [v] ∧ (f.enq c v).Wf c) ∧
    (0 < f.count → f.contents c = f.front :: (f.deq c).contents c ∧ (f.deq c).Wf c ∧
      (f.replaceNewest c v).contents c = (f.contents c).dropLast ++ [v] ∧ (f.replaceNewest c v).Wf c) ∧
    f.clear.contents c = [] ∧ f.clear.Wf c

/-! ### The transmit path -/

/-- R110, R163, R164 (the clears and the promotion at once are the spec's decision D17): outside loopback a write to an
idle transmitter sends the byte in the same event and starts the character time. -/
def Obligations.WriteOfThrWhenIdleSendsAtOnce : Prop :=
  ∀ (v : Byte) (s : State), s.Inv → s.tsrFull = false → s.loop = false →
    ∃ t : State, exec (.wrThr v) s = .next t ∧
      t = { s with
        thr := v, txf := t.txf, lsrThre := false, lsrTemt := false, thrIpending := false, tsr := v, tsrFull := true,
        txArmed := true, txCnt := s.charTicks, txOut := some v, sent := s.sent ++ [v] } ∧
      t.txf.contents s.cfg.fifoDepth = []

/-- R110 corner (c), R164, R183 (the spec's decisions D17, D20, D22): in loopback the byte enters the receive path in the
same event and nothing is sent. -/
def Obligations.WriteOfThrWhenIdleInLoopbackReceives : Prop :=
  ∀ (v : Byte) (s : State), s.Inv → s.tsrFull = false → s.loop = true →
    ∃ t : State, exec (.wrThr v) s = .next t ∧
      t = { s with
        thr := v, txf := t.txf, lsrThre := false, lsrTemt := false, thrIpending := false, tsr := v, tsrFull := true,
        txArmed := true, txCnt := s.charTicks, rxf := t.rxf, lsrOe := t.lsrOe, rxArmed := t.rxArmed, rxCnt := t.rxCnt } ∧
      t.txf.contents s.cfg.fifoDepth = [] ∧
      (s.rxf.count < s.ceff →
        t.rxf.contents s.cfg.fifoDepth = s.rxf.contents s.cfg.fifoDepth ++ [v] ∧ t.lsrOe = s.lsrOe) ∧
      (s.ceff ≤ s.rxf.count → t.rxf = s.rxf ∧ t.lsrOe = true) ∧
      t.TimerInLine s.rxCnt

/-- R110, R144 (the spec's decisions D17, D18): while a character is being shifted a write only queues; with no room the
byte is lost or replaces the newest one, by `TX_FULL_POLICY`, and no status bit records it. -/
def Obligations.WriteOfThrWhenBusyQueues : Prop :=
  ∀ (v : Byte) (s : State), s.cfg.Valid → s.txf.Wf s.cfg.fifoDepth → s.tsrFull = true →
    ∃ t : State, exec (.wrThr v) s = .next t ∧
      t = { s with thr := v, txf := t.txf, lsrThre := false, lsrTemt := false, thrIpending := false } ∧
      (s.txf.count < s.ceff → t.txf.contents s.cfg.fifoDepth = s.txf.contents s.cfg.fifoDepth ++ [v]) ∧
      (s.ceff ≤ s.txf.count → s.cfg.txFullPolicy = .drop → t.txf = s.txf) ∧
      (s.ceff ≤ s.txf.count → s.cfg.txFullPolicy = .overwriteLast →
        t.txf.contents s.cfg.fifoDepth = (s.txf.contents s.cfg.fifoDepth).dropLast ++ [v])

/-! ### Time -/

/-- R166 to R168, R163, R164 (the counters are the spec's decision D14): one `TICK` in which no byte is looped back. The
transmit side counts, or drains, or promotes and sends its oldest byte; the timeout side counts or raises its pending
flag; both in the same `TICK` if both are due. -/
def Obligations.TickCountsAndExpires : Prop :=
  ∀ s : State, s.txf.Wf s.cfg.fifoDepth →
    s.loop = false ∨ ¬(s.txArmed = true ∧ s.txCnt = 1) ∨ s.txf.count = 0 →
    ∃ t : State, exec .tick s = .next t ∧
      t = { s with
        txArmed := t.txArmed, txCnt := t.txCnt, tsr := t.tsr, tsrFull := t.tsrFull, txf := t.txf, lsrThre := t.lsrThre,
        lsrTemt := t.lsrTemt, thrIpending := t.thrIpending, txOut := t.txOut, sent := t.sent, rxArmed := t.rxArmed,
        rxCnt := t.rxCnt, timeoutIpending := t.timeoutIpending } ∧
      (¬(s.txArmed = true ∧ s.txCnt = 1) →
        t = { s with
          txCnt := if s.txArmed then s.txCnt - 1 else s.txCnt, rxArmed := t.rxArmed, rxCnt := t.rxCnt,
          timeoutIpending := t.timeoutIpending }) ∧
      (s.txArmed = true → s.txCnt = 1 → s.txf.contents s.cfg.fifoDepth = [] →
        t = { s with
          txArmed := false, txCnt := 0, tsrFull := false, lsrThre := true, lsrTemt := true, thrIpending := true,
          rxArmed := t.rxArmed, rxCnt := t.rxCnt, timeoutIpending := t.timeoutIpending }) ∧
      (s.txArmed = true → s.txCnt = 1 → ∀ (b : Byte) (rest : List Byte), s.txf.contents s.cfg.fifoDepth = b :: rest →
        t.txf.contents s.cfg.fifoDepth = rest ∧
        t = { s with
          txArmed := true, txCnt := s.charTicks, tsr := b, tsrFull := true, txf := t.txf, txOut := some b,
          sent := s.sent ++ [b], rxArmed := t.rxArmed, rxCnt := t.rxCnt, timeoutIpending := t.timeoutIpending }) ∧
      (s.rxArmed = true ∧ s.rxCnt = 1 → t.rxArmed = false ∧ t.rxCnt = 0 ∧ t.timeoutIpending = true) ∧
      (¬(s.rxArmed = true ∧ s.rxCnt = 1) →
        t.rxArmed = s.rxArmed ∧ t.rxCnt = (if s.rxArmed then s.rxCnt - 1 else s.rxCnt) ∧
        t.timeoutIpending = s.timeoutIpending)

/-- R166 (second test), R164, R183 (the spec's decisions D14, D15, D22): a transmit expiry that loops a byte back puts it
in the receive FIFO without sending it; a timeout timer restarted by it neither fires in this `TICK` nor loses a tick. -/
def Obligations.TickInLoopbackRestartsTheTimeout : Prop :=
  ∀ (s : State) (b : Byte) (rest : List Byte), s.cfg.Valid → s.txf.Wf s.cfg.fifoDepth → s.rxf.Wf s.cfg.fifoDepth →
    s.loop = true → s.txArmed = true → s.txCnt = 1 → s.txf.contents s.cfg.fifoDepth = b :: rest →
    ∃ t : State, exec .tick s = .next t ∧
      t = { s with
        txArmed := true, txCnt := s.charTicks, tsr := b, tsrFull := true, txf := t.txf, rxf := t.rxf, lsrOe := t.lsrOe,
        rxArmed := t.rxArmed, rxCnt := t.rxCnt } ∧
      t.txf.contents s.cfg.fifoDepth = rest ∧
      (s.rxf.count < s.ceff →
        t.rxf.contents s.cfg.fifoDepth = s.rxf.contents s.cfg.fifoDepth ++ [b] ∧ t.lsrOe = s.lsrOe) ∧
      (s.ceff ≤ s.rxf.count → t.rxf = s.rxf ∧ t.lsrOe = true) ∧
      t.TimerInLine (if s.rxArmed then s.rxCnt - 1 else s.rxCnt)

/-- R161, R160, R162 (the frame and the prescaler are the spec's decisions D12, D13) and the ranges R172 derives: the
character time as a product, a stored divisor of 0 timed as 1. -/
def Obligations.CharacterTimeAndItsRange : Prop :=
  ∀ s : State,
    s.charTicks =
      (1 + (5 + s.lcr.toNat % 4) + (s.lcr.toNat / 8) % 2 + (1 + (s.lcr.toNat / 4) % 2)) * s.cfg.prescale *
        max 1 s.dl.toNat ∧
    7 * s.cfg.prescale ≤ s.charTicks ∧ s.charTicks ≤ 12 * s.cfg.prescale * 65535 ∧
    (s.cfg.Valid → 1 ≤ s.charTicks ∧ 1 ≤ s.timeoutTicks)

/-- R169: no write of the divisor or of line control touches a running timer, and "the new `char_ticks()` is used by the
next arming". Whatever event happens but `RST`, a timer is loaded only by the events that arm it, and then with the
character time in force; in every other event its count stays, or loses one tick in a `TICK` while it runs. Which events
arm is the spec's decisions D14, D15 and D17. -/
def Obligations.RunningTimersAreNeverRescaled : Prop :=
  (∀ (v : Byte) (i : Instr) (s t : State), i = .wrDll v ∨ i = .wrDlm v ∨ i = .wrLcr v → exec i s = .next t →
    t.txArmed = s.txArmed ∧ t.txCnt = s.txCnt ∧ t.rxArmed = s.rxArmed ∧ t.rxCnt = s.rxCnt) ∧
  (∀ (i : Instr) (s t : State), i ≠ .rst → exec i s = .next t →
    (s.cfg.Valid → s.promotes i → t.txArmed = true ∧ t.txCnt = s.charTicks) ∧
    (¬s.promotes i → t.txCnt = countAfter i s.txArmed s.txCnt ∧
      (t.txArmed = true ↔ s.txArmed = true ∧ ¬(i = .tick ∧ s.txCnt = 1))) ∧
    (s.cfg.Valid → s.restartsTimeout i →
      t.TimerInLine (countAfter i s.rxArmed s.rxCnt) ∧ t.charTicks = s.charTicks) ∧
    (¬s.restartsTimeout i → t.rxCnt = countAfter i s.rxArmed s.rxCnt ∧
      (t.rxArmed = true ↔ s.rxArmed = true ∧ ¬(i = .tick ∧ s.rxCnt = 1))))

/-- R165, R166, R167 (the spec's decision D14), over a run of `TICK`s: a transmit timer armed with count `n` expires in
the `n`-th `TICK` and no earlier; until then nothing is sent; in it the oldest queued byte is sent and the timer loaded
with `char_ticks()`, or the drained transmitter is reported. -/
def Obligations.TransmitPacing : Prop :=
  ∀ (s : State) (rest : List Word), s.txf.Wf s.cfg.fifoDepth → s.loop = false → s.txArmed = true → 1 ≤ s.txCnt →
    s.stim = List.replicate s.txCnt 0x3000#16 ++ rest →
    (∀ k < s.txCnt, ∃ t : State, core.run k s = .next t ∧ t.txArmed = true ∧ t.txCnt = s.txCnt - k ∧
      t.sent = s.sent ∧ t.tsrFull = s.tsrFull ∧ t.txf = s.txf) ∧
    (∃ t : State, core.run s.txCnt s = .next t ∧ t.stim = rest ∧
      (s.txf.contents s.cfg.fifoDepth = [] →
        t.txArmed = false ∧ t.tsrFull = false ∧ t.lsrThre = true ∧ t.lsrTemt = true ∧ t.thrIpending = true ∧
        t.sent = s.sent) ∧
      (∀ (b : Byte) (bs : List Byte), s.txf.contents s.cfg.fifoDepth = b :: bs →
        t.txArmed = true ∧ t.txCnt = s.charTicks ∧ t.tsr = b ∧ t.tsrFull = true ∧
        t.txf.contents s.cfg.fifoDepth = bs ∧ t.sent = s.sent ++ [b] ∧ t.txOut = some b))

/-- R168, R166, R202 (the spec's decision D14), over a run of `TICK`s outside loopback: a timeout timer armed with count
`n` raises its pending flag in the `n`-th `TICK` and no earlier. -/
def Obligations.ReceiveTimeoutAfterItsCount : Prop :=
  ∀ (s : State) (rest : List Word), s.loop = false → s.rxArmed = true → 1 ≤ s.rxCnt →
    s.stim = List.replicate s.rxCnt 0x3000#16 ++ rest →
    (∀ k < s.rxCnt, ∃ t : State, core.run k s = .next t ∧ t.rxArmed = true ∧ t.rxCnt = s.rxCnt - k ∧
      t.timeoutIpending = s.timeoutIpending ∧ t.rxf = s.rxf) ∧
    (∃ t : State, core.run s.rxCnt s = .next t ∧ t.stim = rest ∧ t.rxArmed = false ∧ t.timeoutIpending = true ∧
      t.rxf = s.rxf ∧ (s.ier.getLsbD 0 = true → t.irq = true))

/-! ### Reset -/

/-- R230 (its numbers are the spec's decision D24): `RST` gives every register its reset value in every state, leaves the
FIFO data arrays as they are, and takes back nothing that was sent; which of the model's own fields survive is the
model's choice (log entries 2 and 4). -/
def Obligations.ResetEventRestoresResetValues : Prop :=
  ∀ s : State, exec .rst s = .next
    { State.resetOf s.cfg with
      rxf := { data := s.rxf.data, head := 0, tail := 0, count := 0 }
      txf := { data := s.txf.data, head := 0, tail := 0, count := 0 }
      stim := s.stim, rdata := s.rdata, txOut := s.txOut, sent := s.sent }

/-- R20, R230 (the numbers are the spec's decision D24 and R7's defaults): what the derived values read right after
reset. -/
def Obligations.DerivedValuesAfterReset : Prop :=
  State.reset.lsr = 0x60#8 ∧ State.reset.iir = 0x01#8 ∧ State.reset.irq = false ∧ State.reset.charTicks = 1344 ∧
  State.reset.dl = 0x000C#16 ∧ exec .rst State.reset = .next State.reset

/-! ### The arbiter -/

/-- R201 to R204, R206 (the level output is the spec's decision D28): the interrupt output is 1 exactly when some source
is enabled and pending. -/
def Obligations.IrqIsSomeEnabledPendingSource : Prop :=
  ∀ s : State, s.irq = true ↔
    (s.ier.getLsbD 2 = true ∧ (s.lsrOe = true ∨ s.lsrPe = true ∨ s.lsrFe = true ∨ s.lsrBi = true)) ∨
    (s.ier.getLsbD 0 = true ∧ (s.trigEff ≤ s.rxf.count ∨ s.timeoutIpending = true)) ∨
    (s.ier.getLsbD 1 = true ∧ s.thrIpending = true) ∨
    (s.ier.getLsbD 3 = true ∧ s.msr.toNat % 16 ≠ 0)

/-- R205 with R206: "Bit 0 is 0 exactly when `irq() = 1`"; bits 7:6 copy `fcr.FIFOEN` and bits 5:4 read 0 (the spec's
decision D8). -/
def Obligations.IirFrameFollowsTheState : Prop :=
  ∀ s : State, s.iir.getLsbD 0 = !s.irq ∧ s.iir.getLsbD 6 = s.fifoen ∧ s.iir.getLsbD 7 = s.fifoen ∧
    s.iir.getLsbD 4 = false ∧ s.iir.getLsbD 5 = false

/-- R205, R207, R87 (the codes are the spec's decision D8): bits 3:1 show the highest-priority active source, the level
code before the timeout code. -/
def Obligations.IirShowsTheHighestPrioritySource : Prop :=
  ∀ s : State,
    (s.rlsActive = true → s.iir &&& 0x0F#8 = 0x06#8) ∧
    (s.rlsActive = false → s.rdaActive = true → s.trigEff ≤ s.rxf.count → s.iir &&& 0x0F#8 = 0x04#8) ∧
    (s.rlsActive = false → s.rdaActive = true → s.rxf.count < s.trigEff → s.iir &&& 0x0F#8 = 0x0C#8) ∧
    (s.rlsActive = false → s.rdaActive = false → s.threActive = true → s.iir &&& 0x0F#8 = 0x02#8) ∧
    (s.rlsActive = false → s.rdaActive = false → s.threActive = false → s.msActive = true →
      s.iir &&& 0x0F#8 = 0x00#8) ∧
    (s.irq = false → s.iir &&& 0x0F#8 = 0x01#8)

/-- R87, R205 with R46: in a state that meets the invariant the identification value is one of the table's eleven, and
the timeout code appears in FIFO mode only. -/
def Obligations.IirIsATableValue : Prop :=
  ∀ s : State, s.Inv →
    (s.fifoen = false → s.iir ∈ [0x06#8, 0x04#8, 0x02#8, 0x00#8, 0x01#8]) ∧
    (s.fifoen = true → s.iir ∈ [0xC6#8, 0xC4#8, 0xCC#8, 0xC2#8, 0xC0#8, 0xC1#8])

/-! ### Rules about the whole machine -/

/-- R200, R30: the four error bits are cleared together by `RD_LSR` and by `RST`, "by nothing else". -/
def Obligations.ErrorBitsAreSticky : Prop :=
  ∀ (i : Instr) (s t : State), exec i s = .next t →
    (i = .rdLsr ∨ i = .rst → t.lsrOe = false ∧ t.lsrPe = false ∧ t.lsrFe = false ∧ t.lsrBi = false) ∧
    (i ≠ .rdLsr → i ≠ .rst →
      (s.lsrOe = true → t.lsrOe = true) ∧ (s.lsrPe = true → t.lsrPe = true) ∧ (s.lsrFe = true → t.lsrFe = true) ∧
      (s.lsrBi = true → t.lsrBi = true))

/-- R200, its table (the three flag inputs are the spec's decision D20, the break edge D21): what each error bit is set
by, and that nothing else sets it. An overrun is an arrival, external or looped back, that finds the receive FIFO full
(for legal parameters an event that promotes has a byte to promote). -/
def Obligations.ErrorBitsAreRaisedByTheirCauseOnly : Prop :=
  ∀ (i : Instr) (s t : State), exec i s = .next t →
    (s.lsrOe = false → t.lsrOe = true → s.receives i ∧ s.ceff ≤ s.rxf.count) ∧
    (s.cfg.Valid → s.receives i → s.ceff ≤ s.rxf.count → t.lsrOe = true) ∧
    (s.lsrPe = false → (t.lsrPe = true ↔ ∃ d fe bi, i = .rxb d true fe bi)) ∧
    (s.lsrFe = false → (t.lsrFe = true ↔ ∃ d pe bi, i = .rxb d pe true bi)) ∧
    (s.lsrBi = false → (t.lsrBi = true ↔ (∃ d pe fe, i = .rxb d pe fe true) ∨
      ∃ v : Byte, i = .wrLcr v ∧ v.getLsbD 6 = true ∧ s.lastBreakEnable = false))

/-- R167, R30 (the fall in `WR_THR` is the spec's decision D17): `THRE` and `TEMT` rise only in a `TICK` that finds the
transmitter drained, and in `RST`; they fall only in `WR_THR`; and the draining `TICK` raises both. -/
def Obligations.TransmitStatusFollowsTheDrain : Prop :=
  ∀ (i : Instr) (s t : State), exec i s = .next t →
    ((s.lsrThre = false ∧ t.lsrThre = true) ∨ (s.lsrTemt = false ∧ t.lsrTemt = true) →
      i = .rst ∨ (i = .tick ∧ s.txArmed = true ∧ s.txCnt = 1 ∧ s.txf.count = 0)) ∧
    ((s.lsrThre = true ∧ t.lsrThre = false) ∨ (s.lsrTemt = true ∧ t.lsrTemt = false) → ∃ v, i = .wrThr v) ∧
    (i = .tick → s.txArmed = true → s.txCnt = 1 → s.txf.count = 0 → t.lsrThre = true ∧ t.lsrTemt = true)

/-- R40, R203: the transmit-pending flag rises only in a `TICK` whose transmit expiry finds the transmit FIFO empty, and
falls only in `RD_IIR`, `WR_THR` and `RST`. -/
def Obligations.TransmitPendingRaisedAndCleared : Prop :=
  ∀ (i : Instr) (s t : State), exec i s = .next t →
    (s.thrIpending = false → t.thrIpending = true →
      i = .tick ∧ s.txArmed = true ∧ s.txCnt = 1 ∧ s.txf.count = 0) ∧
    (s.thrIpending = true → t.thrIpending = false → i = .rdIir ∨ (∃ v, i = .wrThr v) ∨ i = .rst)

/-- R41 (what clears it is the spec's decision D16): the timeout-pending flag rises only in a `TICK` whose timeout timer
is due, and falls only in `RD_RBR`, a receive-FIFO reset and `RST`. -/
def Obligations.TimeoutPendingRaisedAndCleared : Prop :=
  ∀ (i : Instr) (s t : State), exec i s = .next t →
    (s.timeoutIpending = false → t.timeoutIpending = true → i = .tick ∧ s.rxArmed = true ∧ s.rxCnt = 1) ∧
    (s.timeoutIpending = true → t.timeoutIpending = false →
      i = .rdRbr ∨ (∃ v : Byte, i = .wrFcr v ∧ v.getLsbD 1 = true) ∨ i = .rst)

/-- R21 to R25, R27 to R29, R31, R32, R42: each of these registers is written by the operations its rule names and by
`RST` only. (Line status, R30, and the pending flags, R40 and R41, have statements of their own.) -/
def Obligations.RegistersHaveTheirWritersOnly : Prop :=
  ∀ (i : Instr) (s t : State), exec i s = .next t → i ≠ .rst →
    (t.dl ≠ s.dl → ∃ v, i = .wrDll v ∨ i = .wrDlm v) ∧
    (t.rbr ≠ s.rbr → i = .rdRbr) ∧
    (t.thr ≠ s.thr → ∃ v, i = .wrThr v) ∧
    (t.tsr ≠ s.tsr ∨ t.tsrFull ≠ s.tsrFull → (∃ v, i = .wrThr v) ∨ i = .tick) ∧
    (t.ier ≠ s.ier → ∃ v, i = .wrIer v) ∧
    (t.fifoen ≠ s.fifoen ∨ t.rxtrig ≠ s.rxtrig → ∃ v, i = .wrFcr v) ∧
    (t.lcr ≠ s.lcr ∨ t.lastBreakEnable ≠ s.lastBreakEnable → ∃ v, i = .wrLcr v) ∧
    (t.mcr ≠ s.mcr → ∃ v, i = .wrMcr v) ∧
    (t.scr ≠ s.scr → ∃ v, i = .wrScr v) ∧
    (t.msr ≠ s.msr → i = .rdMsr ∨ (∃ v, i = .wrMcr v) ∨ ∃ cts dsr ri dcd, i = .msl cts dsr ri dcd)

/-- R231, R3: no step changes the construction-time parameters, and each takes exactly one event from the queue (the
queue is the model's own, log entry 2). -/
def Obligations.StepKeepsParametersAndTakesOneEvent : Prop :=
  ∀ s t : State, step s = .next t → t.cfg = s.cfg ∧ ∃ w : Word, s.stim = w :: t.stim

/-- R51, R164: an event sends at most one byte, at the end of the output sequence and as its `tx_valid` pulse; nothing
sent is taken back; and in loopback nothing is sent. -/
def Obligations.StepSendsAtMostOneByte : Prop :=
  ∀ s t : State, step s = .next t →
    ((t.txOut = none ∧ t.sent = s.sent) ∨ ∃ b : Byte, t.txOut = some b ∧ t.sent = s.sent ++ [b]) ∧
    (s.mcr.getLsbD 4 = true → t.txOut = none)

/-- R4, R85: a step returns a byte on the bus exactly when its event is a read operation. -/
def Obligations.OnlyReadsReturnAByte : Prop :=
  ∀ (s t : State) (w : Word) (i : Instr), s.stim.head? = some w → decode s.dlab w = .ok i → step s = .next t →
    t.rdata.isSome = i.isRead

/-- R82, R242: while `lcr.DLAB = 1`, bus accesses at offsets 0 and 1 change the divisor latch and nothing else of the
block. -/
def Obligations.BankOneAccessReachesOnlyTheDivisor : Prop :=
  ∀ (s : State) (w : Word) (ws : List Word), s.stim = w :: ws → s.dlab = true → (w >>> 12).toNat = 0 →
    ((w >>> 8) &&& 7#16).toNat ≤ 1 →
    ∃ t : State, step s = .next t ∧ t = { s with stim := ws, rdata := t.rdata, txOut := none, dl := t.dl }

/-- R31, R180, R126: a delta bit, once set, stays until `RD_MSR` or `RST`; a line's recorded state changes only together
with its delta bit. -/
def Obligations.ModemDeltaBitsAreSticky : Prop :=
  ∀ (i : Instr) (s t : State), exec i s = .next t → i ≠ .rst → ∀ k < 4,
    (i ≠ .rdMsr → s.msr.getLsbD k = true → t.msr.getLsbD k = true) ∧
    (t.msr.getLsbD (k + 4) ≠ s.msr.getLsbD (k + 4) → t.msr.getLsbD k = true)

/-! ### Invariants and headline results -/

/-- R46, R35, R230: the state after reset meets the invariant, for every legal parameter record. -/
def Obligations.ResetStateMeetsTheInvariant : Prop :=
  State.reset.Inv ∧ ∀ p : Params, p.Valid → (State.resetOf p).Inv

/-- R35 whole: every step keeps both FIFOs well-formed (`0 ≤ count ≤ C`, indices modulo `C`, `head = (tail + count) mod
C`), and the queued bytes, oldest first, stand at `tail`, `tail + 1`, … modulo `C`. -/
def Obligations.StepKeepsBothFifosWellFormed : Prop :=
  (∀ s t : State, s.cfg.Valid → s.rxf.Wf s.cfg.fifoDepth → s.txf.Wf s.cfg.fifoDepth → step s = .next t →
    t.rxf.Wf t.cfg.fifoDepth ∧ t.txf.Wf t.cfg.fifoDepth) ∧
  ∀ (c : Nat) (f : Fifo), f.Wf c →
    (f.contents c).length = f.count ∧ ∀ k < f.count, (f.contents c)[k]? = f.data[(f.tail + k) % c]?

/-- R46, R35, R185 corner (d), which the spec derives from its rules: every step from a state that meets the invariant
gives one that does. -/
def Obligations.StepKeepsTheInvariant : Prop :=
  ∀ s t : State, s.Inv → step s = .next t → t.Inv

/-- R230, R46: `RST` alone establishes the transmit and receive invariants and the break invariant, from any state whose
FIFO arrays have their size. -/
def Obligations.ResetEventEstablishesTheInvariant : Prop :=
  ∀ s : State, s.cfg.Valid → s.rxf.data.length = s.cfg.fifoDepth → s.txf.data.length = s.cfg.fifoDepth →
    ∃ t : State, exec .rst s = .next t ∧ t.Inv

/-- R23, R24 (the spec's decision D31): no run can show the latches `thr` and `tsr`: two states that differ in nothing
else run alike, with the same outputs. -/
def Obligations.LatchesAreUnobservable : Prop :=
  ∀ (n : Nat) (s s' t : State), s.SameButLatches s' → core.run n s = .next t →
    ∃ t' : State, core.run n s' = .next t' ∧ t.SameButLatches t' ∧ t'.outputs = t.outputs ∧ t'.sent = t.sent

/-- R33, U1 (`93_implementation_defined.md`): no run can show a FIFO entry outside the live range, so the zeros of
`State.reset` (the model's choice, log entry 5) show nowhere. -/
def Obligations.DeadFifoEntriesAreUnobservable : Prop :=
  ∀ (n : Nat) (s s' t : State), s.Inv → s'.Inv → s.SameButDeadEntries s' → core.run n s = .next t →
    ∃ t' : State, core.run n s' = .next t' ∧ t.SameButDeadEntries t' ∧ t'.outputs = t.outputs ∧ t'.sent = t.sent

/-- R50, R51, R212 (the ports are the spec's decision D2, the orders D4; log entry 10): whatever inputs a clock cycle has
and in whichever admitted order its events are applied, the cycle runs to its end and sends at most one byte, so one
`tx_valid` pulse carries it, whichever event of the cycle sent it. The levels are those of the state after the last
event, and the cycle's read returns the byte that `MemRead` gives in the state the events before it left. -/
def Obligations.ClockCycleSendsAtMostOneByte : Prop :=
  ∀ (s : State) (p : Pins) (order : List Source), s.Inv → s.stim = [] → orderAdmitted s.cfg.eventOrder order = true →
    ∃ (o : CycleOutputs) (t : State), clockCycle p order s = .next (o, t) ∧
      core.run (p.events order).length (s.presentCycle p order) = .next t ∧ t.stim = [] ∧
      t.sent = s.sent ++ o.tx ∧ o.tx.length ≤ 1 ∧ (o.txValid = true ↔ t.sent ≠ s.sent) ∧
      o = { o with
        irq := t.irq, dtr := t.mcr.getLsbD 0, rts := t.mcr.getLsbD 1, out1 := t.mcr.getLsbD 2, out2 := t.mcr.getLsbD 3,
        lcrOut := t.lcr } ∧
      (o.rdata.isSome = true ↔ p.rst = false ∧ p.busSel = true ∧ p.busWe = false) ∧
      (p.rst = false → p.busSel = true → p.busWe = false → ∀ before later, order = before ++ Source.bus :: later →
        ∃ u r : State, core.run (p.events before).length (s.presentCycle p before) = .next u ∧
          memRead p.busAddr.toNat 1 u = .next r ∧ o.rdata = r.rdata)
end

