-- ==== Sys2Proof/Laws/Decode.lean ====
section
/-! SUPPORT. Laws/Decode.lean: the fields of a stimulus word against the word itself, and what register selection can
answer (spec/30_encoding.md R80, R81, R89, R93). -/

namespace Sys2Proof

/-- The kind is the word's top four bits. -/
theorem wordKind_toNat (w : Word) : (wordKind w).toNat = (w >>> 12).toNat := by
  simp [wordKind, Nat.shiftRight_eq_div_pow]; omega

/-- The offset field of format B. -/
theorem wordAddr_toNat (w : Word) : (wordAddr w).toNat = ((w >>> 8) &&& 7#16).toNat := by
  simp only [wordAddr, BitVec.extractLsb'_toNat, BitVec.toNat_and, BitVec.toNat_ushiftRight, BitVec.toNat_ofNat]
  exact (Nat.and_two_pow_sub_one_eq_mod _ 3).symm

/-- The must-be-zero bits of format M. -/
theorem wordMslZero_eq_zero (w : Word) : wordMslZero w = 0#8 ↔ w &&& 0x0FF0#16 = 0#16 := by
  constructor <;> intro h
  · refine BitVec.eq_of_getLsbD_eq fun i hi => ?_
    have := congrArg (·.getLsbD (i - 4)) h
    interval_cases i <;> simp at this ⊢ <;> simpa [wordMslZero] using this
  · refine BitVec.eq_of_getLsbD_eq fun i hi => ?_
    have := congrArg (·.getLsbD (4 + i)) h
    interval_cases i <;> simpa [wordMslZero] using this

/-- The must-be-zero bits of format T. -/
theorem wordLow12_eq_zero (w : Word) : wordLow12 w = 0#12 ↔ w &&& 0x0FFF#16 = 0#16 := by
  constructor <;> intro h
  · refine BitVec.eq_of_getLsbD_eq fun i hi => ?_
    have := congrArg (·.getLsbD i) h
    interval_cases i <;> simp at this ⊢ <;> simpa [wordLow12] using this
  · refine BitVec.eq_of_getLsbD_eq fun i hi => ?_
    have := congrArg (·.getLsbD i) h
    interval_cases i <;> simpa [wordLow12] using this

/-- The four bits of the kind, as bits of the word. -/
theorem wordKind_bit {w : Word} {n : BitVec 4} (h : wordKind w = n) (k : Nat) (hk : k < 4) :
    w.getLsbD (12 + k) = n.getLsbD k := by
  have := congrArg (·.getLsbD k) h
  simpa [wordKind, hk] using this

/-- A format-B word is its fields. -/
theorem busWord_fields {w : Word} (h : wordKind w = 0#4) : busWord (wordWe w) (wordAddr w) (wordByte w) = w := by
  have h0 := wordKind_bit h 0 (by omega)
  have h1 := wordKind_bit h 1 (by omega)
  have h2 := wordKind_bit h 2 (by omega)
  have h3 := wordKind_bit h 3 (by omega)
  refine BitVec.eq_of_getLsbD_eq fun i hi => ?_
  interval_cases i <;> simp_all [wordWe, wordAddr, wordByte, busWord, byteBits, addrBits, flagBits]

/-- A read is spelled with a zero data byte. -/
theorem busWord_zero_byte (we : Bool) (a : BitVec 3) (v : Byte) : busWord we a 0#8 = busWord we a v &&& 0xFF00#16 := by
  refine BitVec.eq_of_getLsbD_eq fun i hi => ?_
  interval_cases i <;> simp [busWord, byteBits, addrBits, flagBits]

/-- Register selection asserts the bank in force (R81). -/
theorem selectBus_wf (dlab we : Bool) (a : BitVec 3) (v : Byte) : (selectBus dlab we a v).wf dlab = true := by
  revert a v; cases dlab <;> cases we <;> intro a v <;> unfold selectBus <;> split <;> simp_all <;> rfl

/-- Register selection keeps the direction (R81). -/
theorem selectBus_isRead (dlab we : Bool) (a : BitVec 3) (v : Byte) : (selectBus dlab we a v).isRead = !we := by
  unfold selectBus; split <;> rfl

/-- Register selection keeps offset, direction and written byte (R81, R83). -/
theorem encode_selectBus (dlab we : Bool) (a : BitVec 3) (v : Byte) :
    encode (selectBus dlab we a v) = busWord we a (if we then v else 0#8) := by
  have ha : a = BitVec.ofFin a.toFin := rfl
  unfold selectBus
  split <;> rw [ha] <;> simp_all <;> rfl

/-- Every format-B word is an event: the one R81 selects (R89). -/
theorem decode_busWord (dlab we : Bool) (a : BitVec 3) (v : Byte) :
    decode dlab (busWord we a v) = .ok (selectBus dlab we a v) := by
  have h1 : wordKind (busWord we a v) = 0#4 := by
    refine BitVec.eq_of_getLsbD_eq fun i hi => ?_
    interval_cases i <;> simp [wordKind, busWord, byteBits, addrBits, flagBits]
  have h2 : wordWe (busWord we a v) = we := by simp [wordWe, busWord, byteBits, addrBits, flagBits]
  have h3 : wordAddr (busWord we a v) = a := by
    refine BitVec.eq_of_getLsbD_eq fun i hi => ?_
    interval_cases i <;> simp [wordAddr, busWord, byteBits, addrBits, flagBits]
  have h4 : wordByte (busWord we a v) = v := by
    refine BitVec.eq_of_getLsbD_eq fun i hi => ?_
    interval_cases i <;> simp [wordByte, busWord, byteBits, addrBits, flagBits]
  simp [decode, h1, h2, h3, h4]

end Sys2Proof
end

