-- ==== Sys2Proof/Laws/State.lean ====
section
/-! SUPPORT. Laws/State.lean: what each named update of the state leaves in each field, one lemma per field per update
(and per selector that the update does not touch), all true by rfl, so that no later proof unfolds a record update. -/

namespace Sys2Proof.Machine

variable (s : State)

/-! ### `clearOutputs` -/

@[simp] theorem State.clearOutputs_ceff : s.clearOutputs.ceff = s.ceff := rfl
@[simp] theorem State.clearOutputs_trigEff : s.clearOutputs.trigEff = s.trigEff := rfl
@[simp] theorem State.clearOutputs_loop : s.clearOutputs.loop = s.loop := rfl
@[simp] theorem State.clearOutputs_dlab : s.clearOutputs.dlab = s.dlab := rfl
@[simp] theorem State.clearOutputs_brk : s.clearOutputs.brk = s.brk := rfl
@[simp] theorem State.clearOutputs_charTicks : s.clearOutputs.charTicks = s.charTicks := rfl
@[simp] theorem State.clearOutputs_cfg : s.clearOutputs.cfg = s.cfg := rfl
@[simp] theorem State.clearOutputs_dl : s.clearOutputs.dl = s.dl := rfl
@[simp] theorem State.clearOutputs_rbr : s.clearOutputs.rbr = s.rbr := rfl
@[simp] theorem State.clearOutputs_thr : s.clearOutputs.thr = s.thr := rfl
@[simp] theorem State.clearOutputs_tsr : s.clearOutputs.tsr = s.tsr := rfl
@[simp] theorem State.clearOutputs_tsrFull : s.clearOutputs.tsrFull = s.tsrFull := rfl
@[simp] theorem State.clearOutputs_ier : s.clearOutputs.ier = s.ier := rfl
@[simp] theorem State.clearOutputs_fifoen : s.clearOutputs.fifoen = s.fifoen := rfl
@[simp] theorem State.clearOutputs_rxtrig : s.clearOutputs.rxtrig = s.rxtrig := rfl
@[simp] theorem State.clearOutputs_lcr : s.clearOutputs.lcr = s.lcr := rfl
@[simp] theorem State.clearOutputs_mcr : s.clearOutputs.mcr = s.mcr := rfl
@[simp] theorem State.clearOutputs_lsrOe : s.clearOutputs.lsrOe = s.lsrOe := rfl
@[simp] theorem State.clearOutputs_lsrPe : s.clearOutputs.lsrPe = s.lsrPe := rfl
@[simp] theorem State.clearOutputs_lsrFe : s.clearOutputs.lsrFe = s.lsrFe := rfl
@[simp] theorem State.clearOutputs_lsrBi : s.clearOutputs.lsrBi = s.lsrBi := rfl
@[simp] theorem State.clearOutputs_lsrThre : s.clearOutputs.lsrThre = s.lsrThre := rfl
@[simp] theorem State.clearOutputs_lsrTemt : s.clearOutputs.lsrTemt = s.lsrTemt := rfl
@[simp] theorem State.clearOutputs_msr : s.clearOutputs.msr = s.msr := rfl
@[simp] theorem State.clearOutputs_scr : s.clearOutputs.scr = s.scr := rfl
@[simp] theorem State.clearOutputs_rxf : s.clearOutputs.rxf = s.rxf := rfl
@[simp] theorem State.clearOutputs_txf : s.clearOutputs.txf = s.txf := rfl
@[simp] theorem State.clearOutputs_thrIpending : s.clearOutputs.thrIpending = s.thrIpending := rfl
@[simp] theorem State.clearOutputs_timeoutIpending : s.clearOutputs.timeoutIpending = s.timeoutIpending := rfl
@[simp] theorem State.clearOutputs_lastBreakEnable : s.clearOutputs.lastBreakEnable = s.lastBreakEnable := rfl
@[simp] theorem State.clearOutputs_txArmed : s.clearOutputs.txArmed = s.txArmed := rfl
@[simp] theorem State.clearOutputs_txCnt : s.clearOutputs.txCnt = s.txCnt := rfl
@[simp] theorem State.clearOutputs_rxArmed : s.clearOutputs.rxArmed = s.rxArmed := rfl
@[simp] theorem State.clearOutputs_rxCnt : s.clearOutputs.rxCnt = s.rxCnt := rfl
@[simp] theorem State.clearOutputs_stim : s.clearOutputs.stim = s.stim := rfl
@[simp] theorem State.clearOutputs_rdata : s.clearOutputs.rdata = none := rfl
@[simp] theorem State.clearOutputs_txOut : s.clearOutputs.txOut = none := rfl
@[simp] theorem State.clearOutputs_sent : s.clearOutputs.sent = s.sent := rfl

/-! ### `reply` -/

@[simp] theorem State.reply_ceff (b : Byte) : (s.reply b).ceff = s.ceff := rfl
@[simp] theorem State.reply_trigEff (b : Byte) : (s.reply b).trigEff = s.trigEff := rfl
@[simp] theorem State.reply_loop (b : Byte) : (s.reply b).loop = s.loop := rfl
@[simp] theorem State.reply_dlab (b : Byte) : (s.reply b).dlab = s.dlab := rfl
@[simp] theorem State.reply_brk (b : Byte) : (s.reply b).brk = s.brk := rfl
@[simp] theorem State.reply_charTicks (b : Byte) : (s.reply b).charTicks = s.charTicks := rfl
@[simp] theorem State.reply_cfg (b : Byte) : (s.reply b).cfg = s.cfg := rfl
@[simp] theorem State.reply_dl (b : Byte) : (s.reply b).dl = s.dl := rfl
@[simp] theorem State.reply_rbr (b : Byte) : (s.reply b).rbr = s.rbr := rfl
@[simp] theorem State.reply_thr (b : Byte) : (s.reply b).thr = s.thr := rfl
@[simp] theorem State.reply_tsr (b : Byte) : (s.reply b).tsr = s.tsr := rfl
@[simp] theorem State.reply_tsrFull (b : Byte) : (s.reply b).tsrFull = s.tsrFull := rfl
@[simp] theorem State.reply_ier (b : Byte) : (s.reply b).ier = s.ier := rfl
@[simp] theorem State.reply_fifoen (b : Byte) : (s.reply b).fifoen = s.fifoen := rfl
@[simp] theorem State.reply_rxtrig (b : Byte) : (s.reply b).rxtrig = s.rxtrig := rfl
@[simp] theorem State.reply_lcr (b : Byte) : (s.reply b).lcr = s.lcr := rfl
@[simp] theorem State.reply_mcr (b : Byte) : (s.reply b).mcr = s.mcr := rfl
@[simp] theorem State.reply_lsrOe (b : Byte) : (s.reply b).lsrOe = s.lsrOe := rfl
@[simp] theorem State.reply_lsrPe (b : Byte) : (s.reply b).lsrPe = s.lsrPe := rfl
@[simp] theorem State.reply_lsrFe (b : Byte) : (s.reply b).lsrFe = s.lsrFe := rfl
@[simp] theorem State.reply_lsrBi (b : Byte) : (s.reply b).lsrBi = s.lsrBi := rfl
@[simp] theorem State.reply_lsrThre (b : Byte) : (s.reply b).lsrThre = s.lsrThre := rfl
@[simp] theorem State.reply_lsrTemt (b : Byte) : (s.reply b).lsrTemt = s.lsrTemt := rfl
@[simp] theorem State.reply_msr (b : Byte) : (s.reply b).msr = s.msr := rfl
@[simp] theorem State.reply_scr (b : Byte) : (s.reply b).scr = s.scr := rfl
@[simp] theorem State.reply_rxf (b : Byte) : (s.reply b).rxf = s.rxf := rfl
@[simp] theorem State.reply_txf (b : Byte) : (s.reply b).txf = s.txf := rfl
@[simp] theorem State.reply_thrIpending (b : Byte) : (s.reply b).thrIpending = s.thrIpending := rfl
@[simp] theorem State.reply_timeoutIpending (b : Byte) : (s.reply b).timeoutIpending = s.timeoutIpending := rfl
@[simp] theorem State.reply_lastBreakEnable (b : Byte) : (s.reply b).lastBreakEnable = s.lastBreakEnable := rfl
@[simp] theorem State.reply_txArmed (b : Byte) : (s.reply b).txArmed = s.txArmed := rfl
@[simp] theorem State.reply_txCnt (b : Byte) : (s.reply b).txCnt = s.txCnt := rfl
@[simp] theorem State.reply_rxArmed (b : Byte) : (s.reply b).rxArmed = s.rxArmed := rfl
@[simp] theorem State.reply_rxCnt (b : Byte) : (s.reply b).rxCnt = s.rxCnt := rfl
@[simp] theorem State.reply_stim (b : Byte) : (s.reply b).stim = s.stim := rfl
@[simp] theorem State.reply_rdata (b : Byte) : (s.reply b).rdata = some b := rfl
@[simp] theorem State.reply_txOut (b : Byte) : (s.reply b).txOut = s.txOut := rfl
@[simp] theorem State.reply_sent (b : Byte) : (s.reply b).sent = s.sent := rfl

/-! ### `send` -/

@[simp] theorem State.send_ceff (b : Byte) : (s.send b).ceff = s.ceff := rfl
@[simp] theorem State.send_trigEff (b : Byte) : (s.send b).trigEff = s.trigEff := rfl
@[simp] theorem State.send_loop (b : Byte) : (s.send b).loop = s.loop := rfl
@[simp] theorem State.send_dlab (b : Byte) : (s.send b).dlab = s.dlab := rfl
@[simp] theorem State.send_brk (b : Byte) : (s.send b).brk = s.brk := rfl
@[simp] theorem State.send_charTicks (b : Byte) : (s.send b).charTicks = s.charTicks := rfl
@[simp] theorem State.send_cfg (b : Byte) : (s.send b).cfg = s.cfg := rfl
@[simp] theorem State.send_dl (b : Byte) : (s.send b).dl = s.dl := rfl
@[simp] theorem State.send_rbr (b : Byte) : (s.send b).rbr = s.rbr := rfl
@[simp] theorem State.send_thr (b : Byte) : (s.send b).thr = s.thr := rfl
@[simp] theorem State.send_tsr (b : Byte) : (s.send b).tsr = s.tsr := rfl
@[simp] theorem State.send_tsrFull (b : Byte) : (s.send b).tsrFull = s.tsrFull := rfl
@[simp] theorem State.send_ier (b : Byte) : (s.send b).ier = s.ier := rfl
@[simp] theorem State.send_fifoen (b : Byte) : (s.send b).fifoen = s.fifoen := rfl
@[simp] theorem State.send_rxtrig (b : Byte) : (s.send b).rxtrig = s.rxtrig := rfl
@[simp] theorem State.send_lcr (b : Byte) : (s.send b).lcr = s.lcr := rfl
@[simp] theorem State.send_mcr (b : Byte) : (s.send b).mcr = s.mcr := rfl
@[simp] theorem State.send_lsrOe (b : Byte) : (s.send b).lsrOe = s.lsrOe := rfl
@[simp] theorem State.send_lsrPe (b : Byte) : (s.send b).lsrPe = s.lsrPe := rfl
@[simp] theorem State.send_lsrFe (b : Byte) : (s.send b).lsrFe = s.lsrFe := rfl
@[simp] theorem State.send_lsrBi (b : Byte) : (s.send b).lsrBi = s.lsrBi := rfl
@[simp] theorem State.send_lsrThre (b : Byte) : (s.send b).lsrThre = s.lsrThre := rfl
@[simp] theorem State.send_lsrTemt (b : Byte) : (s.send b).lsrTemt = s.lsrTemt := rfl
@[simp] theorem State.send_msr (b : Byte) : (s.send b).msr = s.msr := rfl
@[simp] theorem State.send_scr (b : Byte) : (s.send b).scr = s.scr := rfl
@[simp] theorem State.send_rxf (b : Byte) : (s.send b).rxf = s.rxf := rfl
@[simp] theorem State.send_txf (b : Byte) : (s.send b).txf = s.txf := rfl
@[simp] theorem State.send_thrIpending (b : Byte) : (s.send b).thrIpending = s.thrIpending := rfl
@[simp] theorem State.send_timeoutIpending (b : Byte) : (s.send b).timeoutIpending = s.timeoutIpending := rfl
@[simp] theorem State.send_lastBreakEnable (b : Byte) : (s.send b).lastBreakEnable = s.lastBreakEnable := rfl
@[simp] theorem State.send_txArmed (b : Byte) : (s.send b).txArmed = s.txArmed := rfl
@[simp] theorem State.send_txCnt (b : Byte) : (s.send b).txCnt = s.txCnt := rfl
@[simp] theorem State.send_rxArmed (b : Byte) : (s.send b).rxArmed = s.rxArmed := rfl
@[simp] theorem State.send_rxCnt (b : Byte) : (s.send b).rxCnt = s.rxCnt := rfl
@[simp] theorem State.send_stim (b : Byte) : (s.send b).stim = s.stim := rfl
@[simp] theorem State.send_rdata (b : Byte) : (s.send b).rdata = s.rdata := rfl
@[simp] theorem State.send_txOut (b : Byte) : (s.send b).txOut = some b := rfl
@[simp] theorem State.send_sent (b : Byte) : (s.send b).sent = s.sent ++ [b] := rfl

/-! ### `rxtoRestart` -/

@[simp] theorem State.rxtoRestart_ceff : s.rxtoRestart.ceff = s.ceff := rfl
@[simp] theorem State.rxtoRestart_trigEff : s.rxtoRestart.trigEff = s.trigEff := rfl
@[simp] theorem State.rxtoRestart_loop : s.rxtoRestart.loop = s.loop := rfl
@[simp] theorem State.rxtoRestart_dlab : s.rxtoRestart.dlab = s.dlab := rfl
@[simp] theorem State.rxtoRestart_brk : s.rxtoRestart.brk = s.brk := rfl
@[simp] theorem State.rxtoRestart_charTicks : s.rxtoRestart.charTicks = s.charTicks := rfl
@[simp] theorem State.rxtoRestart_cfg : s.rxtoRestart.cfg = s.cfg := rfl
@[simp] theorem State.rxtoRestart_dl : s.rxtoRestart.dl = s.dl := rfl
@[simp] theorem State.rxtoRestart_rbr : s.rxtoRestart.rbr = s.rbr := rfl
@[simp] theorem State.rxtoRestart_thr : s.rxtoRestart.thr = s.thr := rfl
@[simp] theorem State.rxtoRestart_tsr : s.rxtoRestart.tsr = s.tsr := rfl
@[simp] theorem State.rxtoRestart_tsrFull : s.rxtoRestart.tsrFull = s.tsrFull := rfl
@[simp] theorem State.rxtoRestart_ier : s.rxtoRestart.ier = s.ier := rfl
@[simp] theorem State.rxtoRestart_fifoen : s.rxtoRestart.fifoen = s.fifoen := rfl
@[simp] theorem State.rxtoRestart_rxtrig : s.rxtoRestart.rxtrig = s.rxtrig := rfl
@[simp] theorem State.rxtoRestart_lcr : s.rxtoRestart.lcr = s.lcr := rfl
@[simp] theorem State.rxtoRestart_mcr : s.rxtoRestart.mcr = s.mcr := rfl
@[simp] theorem State.rxtoRestart_lsrOe : s.rxtoRestart.lsrOe = s.lsrOe := rfl
@[simp] theorem State.rxtoRestart_lsrPe : s.rxtoRestart.lsrPe = s.lsrPe := rfl
@[simp] theorem State.rxtoRestart_lsrFe : s.rxtoRestart.lsrFe = s.lsrFe := rfl
@[simp] theorem State.rxtoRestart_lsrBi : s.rxtoRestart.lsrBi = s.lsrBi := rfl
@[simp] theorem State.rxtoRestart_lsrThre : s.rxtoRestart.lsrThre = s.lsrThre := rfl
@[simp] theorem State.rxtoRestart_lsrTemt : s.rxtoRestart.lsrTemt = s.lsrTemt := rfl
@[simp] theorem State.rxtoRestart_msr : s.rxtoRestart.msr = s.msr := rfl
@[simp] theorem State.rxtoRestart_scr : s.rxtoRestart.scr = s.scr := rfl
@[simp] theorem State.rxtoRestart_rxf : s.rxtoRestart.rxf = s.rxf := rfl
@[simp] theorem State.rxtoRestart_txf : s.rxtoRestart.txf = s.txf := rfl
@[simp] theorem State.rxtoRestart_thrIpending : s.rxtoRestart.thrIpending = s.thrIpending := rfl
@[simp] theorem State.rxtoRestart_timeoutIpending : s.rxtoRestart.timeoutIpending = s.timeoutIpending := rfl
@[simp] theorem State.rxtoRestart_lastBreakEnable : s.rxtoRestart.lastBreakEnable = s.lastBreakEnable := rfl
@[simp] theorem State.rxtoRestart_txArmed : s.rxtoRestart.txArmed = s.txArmed := rfl
@[simp] theorem State.rxtoRestart_txCnt : s.rxtoRestart.txCnt = s.txCnt := rfl
@[simp] theorem State.rxtoRestart_rxArmed : s.rxtoRestart.rxArmed = s.rxtoWanted := rfl
@[simp] theorem State.rxtoRestart_rxCnt : s.rxtoRestart.rxCnt = if s.rxtoWanted then s.timeoutTicks else s.rxCnt := rfl
@[simp] theorem State.rxtoRestart_stim : s.rxtoRestart.stim = s.stim := rfl
@[simp] theorem State.rxtoRestart_rdata : s.rxtoRestart.rdata = s.rdata := rfl
@[simp] theorem State.rxtoRestart_txOut : s.rxtoRestart.txOut = s.txOut := rfl
@[simp] theorem State.rxtoRestart_sent : s.rxtoRestart.sent = s.sent := rfl

/-! ### `rxStore` -/

@[simp] theorem State.rxStore_ceff (d : Byte) (pe fe bi : Bool) : (s.rxStore d pe fe bi).ceff = s.ceff := rfl
@[simp] theorem State.rxStore_trigEff (d : Byte) (pe fe bi : Bool) : (s.rxStore d pe fe bi).trigEff = s.trigEff := rfl
@[simp] theorem State.rxStore_loop (d : Byte) (pe fe bi : Bool) : (s.rxStore d pe fe bi).loop = s.loop := rfl
@[simp] theorem State.rxStore_dlab (d : Byte) (pe fe bi : Bool) : (s.rxStore d pe fe bi).dlab = s.dlab := rfl
@[simp] theorem State.rxStore_brk (d : Byte) (pe fe bi : Bool) : (s.rxStore d pe fe bi).brk = s.brk := rfl
@[simp] theorem State.rxStore_charTicks (d : Byte) (pe fe bi : Bool) : (s.rxStore d pe fe bi).charTicks = s.charTicks := rfl
@[simp] theorem State.rxStore_cfg (d : Byte) (pe fe bi : Bool) : (s.rxStore d pe fe bi).cfg = s.cfg := rfl
@[simp] theorem State.rxStore_dl (d : Byte) (pe fe bi : Bool) : (s.rxStore d pe fe bi).dl = s.dl := rfl
@[simp] theorem State.rxStore_rbr (d : Byte) (pe fe bi : Bool) : (s.rxStore d pe fe bi).rbr = s.rbr := rfl
@[simp] theorem State.rxStore_thr (d : Byte) (pe fe bi : Bool) : (s.rxStore d pe fe bi).thr = s.thr := rfl
@[simp] theorem State.rxStore_tsr (d : Byte) (pe fe bi : Bool) : (s.rxStore d pe fe bi).tsr = s.tsr := rfl
@[simp] theorem State.rxStore_tsrFull (d : Byte) (pe fe bi : Bool) : (s.rxStore d pe fe bi).tsrFull = s.tsrFull := rfl
@[simp] theorem State.rxStore_ier (d : Byte) (pe fe bi : Bool) : (s.rxStore d pe fe bi).ier = s.ier := rfl
@[simp] theorem State.rxStore_fifoen (d : Byte) (pe fe bi : Bool) : (s.rxStore d pe fe bi).fifoen = s.fifoen := rfl
@[simp] theorem State.rxStore_rxtrig (d : Byte) (pe fe bi : Bool) : (s.rxStore d pe fe bi).rxtrig = s.rxtrig := rfl
@[simp] theorem State.rxStore_lcr (d : Byte) (pe fe bi : Bool) : (s.rxStore d pe fe bi).lcr = s.lcr := rfl
@[simp] theorem State.rxStore_mcr (d : Byte) (pe fe bi : Bool) : (s.rxStore d pe fe bi).mcr = s.mcr := rfl
@[simp] theorem State.rxStore_lsrOe (d : Byte) (pe fe bi : Bool) : (s.rxStore d pe fe bi).lsrOe = (s.lsrOe || s.rxFull) := rfl
@[simp] theorem State.rxStore_lsrPe (d : Byte) (pe fe bi : Bool) : (s.rxStore d pe fe bi).lsrPe = (s.lsrPe || pe) := rfl
@[simp] theorem State.rxStore_lsrFe (d : Byte) (pe fe bi : Bool) : (s.rxStore d pe fe bi).lsrFe = (s.lsrFe || fe) := rfl
@[simp] theorem State.rxStore_lsrBi (d : Byte) (pe fe bi : Bool) : (s.rxStore d pe fe bi).lsrBi = (s.lsrBi || bi) := rfl
@[simp] theorem State.rxStore_lsrThre (d : Byte) (pe fe bi : Bool) : (s.rxStore d pe fe bi).lsrThre = s.lsrThre := rfl
@[simp] theorem State.rxStore_lsrTemt (d : Byte) (pe fe bi : Bool) : (s.rxStore d pe fe bi).lsrTemt = s.lsrTemt := rfl
@[simp] theorem State.rxStore_msr (d : Byte) (pe fe bi : Bool) : (s.rxStore d pe fe bi).msr = s.msr := rfl
@[simp] theorem State.rxStore_scr (d : Byte) (pe fe bi : Bool) : (s.rxStore d pe fe bi).scr = s.scr := rfl
@[simp] theorem State.rxStore_rxf (d : Byte) (pe fe bi : Bool) : (s.rxStore d pe fe bi).rxf = if s.rxFull then s.rxf else s.rxf.enq s.cfg.fifoDepth d := rfl
@[simp] theorem State.rxStore_txf (d : Byte) (pe fe bi : Bool) : (s.rxStore d pe fe bi).txf = s.txf := rfl
@[simp] theorem State.rxStore_thrIpending (d : Byte) (pe fe bi : Bool) : (s.rxStore d pe fe bi).thrIpending = s.thrIpending := rfl
@[simp] theorem State.rxStore_timeoutIpending (d : Byte) (pe fe bi : Bool) : (s.rxStore d pe fe bi).timeoutIpending = s.timeoutIpending := rfl
@[simp] theorem State.rxStore_lastBreakEnable (d : Byte) (pe fe bi : Bool) : (s.rxStore d pe fe bi).lastBreakEnable = s.lastBreakEnable := rfl
@[simp] theorem State.rxStore_txArmed (d : Byte) (pe fe bi : Bool) : (s.rxStore d pe fe bi).txArmed = s.txArmed := rfl
@[simp] theorem State.rxStore_txCnt (d : Byte) (pe fe bi : Bool) : (s.rxStore d pe fe bi).txCnt = s.txCnt := rfl
@[simp] theorem State.rxStore_rxArmed (d : Byte) (pe fe bi : Bool) : (s.rxStore d pe fe bi).rxArmed = s.rxArmed := rfl
@[simp] theorem State.rxStore_rxCnt (d : Byte) (pe fe bi : Bool) : (s.rxStore d pe fe bi).rxCnt = s.rxCnt := rfl
@[simp] theorem State.rxStore_stim (d : Byte) (pe fe bi : Bool) : (s.rxStore d pe fe bi).stim = s.stim := rfl
@[simp] theorem State.rxStore_rdata (d : Byte) (pe fe bi : Bool) : (s.rxStore d pe fe bi).rdata = s.rdata := rfl
@[simp] theorem State.rxStore_txOut (d : Byte) (pe fe bi : Bool) : (s.rxStore d pe fe bi).txOut = s.txOut := rfl
@[simp] theorem State.rxStore_sent (d : Byte) (pe fe bi : Bool) : (s.rxStore d pe fe bi).sent = s.sent := rfl

/-! ### `txEnqueue` -/

@[simp] theorem State.txEnqueue_ceff (v : Byte) : (s.txEnqueue v).ceff = s.ceff := rfl
@[simp] theorem State.txEnqueue_trigEff (v : Byte) : (s.txEnqueue v).trigEff = s.trigEff := rfl
@[simp] theorem State.txEnqueue_loop (v : Byte) : (s.txEnqueue v).loop = s.loop := rfl
@[simp] theorem State.txEnqueue_dlab (v : Byte) : (s.txEnqueue v).dlab = s.dlab := rfl
@[simp] theorem State.txEnqueue_brk (v : Byte) : (s.txEnqueue v).brk = s.brk := rfl
@[simp] theorem State.txEnqueue_charTicks (v : Byte) : (s.txEnqueue v).charTicks = s.charTicks := rfl
@[simp] theorem State.txEnqueue_cfg (v : Byte) : (s.txEnqueue v).cfg = s.cfg := rfl
@[simp] theorem State.txEnqueue_dl (v : Byte) : (s.txEnqueue v).dl = s.dl := rfl
@[simp] theorem State.txEnqueue_rbr (v : Byte) : (s.txEnqueue v).rbr = s.rbr := rfl
@[simp] theorem State.txEnqueue_thr (v : Byte) : (s.txEnqueue v).thr = s.thr := rfl
@[simp] theorem State.txEnqueue_tsr (v : Byte) : (s.txEnqueue v).tsr = s.tsr := rfl
@[simp] theorem State.txEnqueue_tsrFull (v : Byte) : (s.txEnqueue v).tsrFull = s.tsrFull := rfl
@[simp] theorem State.txEnqueue_ier (v : Byte) : (s.txEnqueue v).ier = s.ier := rfl
@[simp] theorem State.txEnqueue_fifoen (v : Byte) : (s.txEnqueue v).fifoen = s.fifoen := rfl
@[simp] theorem State.txEnqueue_rxtrig (v : Byte) : (s.txEnqueue v).rxtrig = s.rxtrig := rfl
@[simp] theorem State.txEnqueue_lcr (v : Byte) : (s.txEnqueue v).lcr = s.lcr := rfl
@[simp] theorem State.txEnqueue_mcr (v : Byte) : (s.txEnqueue v).mcr = s.mcr := rfl
@[simp] theorem State.txEnqueue_lsrOe (v : Byte) : (s.txEnqueue v).lsrOe = s.lsrOe := rfl
@[simp] theorem State.txEnqueue_lsrPe (v : Byte) : (s.txEnqueue v).lsrPe = s.lsrPe := rfl
@[simp] theorem State.txEnqueue_lsrFe (v : Byte) : (s.txEnqueue v).lsrFe = s.lsrFe := rfl
@[simp] theorem State.txEnqueue_lsrBi (v : Byte) : (s.txEnqueue v).lsrBi = s.lsrBi := rfl
@[simp] theorem State.txEnqueue_lsrThre (v : Byte) : (s.txEnqueue v).lsrThre = s.lsrThre := rfl
@[simp] theorem State.txEnqueue_lsrTemt (v : Byte) : (s.txEnqueue v).lsrTemt = s.lsrTemt := rfl
@[simp] theorem State.txEnqueue_msr (v : Byte) : (s.txEnqueue v).msr = s.msr := rfl
@[simp] theorem State.txEnqueue_scr (v : Byte) : (s.txEnqueue v).scr = s.scr := rfl
@[simp] theorem State.txEnqueue_rxf (v : Byte) : (s.txEnqueue v).rxf = s.rxf := rfl
@[simp] theorem State.txEnqueue_txf (v : Byte) : (s.txEnqueue v).txf = s.txfWith v := rfl
@[simp] theorem State.txEnqueue_thrIpending (v : Byte) : (s.txEnqueue v).thrIpending = s.thrIpending := rfl
@[simp] theorem State.txEnqueue_timeoutIpending (v : Byte) : (s.txEnqueue v).timeoutIpending = s.timeoutIpending := rfl
@[simp] theorem State.txEnqueue_lastBreakEnable (v : Byte) : (s.txEnqueue v).lastBreakEnable = s.lastBreakEnable := rfl
@[simp] theorem State.txEnqueue_txArmed (v : Byte) : (s.txEnqueue v).txArmed = s.txArmed := rfl
@[simp] theorem State.txEnqueue_txCnt (v : Byte) : (s.txEnqueue v).txCnt = s.txCnt := rfl
@[simp] theorem State.txEnqueue_rxArmed (v : Byte) : (s.txEnqueue v).rxArmed = s.rxArmed := rfl
@[simp] theorem State.txEnqueue_rxCnt (v : Byte) : (s.txEnqueue v).rxCnt = s.rxCnt := rfl
@[simp] theorem State.txEnqueue_stim (v : Byte) : (s.txEnqueue v).stim = s.stim := rfl
@[simp] theorem State.txEnqueue_rdata (v : Byte) : (s.txEnqueue v).rdata = s.rdata := rfl
@[simp] theorem State.txEnqueue_txOut (v : Byte) : (s.txEnqueue v).txOut = s.txOut := rfl
@[simp] theorem State.txEnqueue_sent (v : Byte) : (s.txEnqueue v).sent = s.sent := rfl

/-! ### `txBusy` -/

@[simp] theorem State.txBusy_ceff : s.txBusy.ceff = s.ceff := rfl
@[simp] theorem State.txBusy_trigEff : s.txBusy.trigEff = s.trigEff := rfl
@[simp] theorem State.txBusy_loop : s.txBusy.loop = s.loop := rfl
@[simp] theorem State.txBusy_dlab : s.txBusy.dlab = s.dlab := rfl
@[simp] theorem State.txBusy_brk : s.txBusy.brk = s.brk := rfl
@[simp] theorem State.txBusy_charTicks : s.txBusy.charTicks = s.charTicks := rfl
@[simp] theorem State.txBusy_cfg : s.txBusy.cfg = s.cfg := rfl
@[simp] theorem State.txBusy_dl : s.txBusy.dl = s.dl := rfl
@[simp] theorem State.txBusy_rbr : s.txBusy.rbr = s.rbr := rfl
@[simp] theorem State.txBusy_thr : s.txBusy.thr = s.thr := rfl
@[simp] theorem State.txBusy_tsr : s.txBusy.tsr = s.tsr := rfl
@[simp] theorem State.txBusy_tsrFull : s.txBusy.tsrFull = s.tsrFull := rfl
@[simp] theorem State.txBusy_ier : s.txBusy.ier = s.ier := rfl
@[simp] theorem State.txBusy_fifoen : s.txBusy.fifoen = s.fifoen := rfl
@[simp] theorem State.txBusy_rxtrig : s.txBusy.rxtrig = s.rxtrig := rfl
@[simp] theorem State.txBusy_lcr : s.txBusy.lcr = s.lcr := rfl
@[simp] theorem State.txBusy_mcr : s.txBusy.mcr = s.mcr := rfl
@[simp] theorem State.txBusy_lsrOe : s.txBusy.lsrOe = s.lsrOe := rfl
@[simp] theorem State.txBusy_lsrPe : s.txBusy.lsrPe = s.lsrPe := rfl
@[simp] theorem State.txBusy_lsrFe : s.txBusy.lsrFe = s.lsrFe := rfl
@[simp] theorem State.txBusy_lsrBi : s.txBusy.lsrBi = s.lsrBi := rfl
@[simp] theorem State.txBusy_lsrThre : s.txBusy.lsrThre = false := rfl
@[simp] theorem State.txBusy_lsrTemt : s.txBusy.lsrTemt = false := rfl
@[simp] theorem State.txBusy_msr : s.txBusy.msr = s.msr := rfl
@[simp] theorem State.txBusy_scr : s.txBusy.scr = s.scr := rfl
@[simp] theorem State.txBusy_rxf : s.txBusy.rxf = s.rxf := rfl
@[simp] theorem State.txBusy_txf : s.txBusy.txf = s.txf := rfl
@[simp] theorem State.txBusy_thrIpending : s.txBusy.thrIpending = false := rfl
@[simp] theorem State.txBusy_timeoutIpending : s.txBusy.timeoutIpending = s.timeoutIpending := rfl
@[simp] theorem State.txBusy_lastBreakEnable : s.txBusy.lastBreakEnable = s.lastBreakEnable := rfl
@[simp] theorem State.txBusy_txArmed : s.txBusy.txArmed = s.txArmed := rfl
@[simp] theorem State.txBusy_txCnt : s.txBusy.txCnt = s.txCnt := rfl
@[simp] theorem State.txBusy_rxArmed : s.txBusy.rxArmed = s.rxArmed := rfl
@[simp] theorem State.txBusy_rxCnt : s.txBusy.rxCnt = s.rxCnt := rfl
@[simp] theorem State.txBusy_stim : s.txBusy.stim = s.stim := rfl
@[simp] theorem State.txBusy_rdata : s.txBusy.rdata = s.rdata := rfl
@[simp] theorem State.txBusy_txOut : s.txBusy.txOut = s.txOut := rfl
@[simp] theorem State.txBusy_sent : s.txBusy.sent = s.sent := rfl

/-! ### `txDrained` -/

@[simp] theorem State.txDrained_ceff : s.txDrained.ceff = s.ceff := rfl
@[simp] theorem State.txDrained_trigEff : s.txDrained.trigEff = s.trigEff := rfl
@[simp] theorem State.txDrained_loop : s.txDrained.loop = s.loop := rfl
@[simp] theorem State.txDrained_dlab : s.txDrained.dlab = s.dlab := rfl
@[simp] theorem State.txDrained_brk : s.txDrained.brk = s.brk := rfl
@[simp] theorem State.txDrained_charTicks : s.txDrained.charTicks = s.charTicks := rfl
@[simp] theorem State.txDrained_cfg : s.txDrained.cfg = s.cfg := rfl
@[simp] theorem State.txDrained_dl : s.txDrained.dl = s.dl := rfl
@[simp] theorem State.txDrained_rbr : s.txDrained.rbr = s.rbr := rfl
@[simp] theorem State.txDrained_thr : s.txDrained.thr = s.thr := rfl
@[simp] theorem State.txDrained_tsr : s.txDrained.tsr = s.tsr := rfl
@[simp] theorem State.txDrained_tsrFull : s.txDrained.tsrFull = s.tsrFull := rfl
@[simp] theorem State.txDrained_ier : s.txDrained.ier = s.ier := rfl
@[simp] theorem State.txDrained_fifoen : s.txDrained.fifoen = s.fifoen := rfl
@[simp] theorem State.txDrained_rxtrig : s.txDrained.rxtrig = s.rxtrig := rfl
@[simp] theorem State.txDrained_lcr : s.txDrained.lcr = s.lcr := rfl
@[simp] theorem State.txDrained_mcr : s.txDrained.mcr = s.mcr := rfl
@[simp] theorem State.txDrained_lsrOe : s.txDrained.lsrOe = s.lsrOe := rfl
@[simp] theorem State.txDrained_lsrPe : s.txDrained.lsrPe = s.lsrPe := rfl
@[simp] theorem State.txDrained_lsrFe : s.txDrained.lsrFe = s.lsrFe := rfl
@[simp] theorem State.txDrained_lsrBi : s.txDrained.lsrBi = s.lsrBi := rfl
@[simp] theorem State.txDrained_lsrThre : s.txDrained.lsrThre = true := rfl
@[simp] theorem State.txDrained_lsrTemt : s.txDrained.lsrTemt = true := rfl
@[simp] theorem State.txDrained_msr : s.txDrained.msr = s.msr := rfl
@[simp] theorem State.txDrained_scr : s.txDrained.scr = s.scr := rfl
@[simp] theorem State.txDrained_rxf : s.txDrained.rxf = s.rxf := rfl
@[simp] theorem State.txDrained_txf : s.txDrained.txf = s.txf := rfl
@[simp] theorem State.txDrained_thrIpending : s.txDrained.thrIpending = true := rfl
@[simp] theorem State.txDrained_timeoutIpending : s.txDrained.timeoutIpending = s.timeoutIpending := rfl
@[simp] theorem State.txDrained_lastBreakEnable : s.txDrained.lastBreakEnable = s.lastBreakEnable := rfl
@[simp] theorem State.txDrained_txArmed : s.txDrained.txArmed = s.txArmed := rfl
@[simp] theorem State.txDrained_txCnt : s.txDrained.txCnt = s.txCnt := rfl
@[simp] theorem State.txDrained_rxArmed : s.txDrained.rxArmed = s.rxArmed := rfl
@[simp] theorem State.txDrained_rxCnt : s.txDrained.rxCnt = s.rxCnt := rfl
@[simp] theorem State.txDrained_stim : s.txDrained.stim = s.stim := rfl
@[simp] theorem State.txDrained_rdata : s.txDrained.rdata = s.rdata := rfl
@[simp] theorem State.txDrained_txOut : s.txDrained.txOut = s.txOut := rfl
@[simp] theorem State.txDrained_sent : s.txDrained.sent = s.sent := rfl

/-! ### `promote` -/

@[simp] theorem State.promote_ceff : s.promote.ceff = s.ceff := rfl
@[simp] theorem State.promote_trigEff : s.promote.trigEff = s.trigEff := rfl
@[simp] theorem State.promote_loop : s.promote.loop = s.loop := rfl
@[simp] theorem State.promote_dlab : s.promote.dlab = s.dlab := rfl
@[simp] theorem State.promote_brk : s.promote.brk = s.brk := rfl
@[simp] theorem State.promote_charTicks : s.promote.charTicks = s.charTicks := rfl
@[simp] theorem State.promote_cfg : s.promote.cfg = s.cfg := rfl
@[simp] theorem State.promote_dl : s.promote.dl = s.dl := rfl
@[simp] theorem State.promote_rbr : s.promote.rbr = s.rbr := rfl
@[simp] theorem State.promote_thr : s.promote.thr = s.thr := rfl
@[simp] theorem State.promote_tsr : s.promote.tsr = s.txf.front := rfl
@[simp] theorem State.promote_tsrFull : s.promote.tsrFull = true := rfl
@[simp] theorem State.promote_ier : s.promote.ier = s.ier := rfl
@[simp] theorem State.promote_fifoen : s.promote.fifoen = s.fifoen := rfl
@[simp] theorem State.promote_rxtrig : s.promote.rxtrig = s.rxtrig := rfl
@[simp] theorem State.promote_lcr : s.promote.lcr = s.lcr := rfl
@[simp] theorem State.promote_mcr : s.promote.mcr = s.mcr := rfl
@[simp] theorem State.promote_lsrOe : s.promote.lsrOe = s.lsrOe := rfl
@[simp] theorem State.promote_lsrPe : s.promote.lsrPe = s.lsrPe := rfl
@[simp] theorem State.promote_lsrFe : s.promote.lsrFe = s.lsrFe := rfl
@[simp] theorem State.promote_lsrBi : s.promote.lsrBi = s.lsrBi := rfl
@[simp] theorem State.promote_lsrThre : s.promote.lsrThre = s.lsrThre := rfl
@[simp] theorem State.promote_lsrTemt : s.promote.lsrTemt = s.lsrTemt := rfl
@[simp] theorem State.promote_msr : s.promote.msr = s.msr := rfl
@[simp] theorem State.promote_scr : s.promote.scr = s.scr := rfl
@[simp] theorem State.promote_rxf : s.promote.rxf = s.rxf := rfl
@[simp] theorem State.promote_txf : s.promote.txf = s.txf.deq s.cfg.fifoDepth := rfl
@[simp] theorem State.promote_thrIpending : s.promote.thrIpending = s.thrIpending := rfl
@[simp] theorem State.promote_timeoutIpending : s.promote.timeoutIpending = s.timeoutIpending := rfl
@[simp] theorem State.promote_lastBreakEnable : s.promote.lastBreakEnable = s.lastBreakEnable := rfl
@[simp] theorem State.promote_txArmed : s.promote.txArmed = s.txArmed := rfl
@[simp] theorem State.promote_txCnt : s.promote.txCnt = s.txCnt := rfl
@[simp] theorem State.promote_rxArmed : s.promote.rxArmed = s.rxArmed := rfl
@[simp] theorem State.promote_rxCnt : s.promote.rxCnt = s.rxCnt := rfl
@[simp] theorem State.promote_stim : s.promote.stim = s.stim := rfl
@[simp] theorem State.promote_rdata : s.promote.rdata = s.rdata := rfl
@[simp] theorem State.promote_txOut : s.promote.txOut = s.txOut := rfl
@[simp] theorem State.promote_sent : s.promote.sent = s.sent := rfl

/-! ### `emptyShift` -/

@[simp] theorem State.emptyShift_ceff : s.emptyShift.ceff = s.ceff := rfl
@[simp] theorem State.emptyShift_trigEff : s.emptyShift.trigEff = s.trigEff := rfl
@[simp] theorem State.emptyShift_loop : s.emptyShift.loop = s.loop := rfl
@[simp] theorem State.emptyShift_dlab : s.emptyShift.dlab = s.dlab := rfl
@[simp] theorem State.emptyShift_brk : s.emptyShift.brk = s.brk := rfl
@[simp] theorem State.emptyShift_charTicks : s.emptyShift.charTicks = s.charTicks := rfl
@[simp] theorem State.emptyShift_cfg : s.emptyShift.cfg = s.cfg := rfl
@[simp] theorem State.emptyShift_dl : s.emptyShift.dl = s.dl := rfl
@[simp] theorem State.emptyShift_rbr : s.emptyShift.rbr = s.rbr := rfl
@[simp] theorem State.emptyShift_thr : s.emptyShift.thr = s.thr := rfl
@[simp] theorem State.emptyShift_tsr : s.emptyShift.tsr = s.tsr := rfl
@[simp] theorem State.emptyShift_tsrFull : s.emptyShift.tsrFull = false := rfl
@[simp] theorem State.emptyShift_ier : s.emptyShift.ier = s.ier := rfl
@[simp] theorem State.emptyShift_fifoen : s.emptyShift.fifoen = s.fifoen := rfl
@[simp] theorem State.emptyShift_rxtrig : s.emptyShift.rxtrig = s.rxtrig := rfl
@[simp] theorem State.emptyShift_lcr : s.emptyShift.lcr = s.lcr := rfl
@[simp] theorem State.emptyShift_mcr : s.emptyShift.mcr = s.mcr := rfl
@[simp] theorem State.emptyShift_lsrOe : s.emptyShift.lsrOe = s.lsrOe := rfl
@[simp] theorem State.emptyShift_lsrPe : s.emptyShift.lsrPe = s.lsrPe := rfl
@[simp] theorem State.emptyShift_lsrFe : s.emptyShift.lsrFe = s.lsrFe := rfl
@[simp] theorem State.emptyShift_lsrBi : s.emptyShift.lsrBi = s.lsrBi := rfl
@[simp] theorem State.emptyShift_lsrThre : s.emptyShift.lsrThre = s.lsrThre := rfl
@[simp] theorem State.emptyShift_lsrTemt : s.emptyShift.lsrTemt = s.lsrTemt := rfl
@[simp] theorem State.emptyShift_msr : s.emptyShift.msr = s.msr := rfl
@[simp] theorem State.emptyShift_scr : s.emptyShift.scr = s.scr := rfl
@[simp] theorem State.emptyShift_rxf : s.emptyShift.rxf = s.rxf := rfl
@[simp] theorem State.emptyShift_txf : s.emptyShift.txf = s.txf := rfl
@[simp] theorem State.emptyShift_thrIpending : s.emptyShift.thrIpending = s.thrIpending := rfl
@[simp] theorem State.emptyShift_timeoutIpending : s.emptyShift.timeoutIpending = s.timeoutIpending := rfl
@[simp] theorem State.emptyShift_lastBreakEnable : s.emptyShift.lastBreakEnable = s.lastBreakEnable := rfl
@[simp] theorem State.emptyShift_txArmed : s.emptyShift.txArmed = s.txArmed := rfl
@[simp] theorem State.emptyShift_txCnt : s.emptyShift.txCnt = s.txCnt := rfl
@[simp] theorem State.emptyShift_rxArmed : s.emptyShift.rxArmed = s.rxArmed := rfl
@[simp] theorem State.emptyShift_rxCnt : s.emptyShift.rxCnt = s.rxCnt := rfl
@[simp] theorem State.emptyShift_stim : s.emptyShift.stim = s.stim := rfl
@[simp] theorem State.emptyShift_rdata : s.emptyShift.rdata = s.rdata := rfl
@[simp] theorem State.emptyShift_txOut : s.emptyShift.txOut = s.txOut := rfl
@[simp] theorem State.emptyShift_sent : s.emptyShift.sent = s.sent := rfl

/-! ### `armTx` -/

@[simp] theorem State.armTx_ceff (n : Nat) : (s.armTx n).ceff = s.ceff := rfl
@[simp] theorem State.armTx_trigEff (n : Nat) : (s.armTx n).trigEff = s.trigEff := rfl
@[simp] theorem State.armTx_loop (n : Nat) : (s.armTx n).loop = s.loop := rfl
@[simp] theorem State.armTx_dlab (n : Nat) : (s.armTx n).dlab = s.dlab := rfl
@[simp] theorem State.armTx_brk (n : Nat) : (s.armTx n).brk = s.brk := rfl
@[simp] theorem State.armTx_charTicks (n : Nat) : (s.armTx n).charTicks = s.charTicks := rfl
@[simp] theorem State.armTx_cfg (n : Nat) : (s.armTx n).cfg = s.cfg := rfl
@[simp] theorem State.armTx_dl (n : Nat) : (s.armTx n).dl = s.dl := rfl
@[simp] theorem State.armTx_rbr (n : Nat) : (s.armTx n).rbr = s.rbr := rfl
@[simp] theorem State.armTx_thr (n : Nat) : (s.armTx n).thr = s.thr := rfl
@[simp] theorem State.armTx_tsr (n : Nat) : (s.armTx n).tsr = s.tsr := rfl
@[simp] theorem State.armTx_tsrFull (n : Nat) : (s.armTx n).tsrFull = s.tsrFull := rfl
@[simp] theorem State.armTx_ier (n : Nat) : (s.armTx n).ier = s.ier := rfl
@[simp] theorem State.armTx_fifoen (n : Nat) : (s.armTx n).fifoen = s.fifoen := rfl
@[simp] theorem State.armTx_rxtrig (n : Nat) : (s.armTx n).rxtrig = s.rxtrig := rfl
@[simp] theorem State.armTx_lcr (n : Nat) : (s.armTx n).lcr = s.lcr := rfl
@[simp] theorem State.armTx_mcr (n : Nat) : (s.armTx n).mcr = s.mcr := rfl
@[simp] theorem State.armTx_lsrOe (n : Nat) : (s.armTx n).lsrOe = s.lsrOe := rfl
@[simp] theorem State.armTx_lsrPe (n : Nat) : (s.armTx n).lsrPe = s.lsrPe := rfl
@[simp] theorem State.armTx_lsrFe (n : Nat) : (s.armTx n).lsrFe = s.lsrFe := rfl
@[simp] theorem State.armTx_lsrBi (n : Nat) : (s.armTx n).lsrBi = s.lsrBi := rfl
@[simp] theorem State.armTx_lsrThre (n : Nat) : (s.armTx n).lsrThre = s.lsrThre := rfl
@[simp] theorem State.armTx_lsrTemt (n : Nat) : (s.armTx n).lsrTemt = s.lsrTemt := rfl
@[simp] theorem State.armTx_msr (n : Nat) : (s.armTx n).msr = s.msr := rfl
@[simp] theorem State.armTx_scr (n : Nat) : (s.armTx n).scr = s.scr := rfl
@[simp] theorem State.armTx_rxf (n : Nat) : (s.armTx n).rxf = s.rxf := rfl
@[simp] theorem State.armTx_txf (n : Nat) : (s.armTx n).txf = s.txf := rfl
@[simp] theorem State.armTx_thrIpending (n : Nat) : (s.armTx n).thrIpending = s.thrIpending := rfl
@[simp] theorem State.armTx_timeoutIpending (n : Nat) : (s.armTx n).timeoutIpending = s.timeoutIpending := rfl
@[simp] theorem State.armTx_lastBreakEnable (n : Nat) : (s.armTx n).lastBreakEnable = s.lastBreakEnable := rfl
@[simp] theorem State.armTx_txArmed (n : Nat) : (s.armTx n).txArmed = true := rfl
@[simp] theorem State.armTx_txCnt (n : Nat) : (s.armTx n).txCnt = n := rfl
@[simp] theorem State.armTx_rxArmed (n : Nat) : (s.armTx n).rxArmed = s.rxArmed := rfl
@[simp] theorem State.armTx_rxCnt (n : Nat) : (s.armTx n).rxCnt = s.rxCnt := rfl
@[simp] theorem State.armTx_stim (n : Nat) : (s.armTx n).stim = s.stim := rfl
@[simp] theorem State.armTx_rdata (n : Nat) : (s.armTx n).rdata = s.rdata := rfl
@[simp] theorem State.armTx_txOut (n : Nat) : (s.armTx n).txOut = s.txOut := rfl
@[simp] theorem State.armTx_sent (n : Nat) : (s.armTx n).sent = s.sent := rfl

/-! ### `rxtoExpire` -/

@[simp] theorem State.rxtoExpire_ceff : s.rxtoExpire.ceff = s.ceff := rfl
@[simp] theorem State.rxtoExpire_trigEff : s.rxtoExpire.trigEff = s.trigEff := rfl
@[simp] theorem State.rxtoExpire_loop : s.rxtoExpire.loop = s.loop := rfl
@[simp] theorem State.rxtoExpire_dlab : s.rxtoExpire.dlab = s.dlab := rfl
@[simp] theorem State.rxtoExpire_brk : s.rxtoExpire.brk = s.brk := rfl
@[simp] theorem State.rxtoExpire_charTicks : s.rxtoExpire.charTicks = s.charTicks := rfl
@[simp] theorem State.rxtoExpire_cfg : s.rxtoExpire.cfg = s.cfg := rfl
@[simp] theorem State.rxtoExpire_dl : s.rxtoExpire.dl = s.dl := rfl
@[simp] theorem State.rxtoExpire_rbr : s.rxtoExpire.rbr = s.rbr := rfl
@[simp] theorem State.rxtoExpire_thr : s.rxtoExpire.thr = s.thr := rfl
@[simp] theorem State.rxtoExpire_tsr : s.rxtoExpire.tsr = s.tsr := rfl
@[simp] theorem State.rxtoExpire_tsrFull : s.rxtoExpire.tsrFull = s.tsrFull := rfl
@[simp] theorem State.rxtoExpire_ier : s.rxtoExpire.ier = s.ier := rfl
@[simp] theorem State.rxtoExpire_fifoen : s.rxtoExpire.fifoen = s.fifoen := rfl
@[simp] theorem State.rxtoExpire_rxtrig : s.rxtoExpire.rxtrig = s.rxtrig := rfl
@[simp] theorem State.rxtoExpire_lcr : s.rxtoExpire.lcr = s.lcr := rfl
@[simp] theorem State.rxtoExpire_mcr : s.rxtoExpire.mcr = s.mcr := rfl
@[simp] theorem State.rxtoExpire_lsrOe : s.rxtoExpire.lsrOe = s.lsrOe := rfl
@[simp] theorem State.rxtoExpire_lsrPe : s.rxtoExpire.lsrPe = s.lsrPe := rfl
@[simp] theorem State.rxtoExpire_lsrFe : s.rxtoExpire.lsrFe = s.lsrFe := rfl
@[simp] theorem State.rxtoExpire_lsrBi : s.rxtoExpire.lsrBi = s.lsrBi := rfl
@[simp] theorem State.rxtoExpire_lsrThre : s.rxtoExpire.lsrThre = s.lsrThre := rfl
@[simp] theorem State.rxtoExpire_lsrTemt : s.rxtoExpire.lsrTemt = s.lsrTemt := rfl
@[simp] theorem State.rxtoExpire_msr : s.rxtoExpire.msr = s.msr := rfl
@[simp] theorem State.rxtoExpire_scr : s.rxtoExpire.scr = s.scr := rfl
@[simp] theorem State.rxtoExpire_rxf : s.rxtoExpire.rxf = s.rxf := rfl
@[simp] theorem State.rxtoExpire_txf : s.rxtoExpire.txf = s.txf := rfl
@[simp] theorem State.rxtoExpire_thrIpending : s.rxtoExpire.thrIpending = s.thrIpending := rfl
@[simp] theorem State.rxtoExpire_timeoutIpending : s.rxtoExpire.timeoutIpending = true := rfl
@[simp] theorem State.rxtoExpire_lastBreakEnable : s.rxtoExpire.lastBreakEnable = s.lastBreakEnable := rfl
@[simp] theorem State.rxtoExpire_txArmed : s.rxtoExpire.txArmed = s.txArmed := rfl
@[simp] theorem State.rxtoExpire_txCnt : s.rxtoExpire.txCnt = s.txCnt := rfl
@[simp] theorem State.rxtoExpire_rxArmed : s.rxtoExpire.rxArmed = s.rxArmed := rfl
@[simp] theorem State.rxtoExpire_rxCnt : s.rxtoExpire.rxCnt = s.rxCnt := rfl
@[simp] theorem State.rxtoExpire_stim : s.rxtoExpire.stim = s.stim := rfl
@[simp] theorem State.rxtoExpire_rdata : s.rxtoExpire.rdata = s.rdata := rfl
@[simp] theorem State.rxtoExpire_txOut : s.rxtoExpire.txOut = s.txOut := rfl
@[simp] theorem State.rxtoExpire_sent : s.rxtoExpire.sent = s.sent := rfl

/-! ### `countDown` -/

@[simp] theorem State.countDown_ceff : s.countDown.ceff = s.ceff := rfl
@[simp] theorem State.countDown_trigEff : s.countDown.trigEff = s.trigEff := rfl
@[simp] theorem State.countDown_loop : s.countDown.loop = s.loop := rfl
@[simp] theorem State.countDown_dlab : s.countDown.dlab = s.dlab := rfl
@[simp] theorem State.countDown_brk : s.countDown.brk = s.brk := rfl
@[simp] theorem State.countDown_charTicks : s.countDown.charTicks = s.charTicks := rfl
@[simp] theorem State.countDown_cfg : s.countDown.cfg = s.cfg := rfl
@[simp] theorem State.countDown_dl : s.countDown.dl = s.dl := rfl
@[simp] theorem State.countDown_rbr : s.countDown.rbr = s.rbr := rfl
@[simp] theorem State.countDown_thr : s.countDown.thr = s.thr := rfl
@[simp] theorem State.countDown_tsr : s.countDown.tsr = s.tsr := rfl
@[simp] theorem State.countDown_tsrFull : s.countDown.tsrFull = s.tsrFull := rfl
@[simp] theorem State.countDown_ier : s.countDown.ier = s.ier := rfl
@[simp] theorem State.countDown_fifoen : s.countDown.fifoen = s.fifoen := rfl
@[simp] theorem State.countDown_rxtrig : s.countDown.rxtrig = s.rxtrig := rfl
@[simp] theorem State.countDown_lcr : s.countDown.lcr = s.lcr := rfl
@[simp] theorem State.countDown_mcr : s.countDown.mcr = s.mcr := rfl
@[simp] theorem State.countDown_lsrOe : s.countDown.lsrOe = s.lsrOe := rfl
@[simp] theorem State.countDown_lsrPe : s.countDown.lsrPe = s.lsrPe := rfl
@[simp] theorem State.countDown_lsrFe : s.countDown.lsrFe = s.lsrFe := rfl
@[simp] theorem State.countDown_lsrBi : s.countDown.lsrBi = s.lsrBi := rfl
@[simp] theorem State.countDown_lsrThre : s.countDown.lsrThre = s.lsrThre := rfl
@[simp] theorem State.countDown_lsrTemt : s.countDown.lsrTemt = s.lsrTemt := rfl
@[simp] theorem State.countDown_msr : s.countDown.msr = s.msr := rfl
@[simp] theorem State.countDown_scr : s.countDown.scr = s.scr := rfl
@[simp] theorem State.countDown_rxf : s.countDown.rxf = s.rxf := rfl
@[simp] theorem State.countDown_txf : s.countDown.txf = s.txf := rfl
@[simp] theorem State.countDown_thrIpending : s.countDown.thrIpending = s.thrIpending := rfl
@[simp] theorem State.countDown_timeoutIpending : s.countDown.timeoutIpending = s.timeoutIpending := rfl
@[simp] theorem State.countDown_lastBreakEnable : s.countDown.lastBreakEnable = s.lastBreakEnable := rfl
@[simp] theorem State.countDown_txArmed : s.countDown.txArmed = s.txArmed := rfl
@[simp] theorem State.countDown_txCnt : s.countDown.txCnt = if s.txArmed then s.txCnt - 1 else s.txCnt := rfl
@[simp] theorem State.countDown_rxArmed : s.countDown.rxArmed = s.rxArmed := rfl
@[simp] theorem State.countDown_rxCnt : s.countDown.rxCnt = if s.rxArmed then s.rxCnt - 1 else s.rxCnt := rfl
@[simp] theorem State.countDown_stim : s.countDown.stim = s.stim := rfl
@[simp] theorem State.countDown_rdata : s.countDown.rdata = s.rdata := rfl
@[simp] theorem State.countDown_txOut : s.countDown.txOut = s.txOut := rfl
@[simp] theorem State.countDown_sent : s.countDown.sent = s.sent := rfl

/-! ### `disarmTx` -/

@[simp] theorem State.disarmTx_ceff : s.disarmTx.ceff = s.ceff := rfl
@[simp] theorem State.disarmTx_trigEff : s.disarmTx.trigEff = s.trigEff := rfl
@[simp] theorem State.disarmTx_loop : s.disarmTx.loop = s.loop := rfl
@[simp] theorem State.disarmTx_dlab : s.disarmTx.dlab = s.dlab := rfl
@[simp] theorem State.disarmTx_brk : s.disarmTx.brk = s.brk := rfl
@[simp] theorem State.disarmTx_charTicks : s.disarmTx.charTicks = s.charTicks := rfl
@[simp] theorem State.disarmTx_cfg : s.disarmTx.cfg = s.cfg := rfl
@[simp] theorem State.disarmTx_dl : s.disarmTx.dl = s.dl := rfl
@[simp] theorem State.disarmTx_rbr : s.disarmTx.rbr = s.rbr := rfl
@[simp] theorem State.disarmTx_thr : s.disarmTx.thr = s.thr := rfl
@[simp] theorem State.disarmTx_tsr : s.disarmTx.tsr = s.tsr := rfl
@[simp] theorem State.disarmTx_tsrFull : s.disarmTx.tsrFull = s.tsrFull := rfl
@[simp] theorem State.disarmTx_ier : s.disarmTx.ier = s.ier := rfl
@[simp] theorem State.disarmTx_fifoen : s.disarmTx.fifoen = s.fifoen := rfl
@[simp] theorem State.disarmTx_rxtrig : s.disarmTx.rxtrig = s.rxtrig := rfl
@[simp] theorem State.disarmTx_lcr : s.disarmTx.lcr = s.lcr := rfl
@[simp] theorem State.disarmTx_mcr : s.disarmTx.mcr = s.mcr := rfl
@[simp] theorem State.disarmTx_lsrOe : s.disarmTx.lsrOe = s.lsrOe := rfl
@[simp] theorem State.disarmTx_lsrPe : s.disarmTx.lsrPe = s.lsrPe := rfl
@[simp] theorem State.disarmTx_lsrFe : s.disarmTx.lsrFe = s.lsrFe := rfl
@[simp] theorem State.disarmTx_lsrBi : s.disarmTx.lsrBi = s.lsrBi := rfl
@[simp] theorem State.disarmTx_lsrThre : s.disarmTx.lsrThre = s.lsrThre := rfl
@[simp] theorem State.disarmTx_lsrTemt : s.disarmTx.lsrTemt = s.lsrTemt := rfl
@[simp] theorem State.disarmTx_msr : s.disarmTx.msr = s.msr := rfl
@[simp] theorem State.disarmTx_scr : s.disarmTx.scr = s.scr := rfl
@[simp] theorem State.disarmTx_rxf : s.disarmTx.rxf = s.rxf := rfl
@[simp] theorem State.disarmTx_txf : s.disarmTx.txf = s.txf := rfl
@[simp] theorem State.disarmTx_thrIpending : s.disarmTx.thrIpending = s.thrIpending := rfl
@[simp] theorem State.disarmTx_timeoutIpending : s.disarmTx.timeoutIpending = s.timeoutIpending := rfl
@[simp] theorem State.disarmTx_lastBreakEnable : s.disarmTx.lastBreakEnable = s.lastBreakEnable := rfl
@[simp] theorem State.disarmTx_txArmed : s.disarmTx.txArmed = false := rfl
@[simp] theorem State.disarmTx_txCnt : s.disarmTx.txCnt = s.txCnt := rfl
@[simp] theorem State.disarmTx_rxArmed : s.disarmTx.rxArmed = s.rxArmed := rfl
@[simp] theorem State.disarmTx_rxCnt : s.disarmTx.rxCnt = s.rxCnt := rfl
@[simp] theorem State.disarmTx_stim : s.disarmTx.stim = s.stim := rfl
@[simp] theorem State.disarmTx_rdata : s.disarmTx.rdata = s.rdata := rfl
@[simp] theorem State.disarmTx_txOut : s.disarmTx.txOut = s.txOut := rfl
@[simp] theorem State.disarmTx_sent : s.disarmTx.sent = s.sent := rfl

/-! ### `disarmRx` -/

@[simp] theorem State.disarmRx_ceff : s.disarmRx.ceff = s.ceff := rfl
@[simp] theorem State.disarmRx_trigEff : s.disarmRx.trigEff = s.trigEff := rfl
@[simp] theorem State.disarmRx_loop : s.disarmRx.loop = s.loop := rfl
@[simp] theorem State.disarmRx_dlab : s.disarmRx.dlab = s.dlab := rfl
@[simp] theorem State.disarmRx_brk : s.disarmRx.brk = s.brk := rfl
@[simp] theorem State.disarmRx_charTicks : s.disarmRx.charTicks = s.charTicks := rfl
@[simp] theorem State.disarmRx_cfg : s.disarmRx.cfg = s.cfg := rfl
@[simp] theorem State.disarmRx_dl : s.disarmRx.dl = s.dl := rfl
@[simp] theorem State.disarmRx_rbr : s.disarmRx.rbr = s.rbr := rfl
@[simp] theorem State.disarmRx_thr : s.disarmRx.thr = s.thr := rfl
@[simp] theorem State.disarmRx_tsr : s.disarmRx.tsr = s.tsr := rfl
@[simp] theorem State.disarmRx_tsrFull : s.disarmRx.tsrFull = s.tsrFull := rfl
@[simp] theorem State.disarmRx_ier : s.disarmRx.ier = s.ier := rfl
@[simp] theorem State.disarmRx_fifoen : s.disarmRx.fifoen = s.fifoen := rfl
@[simp] theorem State.disarmRx_rxtrig : s.disarmRx.rxtrig = s.rxtrig := rfl
@[simp] theorem State.disarmRx_lcr : s.disarmRx.lcr = s.lcr := rfl
@[simp] theorem State.disarmRx_mcr : s.disarmRx.mcr = s.mcr := rfl
@[simp] theorem State.disarmRx_lsrOe : s.disarmRx.lsrOe = s.lsrOe := rfl
@[simp] theorem State.disarmRx_lsrPe : s.disarmRx.lsrPe = s.lsrPe := rfl
@[simp] theorem State.disarmRx_lsrFe : s.disarmRx.lsrFe = s.lsrFe := rfl
@[simp] theorem State.disarmRx_lsrBi : s.disarmRx.lsrBi = s.lsrBi := rfl
@[simp] theorem State.disarmRx_lsrThre : s.disarmRx.lsrThre = s.lsrThre := rfl
@[simp] theorem State.disarmRx_lsrTemt : s.disarmRx.lsrTemt = s.lsrTemt := rfl
@[simp] theorem State.disarmRx_msr : s.disarmRx.msr = s.msr := rfl
@[simp] theorem State.disarmRx_scr : s.disarmRx.scr = s.scr := rfl
@[simp] theorem State.disarmRx_rxf : s.disarmRx.rxf = s.rxf := rfl
@[simp] theorem State.disarmRx_txf : s.disarmRx.txf = s.txf := rfl
@[simp] theorem State.disarmRx_thrIpending : s.disarmRx.thrIpending = s.thrIpending := rfl
@[simp] theorem State.disarmRx_timeoutIpending : s.disarmRx.timeoutIpending = s.timeoutIpending := rfl
@[simp] theorem State.disarmRx_lastBreakEnable : s.disarmRx.lastBreakEnable = s.lastBreakEnable := rfl
@[simp] theorem State.disarmRx_txArmed : s.disarmRx.txArmed = s.txArmed := rfl
@[simp] theorem State.disarmRx_txCnt : s.disarmRx.txCnt = s.txCnt := rfl
@[simp] theorem State.disarmRx_rxArmed : s.disarmRx.rxArmed = false := rfl
@[simp] theorem State.disarmRx_rxCnt : s.disarmRx.rxCnt = s.rxCnt := rfl
@[simp] theorem State.disarmRx_stim : s.disarmRx.stim = s.stim := rfl
@[simp] theorem State.disarmRx_rdata : s.disarmRx.rdata = s.rdata := rfl
@[simp] theorem State.disarmRx_txOut : s.disarmRx.txOut = s.txOut := rfl
@[simp] theorem State.disarmRx_sent : s.disarmRx.sent = s.sent := rfl

/-! ### `msrUpdate` -/

@[simp] theorem State.msrUpdate_ceff (n : BitVec 4) : (s.msrUpdate n).ceff = s.ceff := rfl
@[simp] theorem State.msrUpdate_trigEff (n : BitVec 4) : (s.msrUpdate n).trigEff = s.trigEff := rfl
@[simp] theorem State.msrUpdate_loop (n : BitVec 4) : (s.msrUpdate n).loop = s.loop := rfl
@[simp] theorem State.msrUpdate_dlab (n : BitVec 4) : (s.msrUpdate n).dlab = s.dlab := rfl
@[simp] theorem State.msrUpdate_brk (n : BitVec 4) : (s.msrUpdate n).brk = s.brk := rfl
@[simp] theorem State.msrUpdate_charTicks (n : BitVec 4) : (s.msrUpdate n).charTicks = s.charTicks := rfl
@[simp] theorem State.msrUpdate_cfg (n : BitVec 4) : (s.msrUpdate n).cfg = s.cfg := rfl
@[simp] theorem State.msrUpdate_dl (n : BitVec 4) : (s.msrUpdate n).dl = s.dl := rfl
@[simp] theorem State.msrUpdate_rbr (n : BitVec 4) : (s.msrUpdate n).rbr = s.rbr := rfl
@[simp] theorem State.msrUpdate_thr (n : BitVec 4) : (s.msrUpdate n).thr = s.thr := rfl
@[simp] theorem State.msrUpdate_tsr (n : BitVec 4) : (s.msrUpdate n).tsr = s.tsr := rfl
@[simp] theorem State.msrUpdate_tsrFull (n : BitVec 4) : (s.msrUpdate n).tsrFull = s.tsrFull := rfl
@[simp] theorem State.msrUpdate_ier (n : BitVec 4) : (s.msrUpdate n).ier = s.ier := rfl
@[simp] theorem State.msrUpdate_fifoen (n : BitVec 4) : (s.msrUpdate n).fifoen = s.fifoen := rfl
@[simp] theorem State.msrUpdate_rxtrig (n : BitVec 4) : (s.msrUpdate n).rxtrig = s.rxtrig := rfl
@[simp] theorem State.msrUpdate_lcr (n : BitVec 4) : (s.msrUpdate n).lcr = s.lcr := rfl
@[simp] theorem State.msrUpdate_mcr (n : BitVec 4) : (s.msrUpdate n).mcr = s.mcr := rfl
@[simp] theorem State.msrUpdate_lsrOe (n : BitVec 4) : (s.msrUpdate n).lsrOe = s.lsrOe := rfl
@[simp] theorem State.msrUpdate_lsrPe (n : BitVec 4) : (s.msrUpdate n).lsrPe = s.lsrPe := rfl
@[simp] theorem State.msrUpdate_lsrFe (n : BitVec 4) : (s.msrUpdate n).lsrFe = s.lsrFe := rfl
@[simp] theorem State.msrUpdate_lsrBi (n : BitVec 4) : (s.msrUpdate n).lsrBi = s.lsrBi := rfl
@[simp] theorem State.msrUpdate_lsrThre (n : BitVec 4) : (s.msrUpdate n).lsrThre = s.lsrThre := rfl
@[simp] theorem State.msrUpdate_lsrTemt (n : BitVec 4) : (s.msrUpdate n).lsrTemt = s.lsrTemt := rfl
@[simp] theorem State.msrUpdate_msr (n : BitVec 4) : (s.msrUpdate n).msr = n ++ (msrDelta s.msr ||| (n ^^^ msrLines s.msr)) := rfl
@[simp] theorem State.msrUpdate_scr (n : BitVec 4) : (s.msrUpdate n).scr = s.scr := rfl
@[simp] theorem State.msrUpdate_rxf (n : BitVec 4) : (s.msrUpdate n).rxf = s.rxf := rfl
@[simp] theorem State.msrUpdate_txf (n : BitVec 4) : (s.msrUpdate n).txf = s.txf := rfl
@[simp] theorem State.msrUpdate_thrIpending (n : BitVec 4) : (s.msrUpdate n).thrIpending = s.thrIpending := rfl
@[simp] theorem State.msrUpdate_timeoutIpending (n : BitVec 4) : (s.msrUpdate n).timeoutIpending = s.timeoutIpending := rfl
@[simp] theorem State.msrUpdate_lastBreakEnable (n : BitVec 4) : (s.msrUpdate n).lastBreakEnable = s.lastBreakEnable := rfl
@[simp] theorem State.msrUpdate_txArmed (n : BitVec 4) : (s.msrUpdate n).txArmed = s.txArmed := rfl
@[simp] theorem State.msrUpdate_txCnt (n : BitVec 4) : (s.msrUpdate n).txCnt = s.txCnt := rfl
@[simp] theorem State.msrUpdate_rxArmed (n : BitVec 4) : (s.msrUpdate n).rxArmed = s.rxArmed := rfl
@[simp] theorem State.msrUpdate_rxCnt (n : BitVec 4) : (s.msrUpdate n).rxCnt = s.rxCnt := rfl
@[simp] theorem State.msrUpdate_stim (n : BitVec 4) : (s.msrUpdate n).stim = s.stim := rfl
@[simp] theorem State.msrUpdate_rdata (n : BitVec 4) : (s.msrUpdate n).rdata = s.rdata := rfl
@[simp] theorem State.msrUpdate_txOut (n : BitVec 4) : (s.msrUpdate n).txOut = s.txOut := rfl
@[simp] theorem State.msrUpdate_sent (n : BitVec 4) : (s.msrUpdate n).sent = s.sent := rfl

/-! ### `breakEdge` -/

@[simp] theorem State.breakEdge_ceff (b : Bool) : (s.breakEdge b).ceff = s.ceff := rfl
@[simp] theorem State.breakEdge_trigEff (b : Bool) : (s.breakEdge b).trigEff = s.trigEff := rfl
@[simp] theorem State.breakEdge_loop (b : Bool) : (s.breakEdge b).loop = s.loop := rfl
@[simp] theorem State.breakEdge_dlab (b : Bool) : (s.breakEdge b).dlab = s.dlab := rfl
@[simp] theorem State.breakEdge_brk (b : Bool) : (s.breakEdge b).brk = s.brk := rfl
@[simp] theorem State.breakEdge_charTicks (b : Bool) : (s.breakEdge b).charTicks = s.charTicks := rfl
@[simp] theorem State.breakEdge_cfg (b : Bool) : (s.breakEdge b).cfg = s.cfg := rfl
@[simp] theorem State.breakEdge_dl (b : Bool) : (s.breakEdge b).dl = s.dl := rfl
@[simp] theorem State.breakEdge_rbr (b : Bool) : (s.breakEdge b).rbr = s.rbr := rfl
@[simp] theorem State.breakEdge_thr (b : Bool) : (s.breakEdge b).thr = s.thr := rfl
@[simp] theorem State.breakEdge_tsr (b : Bool) : (s.breakEdge b).tsr = s.tsr := rfl
@[simp] theorem State.breakEdge_tsrFull (b : Bool) : (s.breakEdge b).tsrFull = s.tsrFull := rfl
@[simp] theorem State.breakEdge_ier (b : Bool) : (s.breakEdge b).ier = s.ier := rfl
@[simp] theorem State.breakEdge_fifoen (b : Bool) : (s.breakEdge b).fifoen = s.fifoen := rfl
@[simp] theorem State.breakEdge_rxtrig (b : Bool) : (s.breakEdge b).rxtrig = s.rxtrig := rfl
@[simp] theorem State.breakEdge_lcr (b : Bool) : (s.breakEdge b).lcr = s.lcr := rfl
@[simp] theorem State.breakEdge_mcr (b : Bool) : (s.breakEdge b).mcr = s.mcr := rfl
@[simp] theorem State.breakEdge_lsrOe (b : Bool) : (s.breakEdge b).lsrOe = s.lsrOe := rfl
@[simp] theorem State.breakEdge_lsrPe (b : Bool) : (s.breakEdge b).lsrPe = s.lsrPe := rfl
@[simp] theorem State.breakEdge_lsrFe (b : Bool) : (s.breakEdge b).lsrFe = s.lsrFe := rfl
@[simp] theorem State.breakEdge_lsrBi (b : Bool) : (s.breakEdge b).lsrBi = (s.lsrBi || (b && !s.lastBreakEnable)) := rfl
@[simp] theorem State.breakEdge_lsrThre (b : Bool) : (s.breakEdge b).lsrThre = s.lsrThre := rfl
@[simp] theorem State.breakEdge_lsrTemt (b : Bool) : (s.breakEdge b).lsrTemt = s.lsrTemt := rfl
@[simp] theorem State.breakEdge_msr (b : Bool) : (s.breakEdge b).msr = s.msr := rfl
@[simp] theorem State.breakEdge_scr (b : Bool) : (s.breakEdge b).scr = s.scr := rfl
@[simp] theorem State.breakEdge_rxf (b : Bool) : (s.breakEdge b).rxf = s.rxf := rfl
@[simp] theorem State.breakEdge_txf (b : Bool) : (s.breakEdge b).txf = s.txf := rfl
@[simp] theorem State.breakEdge_thrIpending (b : Bool) : (s.breakEdge b).thrIpending = s.thrIpending := rfl
@[simp] theorem State.breakEdge_timeoutIpending (b : Bool) : (s.breakEdge b).timeoutIpending = s.timeoutIpending := rfl
@[simp] theorem State.breakEdge_lastBreakEnable (b : Bool) : (s.breakEdge b).lastBreakEnable = b := rfl
@[simp] theorem State.breakEdge_txArmed (b : Bool) : (s.breakEdge b).txArmed = s.txArmed := rfl
@[simp] theorem State.breakEdge_txCnt (b : Bool) : (s.breakEdge b).txCnt = s.txCnt := rfl
@[simp] theorem State.breakEdge_rxArmed (b : Bool) : (s.breakEdge b).rxArmed = s.rxArmed := rfl
@[simp] theorem State.breakEdge_rxCnt (b : Bool) : (s.breakEdge b).rxCnt = s.rxCnt := rfl
@[simp] theorem State.breakEdge_stim (b : Bool) : (s.breakEdge b).stim = s.stim := rfl
@[simp] theorem State.breakEdge_rdata (b : Bool) : (s.breakEdge b).rdata = s.rdata := rfl
@[simp] theorem State.breakEdge_txOut (b : Bool) : (s.breakEdge b).txOut = s.txOut := rfl
@[simp] theorem State.breakEdge_sent (b : Bool) : (s.breakEdge b).sent = s.sent := rfl

/-! ### `setThr` -/

@[simp] theorem State.setThr_ceff (v : Byte) : (s.setThr v).ceff = s.ceff := rfl
@[simp] theorem State.setThr_trigEff (v : Byte) : (s.setThr v).trigEff = s.trigEff := rfl
@[simp] theorem State.setThr_loop (v : Byte) : (s.setThr v).loop = s.loop := rfl
@[simp] theorem State.setThr_dlab (v : Byte) : (s.setThr v).dlab = s.dlab := rfl
@[simp] theorem State.setThr_brk (v : Byte) : (s.setThr v).brk = s.brk := rfl
@[simp] theorem State.setThr_charTicks (v : Byte) : (s.setThr v).charTicks = s.charTicks := rfl
@[simp] theorem State.setThr_cfg (v : Byte) : (s.setThr v).cfg = s.cfg := rfl
@[simp] theorem State.setThr_dl (v : Byte) : (s.setThr v).dl = s.dl := rfl
@[simp] theorem State.setThr_rbr (v : Byte) : (s.setThr v).rbr = s.rbr := rfl
@[simp] theorem State.setThr_thr (v : Byte) : (s.setThr v).thr = v := rfl
@[simp] theorem State.setThr_tsr (v : Byte) : (s.setThr v).tsr = s.tsr := rfl
@[simp] theorem State.setThr_tsrFull (v : Byte) : (s.setThr v).tsrFull = s.tsrFull := rfl
@[simp] theorem State.setThr_ier (v : Byte) : (s.setThr v).ier = s.ier := rfl
@[simp] theorem State.setThr_fifoen (v : Byte) : (s.setThr v).fifoen = s.fifoen := rfl
@[simp] theorem State.setThr_rxtrig (v : Byte) : (s.setThr v).rxtrig = s.rxtrig := rfl
@[simp] theorem State.setThr_lcr (v : Byte) : (s.setThr v).lcr = s.lcr := rfl
@[simp] theorem State.setThr_mcr (v : Byte) : (s.setThr v).mcr = s.mcr := rfl
@[simp] theorem State.setThr_lsrOe (v : Byte) : (s.setThr v).lsrOe = s.lsrOe := rfl
@[simp] theorem State.setThr_lsrPe (v : Byte) : (s.setThr v).lsrPe = s.lsrPe := rfl
@[simp] theorem State.setThr_lsrFe (v : Byte) : (s.setThr v).lsrFe = s.lsrFe := rfl
@[simp] theorem State.setThr_lsrBi (v : Byte) : (s.setThr v).lsrBi = s.lsrBi := rfl
@[simp] theorem State.setThr_lsrThre (v : Byte) : (s.setThr v).lsrThre = s.lsrThre := rfl
@[simp] theorem State.setThr_lsrTemt (v : Byte) : (s.setThr v).lsrTemt = s.lsrTemt := rfl
@[simp] theorem State.setThr_msr (v : Byte) : (s.setThr v).msr = s.msr := rfl
@[simp] theorem State.setThr_scr (v : Byte) : (s.setThr v).scr = s.scr := rfl
@[simp] theorem State.setThr_rxf (v : Byte) : (s.setThr v).rxf = s.rxf := rfl
@[simp] theorem State.setThr_txf (v : Byte) : (s.setThr v).txf = s.txf := rfl
@[simp] theorem State.setThr_thrIpending (v : Byte) : (s.setThr v).thrIpending = s.thrIpending := rfl
@[simp] theorem State.setThr_timeoutIpending (v : Byte) : (s.setThr v).timeoutIpending = s.timeoutIpending := rfl
@[simp] theorem State.setThr_lastBreakEnable (v : Byte) : (s.setThr v).lastBreakEnable = s.lastBreakEnable := rfl
@[simp] theorem State.setThr_txArmed (v : Byte) : (s.setThr v).txArmed = s.txArmed := rfl
@[simp] theorem State.setThr_txCnt (v : Byte) : (s.setThr v).txCnt = s.txCnt := rfl
@[simp] theorem State.setThr_rxArmed (v : Byte) : (s.setThr v).rxArmed = s.rxArmed := rfl
@[simp] theorem State.setThr_rxCnt (v : Byte) : (s.setThr v).rxCnt = s.rxCnt := rfl
@[simp] theorem State.setThr_stim (v : Byte) : (s.setThr v).stim = s.stim := rfl
@[simp] theorem State.setThr_rdata (v : Byte) : (s.setThr v).rdata = s.rdata := rfl
@[simp] theorem State.setThr_txOut (v : Byte) : (s.setThr v).txOut = s.txOut := rfl
@[simp] theorem State.setThr_sent (v : Byte) : (s.setThr v).sent = s.sent := rfl

/-! ### `setDl` -/

@[simp] theorem State.setDl_ceff (d : BitVec 16) : (s.setDl d).ceff = s.ceff := rfl
@[simp] theorem State.setDl_trigEff (d : BitVec 16) : (s.setDl d).trigEff = s.trigEff := rfl
@[simp] theorem State.setDl_loop (d : BitVec 16) : (s.setDl d).loop = s.loop := rfl
@[simp] theorem State.setDl_dlab (d : BitVec 16) : (s.setDl d).dlab = s.dlab := rfl
@[simp] theorem State.setDl_brk (d : BitVec 16) : (s.setDl d).brk = s.brk := rfl
@[simp] theorem State.setDl_cfg (d : BitVec 16) : (s.setDl d).cfg = s.cfg := rfl
@[simp] theorem State.setDl_dl (d : BitVec 16) : (s.setDl d).dl = d := rfl
@[simp] theorem State.setDl_rbr (d : BitVec 16) : (s.setDl d).rbr = s.rbr := rfl
@[simp] theorem State.setDl_thr (d : BitVec 16) : (s.setDl d).thr = s.thr := rfl
@[simp] theorem State.setDl_tsr (d : BitVec 16) : (s.setDl d).tsr = s.tsr := rfl
@[simp] theorem State.setDl_tsrFull (d : BitVec 16) : (s.setDl d).tsrFull = s.tsrFull := rfl
@[simp] theorem State.setDl_ier (d : BitVec 16) : (s.setDl d).ier = s.ier := rfl
@[simp] theorem State.setDl_fifoen (d : BitVec 16) : (s.setDl d).fifoen = s.fifoen := rfl
@[simp] theorem State.setDl_rxtrig (d : BitVec 16) : (s.setDl d).rxtrig = s.rxtrig := rfl
@[simp] theorem State.setDl_lcr (d : BitVec 16) : (s.setDl d).lcr = s.lcr := rfl
@[simp] theorem State.setDl_mcr (d : BitVec 16) : (s.setDl d).mcr = s.mcr := rfl
@[simp] theorem State.setDl_lsrOe (d : BitVec 16) : (s.setDl d).lsrOe = s.lsrOe := rfl
@[simp] theorem State.setDl_lsrPe (d : BitVec 16) : (s.setDl d).lsrPe = s.lsrPe := rfl
@[simp] theorem State.setDl_lsrFe (d : BitVec 16) : (s.setDl d).lsrFe = s.lsrFe := rfl
@[simp] theorem State.setDl_lsrBi (d : BitVec 16) : (s.setDl d).lsrBi = s.lsrBi := rfl
@[simp] theorem State.setDl_lsrThre (d : BitVec 16) : (s.setDl d).lsrThre = s.lsrThre := rfl
@[simp] theorem State.setDl_lsrTemt (d : BitVec 16) : (s.setDl d).lsrTemt = s.lsrTemt := rfl
@[simp] theorem State.setDl_msr (d : BitVec 16) : (s.setDl d).msr = s.msr := rfl
@[simp] theorem State.setDl_scr (d : BitVec 16) : (s.setDl d).scr = s.scr := rfl
@[simp] theorem State.setDl_rxf (d : BitVec 16) : (s.setDl d).rxf = s.rxf := rfl
@[simp] theorem State.setDl_txf (d : BitVec 16) : (s.setDl d).txf = s.txf := rfl
@[simp] theorem State.setDl_thrIpending (d : BitVec 16) : (s.setDl d).thrIpending = s.thrIpending := rfl
@[simp] theorem State.setDl_timeoutIpending (d : BitVec 16) : (s.setDl d).timeoutIpending = s.timeoutIpending := rfl
@[simp] theorem State.setDl_lastBreakEnable (d : BitVec 16) : (s.setDl d).lastBreakEnable = s.lastBreakEnable := rfl
@[simp] theorem State.setDl_txArmed (d : BitVec 16) : (s.setDl d).txArmed = s.txArmed := rfl
@[simp] theorem State.setDl_txCnt (d : BitVec 16) : (s.setDl d).txCnt = s.txCnt := rfl
@[simp] theorem State.setDl_rxArmed (d : BitVec 16) : (s.setDl d).rxArmed = s.rxArmed := rfl
@[simp] theorem State.setDl_rxCnt (d : BitVec 16) : (s.setDl d).rxCnt = s.rxCnt := rfl
@[simp] theorem State.setDl_stim (d : BitVec 16) : (s.setDl d).stim = s.stim := rfl
@[simp] theorem State.setDl_rdata (d : BitVec 16) : (s.setDl d).rdata = s.rdata := rfl
@[simp] theorem State.setDl_txOut (d : BitVec 16) : (s.setDl d).txOut = s.txOut := rfl
@[simp] theorem State.setDl_sent (d : BitVec 16) : (s.setDl d).sent = s.sent := rfl

/-! ### `setIer` -/

@[simp] theorem State.setIer_ceff (x : BitVec 4) : (s.setIer x).ceff = s.ceff := rfl
@[simp] theorem State.setIer_trigEff (x : BitVec 4) : (s.setIer x).trigEff = s.trigEff := rfl
@[simp] theorem State.setIer_loop (x : BitVec 4) : (s.setIer x).loop = s.loop := rfl
@[simp] theorem State.setIer_dlab (x : BitVec 4) : (s.setIer x).dlab = s.dlab := rfl
@[simp] theorem State.setIer_brk (x : BitVec 4) : (s.setIer x).brk = s.brk := rfl
@[simp] theorem State.setIer_charTicks (x : BitVec 4) : (s.setIer x).charTicks = s.charTicks := rfl
@[simp] theorem State.setIer_cfg (x : BitVec 4) : (s.setIer x).cfg = s.cfg := rfl
@[simp] theorem State.setIer_dl (x : BitVec 4) : (s.setIer x).dl = s.dl := rfl
@[simp] theorem State.setIer_rbr (x : BitVec 4) : (s.setIer x).rbr = s.rbr := rfl
@[simp] theorem State.setIer_thr (x : BitVec 4) : (s.setIer x).thr = s.thr := rfl
@[simp] theorem State.setIer_tsr (x : BitVec 4) : (s.setIer x).tsr = s.tsr := rfl
@[simp] theorem State.setIer_tsrFull (x : BitVec 4) : (s.setIer x).tsrFull = s.tsrFull := rfl
@[simp] theorem State.setIer_ier (x : BitVec 4) : (s.setIer x).ier = x := rfl
@[simp] theorem State.setIer_fifoen (x : BitVec 4) : (s.setIer x).fifoen = s.fifoen := rfl
@[simp] theorem State.setIer_rxtrig (x : BitVec 4) : (s.setIer x).rxtrig = s.rxtrig := rfl
@[simp] theorem State.setIer_lcr (x : BitVec 4) : (s.setIer x).lcr = s.lcr := rfl
@[simp] theorem State.setIer_mcr (x : BitVec 4) : (s.setIer x).mcr = s.mcr := rfl
@[simp] theorem State.setIer_lsrOe (x : BitVec 4) : (s.setIer x).lsrOe = s.lsrOe := rfl
@[simp] theorem State.setIer_lsrPe (x : BitVec 4) : (s.setIer x).lsrPe = s.lsrPe := rfl
@[simp] theorem State.setIer_lsrFe (x : BitVec 4) : (s.setIer x).lsrFe = s.lsrFe := rfl
@[simp] theorem State.setIer_lsrBi (x : BitVec 4) : (s.setIer x).lsrBi = s.lsrBi := rfl
@[simp] theorem State.setIer_lsrThre (x : BitVec 4) : (s.setIer x).lsrThre = s.lsrThre := rfl
@[simp] theorem State.setIer_lsrTemt (x : BitVec 4) : (s.setIer x).lsrTemt = s.lsrTemt := rfl
@[simp] theorem State.setIer_msr (x : BitVec 4) : (s.setIer x).msr = s.msr := rfl
@[simp] theorem State.setIer_scr (x : BitVec 4) : (s.setIer x).scr = s.scr := rfl
@[simp] theorem State.setIer_rxf (x : BitVec 4) : (s.setIer x).rxf = s.rxf := rfl
@[simp] theorem State.setIer_txf (x : BitVec 4) : (s.setIer x).txf = s.txf := rfl
@[simp] theorem State.setIer_thrIpending (x : BitVec 4) : (s.setIer x).thrIpending = s.thrIpending := rfl
@[simp] theorem State.setIer_timeoutIpending (x : BitVec 4) : (s.setIer x).timeoutIpending = s.timeoutIpending := rfl
@[simp] theorem State.setIer_lastBreakEnable (x : BitVec 4) : (s.setIer x).lastBreakEnable = s.lastBreakEnable := rfl
@[simp] theorem State.setIer_txArmed (x : BitVec 4) : (s.setIer x).txArmed = s.txArmed := rfl
@[simp] theorem State.setIer_txCnt (x : BitVec 4) : (s.setIer x).txCnt = s.txCnt := rfl
@[simp] theorem State.setIer_rxArmed (x : BitVec 4) : (s.setIer x).rxArmed = s.rxArmed := rfl
@[simp] theorem State.setIer_rxCnt (x : BitVec 4) : (s.setIer x).rxCnt = s.rxCnt := rfl
@[simp] theorem State.setIer_stim (x : BitVec 4) : (s.setIer x).stim = s.stim := rfl
@[simp] theorem State.setIer_rdata (x : BitVec 4) : (s.setIer x).rdata = s.rdata := rfl
@[simp] theorem State.setIer_txOut (x : BitVec 4) : (s.setIer x).txOut = s.txOut := rfl
@[simp] theorem State.setIer_sent (x : BitVec 4) : (s.setIer x).sent = s.sent := rfl

/-! ### `setLcr` -/

@[simp] theorem State.setLcr_ceff (v : Byte) : (s.setLcr v).ceff = s.ceff := rfl
@[simp] theorem State.setLcr_trigEff (v : Byte) : (s.setLcr v).trigEff = s.trigEff := rfl
@[simp] theorem State.setLcr_loop (v : Byte) : (s.setLcr v).loop = s.loop := rfl
@[simp] theorem State.setLcr_cfg (v : Byte) : (s.setLcr v).cfg = s.cfg := rfl
@[simp] theorem State.setLcr_dl (v : Byte) : (s.setLcr v).dl = s.dl := rfl
@[simp] theorem State.setLcr_rbr (v : Byte) : (s.setLcr v).rbr = s.rbr := rfl
@[simp] theorem State.setLcr_thr (v : Byte) : (s.setLcr v).thr = s.thr := rfl
@[simp] theorem State.setLcr_tsr (v : Byte) : (s.setLcr v).tsr = s.tsr := rfl
@[simp] theorem State.setLcr_tsrFull (v : Byte) : (s.setLcr v).tsrFull = s.tsrFull := rfl
@[simp] theorem State.setLcr_ier (v : Byte) : (s.setLcr v).ier = s.ier := rfl
@[simp] theorem State.setLcr_fifoen (v : Byte) : (s.setLcr v).fifoen = s.fifoen := rfl
@[simp] theorem State.setLcr_rxtrig (v : Byte) : (s.setLcr v).rxtrig = s.rxtrig := rfl
@[simp] theorem State.setLcr_lcr (v : Byte) : (s.setLcr v).lcr = v := rfl
@[simp] theorem State.setLcr_mcr (v : Byte) : (s.setLcr v).mcr = s.mcr := rfl
@[simp] theorem State.setLcr_lsrOe (v : Byte) : (s.setLcr v).lsrOe = s.lsrOe := rfl
@[simp] theorem State.setLcr_lsrPe (v : Byte) : (s.setLcr v).lsrPe = s.lsrPe := rfl
@[simp] theorem State.setLcr_lsrFe (v : Byte) : (s.setLcr v).lsrFe = s.lsrFe := rfl
@[simp] theorem State.setLcr_lsrBi (v : Byte) : (s.setLcr v).lsrBi = s.lsrBi := rfl
@[simp] theorem State.setLcr_lsrThre (v : Byte) : (s.setLcr v).lsrThre = s.lsrThre := rfl
@[simp] theorem State.setLcr_lsrTemt (v : Byte) : (s.setLcr v).lsrTemt = s.lsrTemt := rfl
@[simp] theorem State.setLcr_msr (v : Byte) : (s.setLcr v).msr = s.msr := rfl
@[simp] theorem State.setLcr_scr (v : Byte) : (s.setLcr v).scr = s.scr := rfl
@[simp] theorem State.setLcr_rxf (v : Byte) : (s.setLcr v).rxf = s.rxf := rfl
@[simp] theorem State.setLcr_txf (v : Byte) : (s.setLcr v).txf = s.txf := rfl
@[simp] theorem State.setLcr_thrIpending (v : Byte) : (s.setLcr v).thrIpending = s.thrIpending := rfl
@[simp] theorem State.setLcr_timeoutIpending (v : Byte) : (s.setLcr v).timeoutIpending = s.timeoutIpending := rfl
@[simp] theorem State.setLcr_lastBreakEnable (v : Byte) : (s.setLcr v).lastBreakEnable = s.lastBreakEnable := rfl
@[simp] theorem State.setLcr_txArmed (v : Byte) : (s.setLcr v).txArmed = s.txArmed := rfl
@[simp] theorem State.setLcr_txCnt (v : Byte) : (s.setLcr v).txCnt = s.txCnt := rfl
@[simp] theorem State.setLcr_rxArmed (v : Byte) : (s.setLcr v).rxArmed = s.rxArmed := rfl
@[simp] theorem State.setLcr_rxCnt (v : Byte) : (s.setLcr v).rxCnt = s.rxCnt := rfl
@[simp] theorem State.setLcr_stim (v : Byte) : (s.setLcr v).stim = s.stim := rfl
@[simp] theorem State.setLcr_rdata (v : Byte) : (s.setLcr v).rdata = s.rdata := rfl
@[simp] theorem State.setLcr_txOut (v : Byte) : (s.setLcr v).txOut = s.txOut := rfl
@[simp] theorem State.setLcr_sent (v : Byte) : (s.setLcr v).sent = s.sent := rfl

/-! ### `setMcr` -/

@[simp] theorem State.setMcr_ceff (x : BitVec 5) : (s.setMcr x).ceff = s.ceff := rfl
@[simp] theorem State.setMcr_trigEff (x : BitVec 5) : (s.setMcr x).trigEff = s.trigEff := rfl
@[simp] theorem State.setMcr_dlab (x : BitVec 5) : (s.setMcr x).dlab = s.dlab := rfl
@[simp] theorem State.setMcr_brk (x : BitVec 5) : (s.setMcr x).brk = s.brk := rfl
@[simp] theorem State.setMcr_charTicks (x : BitVec 5) : (s.setMcr x).charTicks = s.charTicks := rfl
@[simp] theorem State.setMcr_cfg (x : BitVec 5) : (s.setMcr x).cfg = s.cfg := rfl
@[simp] theorem State.setMcr_dl (x : BitVec 5) : (s.setMcr x).dl = s.dl := rfl
@[simp] theorem State.setMcr_rbr (x : BitVec 5) : (s.setMcr x).rbr = s.rbr := rfl
@[simp] theorem State.setMcr_thr (x : BitVec 5) : (s.setMcr x).thr = s.thr := rfl
@[simp] theorem State.setMcr_tsr (x : BitVec 5) : (s.setMcr x).tsr = s.tsr := rfl
@[simp] theorem State.setMcr_tsrFull (x : BitVec 5) : (s.setMcr x).tsrFull = s.tsrFull := rfl
@[simp] theorem State.setMcr_ier (x : BitVec 5) : (s.setMcr x).ier = s.ier := rfl
@[simp] theorem State.setMcr_fifoen (x : BitVec 5) : (s.setMcr x).fifoen = s.fifoen := rfl
@[simp] theorem State.setMcr_rxtrig (x : BitVec 5) : (s.setMcr x).rxtrig = s.rxtrig := rfl
@[simp] theorem State.setMcr_lcr (x : BitVec 5) : (s.setMcr x).lcr = s.lcr := rfl
@[simp] theorem State.setMcr_mcr (x : BitVec 5) : (s.setMcr x).mcr = x := rfl
@[simp] theorem State.setMcr_lsrOe (x : BitVec 5) : (s.setMcr x).lsrOe = s.lsrOe := rfl
@[simp] theorem State.setMcr_lsrPe (x : BitVec 5) : (s.setMcr x).lsrPe = s.lsrPe := rfl
@[simp] theorem State.setMcr_lsrFe (x : BitVec 5) : (s.setMcr x).lsrFe = s.lsrFe := rfl
@[simp] theorem State.setMcr_lsrBi (x : BitVec 5) : (s.setMcr x).lsrBi = s.lsrBi := rfl
@[simp] theorem State.setMcr_lsrThre (x : BitVec 5) : (s.setMcr x).lsrThre = s.lsrThre := rfl
@[simp] theorem State.setMcr_lsrTemt (x : BitVec 5) : (s.setMcr x).lsrTemt = s.lsrTemt := rfl
@[simp] theorem State.setMcr_msr (x : BitVec 5) : (s.setMcr x).msr = s.msr := rfl
@[simp] theorem State.setMcr_scr (x : BitVec 5) : (s.setMcr x).scr = s.scr := rfl
@[simp] theorem State.setMcr_rxf (x : BitVec 5) : (s.setMcr x).rxf = s.rxf := rfl
@[simp] theorem State.setMcr_txf (x : BitVec 5) : (s.setMcr x).txf = s.txf := rfl
@[simp] theorem State.setMcr_thrIpending (x : BitVec 5) : (s.setMcr x).thrIpending = s.thrIpending := rfl
@[simp] theorem State.setMcr_timeoutIpending (x : BitVec 5) : (s.setMcr x).timeoutIpending = s.timeoutIpending := rfl
@[simp] theorem State.setMcr_lastBreakEnable (x : BitVec 5) : (s.setMcr x).lastBreakEnable = s.lastBreakEnable := rfl
@[simp] theorem State.setMcr_txArmed (x : BitVec 5) : (s.setMcr x).txArmed = s.txArmed := rfl
@[simp] theorem State.setMcr_txCnt (x : BitVec 5) : (s.setMcr x).txCnt = s.txCnt := rfl
@[simp] theorem State.setMcr_rxArmed (x : BitVec 5) : (s.setMcr x).rxArmed = s.rxArmed := rfl
@[simp] theorem State.setMcr_rxCnt (x : BitVec 5) : (s.setMcr x).rxCnt = s.rxCnt := rfl
@[simp] theorem State.setMcr_stim (x : BitVec 5) : (s.setMcr x).stim = s.stim := rfl
@[simp] theorem State.setMcr_rdata (x : BitVec 5) : (s.setMcr x).rdata = s.rdata := rfl
@[simp] theorem State.setMcr_txOut (x : BitVec 5) : (s.setMcr x).txOut = s.txOut := rfl
@[simp] theorem State.setMcr_sent (x : BitVec 5) : (s.setMcr x).sent = s.sent := rfl

/-! ### `setScr` -/

@[simp] theorem State.setScr_ceff (v : Byte) : (s.setScr v).ceff = s.ceff := rfl
@[simp] theorem State.setScr_trigEff (v : Byte) : (s.setScr v).trigEff = s.trigEff := rfl
@[simp] theorem State.setScr_loop (v : Byte) : (s.setScr v).loop = s.loop := rfl
@[simp] theorem State.setScr_dlab (v : Byte) : (s.setScr v).dlab = s.dlab := rfl
@[simp] theorem State.setScr_brk (v : Byte) : (s.setScr v).brk = s.brk := rfl
@[simp] theorem State.setScr_charTicks (v : Byte) : (s.setScr v).charTicks = s.charTicks := rfl
@[simp] theorem State.setScr_cfg (v : Byte) : (s.setScr v).cfg = s.cfg := rfl
@[simp] theorem State.setScr_dl (v : Byte) : (s.setScr v).dl = s.dl := rfl
@[simp] theorem State.setScr_rbr (v : Byte) : (s.setScr v).rbr = s.rbr := rfl
@[simp] theorem State.setScr_thr (v : Byte) : (s.setScr v).thr = s.thr := rfl
@[simp] theorem State.setScr_tsr (v : Byte) : (s.setScr v).tsr = s.tsr := rfl
@[simp] theorem State.setScr_tsrFull (v : Byte) : (s.setScr v).tsrFull = s.tsrFull := rfl
@[simp] theorem State.setScr_ier (v : Byte) : (s.setScr v).ier = s.ier := rfl
@[simp] theorem State.setScr_fifoen (v : Byte) : (s.setScr v).fifoen = s.fifoen := rfl
@[simp] theorem State.setScr_rxtrig (v : Byte) : (s.setScr v).rxtrig = s.rxtrig := rfl
@[simp] theorem State.setScr_lcr (v : Byte) : (s.setScr v).lcr = s.lcr := rfl
@[simp] theorem State.setScr_mcr (v : Byte) : (s.setScr v).mcr = s.mcr := rfl
@[simp] theorem State.setScr_lsrOe (v : Byte) : (s.setScr v).lsrOe = s.lsrOe := rfl
@[simp] theorem State.setScr_lsrPe (v : Byte) : (s.setScr v).lsrPe = s.lsrPe := rfl
@[simp] theorem State.setScr_lsrFe (v : Byte) : (s.setScr v).lsrFe = s.lsrFe := rfl
@[simp] theorem State.setScr_lsrBi (v : Byte) : (s.setScr v).lsrBi = s.lsrBi := rfl
@[simp] theorem State.setScr_lsrThre (v : Byte) : (s.setScr v).lsrThre = s.lsrThre := rfl
@[simp] theorem State.setScr_lsrTemt (v : Byte) : (s.setScr v).lsrTemt = s.lsrTemt := rfl
@[simp] theorem State.setScr_msr (v : Byte) : (s.setScr v).msr = s.msr := rfl
@[simp] theorem State.setScr_scr (v : Byte) : (s.setScr v).scr = v := rfl
@[simp] theorem State.setScr_rxf (v : Byte) : (s.setScr v).rxf = s.rxf := rfl
@[simp] theorem State.setScr_txf (v : Byte) : (s.setScr v).txf = s.txf := rfl
@[simp] theorem State.setScr_thrIpending (v : Byte) : (s.setScr v).thrIpending = s.thrIpending := rfl
@[simp] theorem State.setScr_timeoutIpending (v : Byte) : (s.setScr v).timeoutIpending = s.timeoutIpending := rfl
@[simp] theorem State.setScr_lastBreakEnable (v : Byte) : (s.setScr v).lastBreakEnable = s.lastBreakEnable := rfl
@[simp] theorem State.setScr_txArmed (v : Byte) : (s.setScr v).txArmed = s.txArmed := rfl
@[simp] theorem State.setScr_txCnt (v : Byte) : (s.setScr v).txCnt = s.txCnt := rfl
@[simp] theorem State.setScr_rxArmed (v : Byte) : (s.setScr v).rxArmed = s.rxArmed := rfl
@[simp] theorem State.setScr_rxCnt (v : Byte) : (s.setScr v).rxCnt = s.rxCnt := rfl
@[simp] theorem State.setScr_stim (v : Byte) : (s.setScr v).stim = s.stim := rfl
@[simp] theorem State.setScr_rdata (v : Byte) : (s.setScr v).rdata = s.rdata := rfl
@[simp] theorem State.setScr_txOut (v : Byte) : (s.setScr v).txOut = s.txOut := rfl
@[simp] theorem State.setScr_sent (v : Byte) : (s.setScr v).sent = s.sent := rfl

/-! ### `takeRbr` -/

@[simp] theorem State.takeRbr_ceff : s.takeRbr.ceff = s.ceff := rfl
@[simp] theorem State.takeRbr_trigEff : s.takeRbr.trigEff = s.trigEff := rfl
@[simp] theorem State.takeRbr_loop : s.takeRbr.loop = s.loop := rfl
@[simp] theorem State.takeRbr_dlab : s.takeRbr.dlab = s.dlab := rfl
@[simp] theorem State.takeRbr_brk : s.takeRbr.brk = s.brk := rfl
@[simp] theorem State.takeRbr_charTicks : s.takeRbr.charTicks = s.charTicks := rfl
@[simp] theorem State.takeRbr_cfg : s.takeRbr.cfg = s.cfg := rfl
@[simp] theorem State.takeRbr_dl : s.takeRbr.dl = s.dl := rfl
@[simp] theorem State.takeRbr_rbr : s.takeRbr.rbr = if 0 < s.rxf.count then s.rxf.front else s.rbr := rfl
@[simp] theorem State.takeRbr_thr : s.takeRbr.thr = s.thr := rfl
@[simp] theorem State.takeRbr_tsr : s.takeRbr.tsr = s.tsr := rfl
@[simp] theorem State.takeRbr_tsrFull : s.takeRbr.tsrFull = s.tsrFull := rfl
@[simp] theorem State.takeRbr_ier : s.takeRbr.ier = s.ier := rfl
@[simp] theorem State.takeRbr_fifoen : s.takeRbr.fifoen = s.fifoen := rfl
@[simp] theorem State.takeRbr_rxtrig : s.takeRbr.rxtrig = s.rxtrig := rfl
@[simp] theorem State.takeRbr_lcr : s.takeRbr.lcr = s.lcr := rfl
@[simp] theorem State.takeRbr_mcr : s.takeRbr.mcr = s.mcr := rfl
@[simp] theorem State.takeRbr_lsrOe : s.takeRbr.lsrOe = s.lsrOe := rfl
@[simp] theorem State.takeRbr_lsrPe : s.takeRbr.lsrPe = s.lsrPe := rfl
@[simp] theorem State.takeRbr_lsrFe : s.takeRbr.lsrFe = s.lsrFe := rfl
@[simp] theorem State.takeRbr_lsrBi : s.takeRbr.lsrBi = s.lsrBi := rfl
@[simp] theorem State.takeRbr_lsrThre : s.takeRbr.lsrThre = s.lsrThre := rfl
@[simp] theorem State.takeRbr_lsrTemt : s.takeRbr.lsrTemt = s.lsrTemt := rfl
@[simp] theorem State.takeRbr_msr : s.takeRbr.msr = s.msr := rfl
@[simp] theorem State.takeRbr_scr : s.takeRbr.scr = s.scr := rfl
@[simp] theorem State.takeRbr_rxf : s.takeRbr.rxf = if 0 < s.rxf.count then s.rxf.deq s.cfg.fifoDepth else s.rxf := rfl
@[simp] theorem State.takeRbr_txf : s.takeRbr.txf = s.txf := rfl
@[simp] theorem State.takeRbr_thrIpending : s.takeRbr.thrIpending = s.thrIpending := rfl
@[simp] theorem State.takeRbr_timeoutIpending : s.takeRbr.timeoutIpending = s.timeoutIpending := rfl
@[simp] theorem State.takeRbr_lastBreakEnable : s.takeRbr.lastBreakEnable = s.lastBreakEnable := rfl
@[simp] theorem State.takeRbr_txArmed : s.takeRbr.txArmed = s.txArmed := rfl
@[simp] theorem State.takeRbr_txCnt : s.takeRbr.txCnt = s.txCnt := rfl
@[simp] theorem State.takeRbr_rxArmed : s.takeRbr.rxArmed = s.rxArmed := rfl
@[simp] theorem State.takeRbr_rxCnt : s.takeRbr.rxCnt = s.rxCnt := rfl
@[simp] theorem State.takeRbr_stim : s.takeRbr.stim = s.stim := rfl
@[simp] theorem State.takeRbr_rdata : s.takeRbr.rdata = s.rdata := rfl
@[simp] theorem State.takeRbr_txOut : s.takeRbr.txOut = s.txOut := rfl
@[simp] theorem State.takeRbr_sent : s.takeRbr.sent = s.sent := rfl

/-! ### `clearTimeout` -/

@[simp] theorem State.clearTimeout_ceff : s.clearTimeout.ceff = s.ceff := rfl
@[simp] theorem State.clearTimeout_trigEff : s.clearTimeout.trigEff = s.trigEff := rfl
@[simp] theorem State.clearTimeout_loop : s.clearTimeout.loop = s.loop := rfl
@[simp] theorem State.clearTimeout_dlab : s.clearTimeout.dlab = s.dlab := rfl
@[simp] theorem State.clearTimeout_brk : s.clearTimeout.brk = s.brk := rfl
@[simp] theorem State.clearTimeout_charTicks : s.clearTimeout.charTicks = s.charTicks := rfl
@[simp] theorem State.clearTimeout_cfg : s.clearTimeout.cfg = s.cfg := rfl
@[simp] theorem State.clearTimeout_dl : s.clearTimeout.dl = s.dl := rfl
@[simp] theorem State.clearTimeout_rbr : s.clearTimeout.rbr = s.rbr := rfl
@[simp] theorem State.clearTimeout_thr : s.clearTimeout.thr = s.thr := rfl
@[simp] theorem State.clearTimeout_tsr : s.clearTimeout.tsr = s.tsr := rfl
@[simp] theorem State.clearTimeout_tsrFull : s.clearTimeout.tsrFull = s.tsrFull := rfl
@[simp] theorem State.clearTimeout_ier : s.clearTimeout.ier = s.ier := rfl
@[simp] theorem State.clearTimeout_fifoen : s.clearTimeout.fifoen = s.fifoen := rfl
@[simp] theorem State.clearTimeout_rxtrig : s.clearTimeout.rxtrig = s.rxtrig := rfl
@[simp] theorem State.clearTimeout_lcr : s.clearTimeout.lcr = s.lcr := rfl
@[simp] theorem State.clearTimeout_mcr : s.clearTimeout.mcr = s.mcr := rfl
@[simp] theorem State.clearTimeout_lsrOe : s.clearTimeout.lsrOe = s.lsrOe := rfl
@[simp] theorem State.clearTimeout_lsrPe : s.clearTimeout.lsrPe = s.lsrPe := rfl
@[simp] theorem State.clearTimeout_lsrFe : s.clearTimeout.lsrFe = s.lsrFe := rfl
@[simp] theorem State.clearTimeout_lsrBi : s.clearTimeout.lsrBi = s.lsrBi := rfl
@[simp] theorem State.clearTimeout_lsrThre : s.clearTimeout.lsrThre = s.lsrThre := rfl
@[simp] theorem State.clearTimeout_lsrTemt : s.clearTimeout.lsrTemt = s.lsrTemt := rfl
@[simp] theorem State.clearTimeout_msr : s.clearTimeout.msr = s.msr := rfl
@[simp] theorem State.clearTimeout_scr : s.clearTimeout.scr = s.scr := rfl
@[simp] theorem State.clearTimeout_rxf : s.clearTimeout.rxf = s.rxf := rfl
@[simp] theorem State.clearTimeout_txf : s.clearTimeout.txf = s.txf := rfl
@[simp] theorem State.clearTimeout_thrIpending : s.clearTimeout.thrIpending = s.thrIpending := rfl
@[simp] theorem State.clearTimeout_timeoutIpending : s.clearTimeout.timeoutIpending = false := rfl
@[simp] theorem State.clearTimeout_lastBreakEnable : s.clearTimeout.lastBreakEnable = s.lastBreakEnable := rfl
@[simp] theorem State.clearTimeout_txArmed : s.clearTimeout.txArmed = s.txArmed := rfl
@[simp] theorem State.clearTimeout_txCnt : s.clearTimeout.txCnt = s.txCnt := rfl
@[simp] theorem State.clearTimeout_rxArmed : s.clearTimeout.rxArmed = s.rxArmed := rfl
@[simp] theorem State.clearTimeout_rxCnt : s.clearTimeout.rxCnt = s.rxCnt := rfl
@[simp] theorem State.clearTimeout_stim : s.clearTimeout.stim = s.stim := rfl
@[simp] theorem State.clearTimeout_rdata : s.clearTimeout.rdata = s.rdata := rfl
@[simp] theorem State.clearTimeout_txOut : s.clearTimeout.txOut = s.txOut := rfl
@[simp] theorem State.clearTimeout_sent : s.clearTimeout.sent = s.sent := rfl

/-! ### `setFcr` -/

@[simp] theorem State.setFcr_loop (v : Byte) : (s.setFcr v).loop = s.loop := rfl
@[simp] theorem State.setFcr_dlab (v : Byte) : (s.setFcr v).dlab = s.dlab := rfl
@[simp] theorem State.setFcr_brk (v : Byte) : (s.setFcr v).brk = s.brk := rfl
@[simp] theorem State.setFcr_charTicks (v : Byte) : (s.setFcr v).charTicks = s.charTicks := rfl
@[simp] theorem State.setFcr_cfg (v : Byte) : (s.setFcr v).cfg = s.cfg := rfl
@[simp] theorem State.setFcr_dl (v : Byte) : (s.setFcr v).dl = s.dl := rfl
@[simp] theorem State.setFcr_rbr (v : Byte) : (s.setFcr v).rbr = s.rbr := rfl
@[simp] theorem State.setFcr_thr (v : Byte) : (s.setFcr v).thr = s.thr := rfl
@[simp] theorem State.setFcr_tsr (v : Byte) : (s.setFcr v).tsr = s.tsr := rfl
@[simp] theorem State.setFcr_tsrFull (v : Byte) : (s.setFcr v).tsrFull = s.tsrFull := rfl
@[simp] theorem State.setFcr_ier (v : Byte) : (s.setFcr v).ier = s.ier := rfl
@[simp] theorem State.setFcr_fifoen (v : Byte) : (s.setFcr v).fifoen = fcrEnable v := rfl
@[simp] theorem State.setFcr_rxtrig (v : Byte) : (s.setFcr v).rxtrig = fcrTrigger v := rfl
@[simp] theorem State.setFcr_lcr (v : Byte) : (s.setFcr v).lcr = s.lcr := rfl
@[simp] theorem State.setFcr_mcr (v : Byte) : (s.setFcr v).mcr = s.mcr := rfl
@[simp] theorem State.setFcr_lsrOe (v : Byte) : (s.setFcr v).lsrOe = s.lsrOe := rfl
@[simp] theorem State.setFcr_lsrPe (v : Byte) : (s.setFcr v).lsrPe = s.lsrPe := rfl
@[simp] theorem State.setFcr_lsrFe (v : Byte) : (s.setFcr v).lsrFe = s.lsrFe := rfl
@[simp] theorem State.setFcr_lsrBi (v : Byte) : (s.setFcr v).lsrBi = s.lsrBi := rfl
@[simp] theorem State.setFcr_lsrThre (v : Byte) : (s.setFcr v).lsrThre = s.lsrThre := rfl
@[simp] theorem State.setFcr_lsrTemt (v : Byte) : (s.setFcr v).lsrTemt = s.lsrTemt := rfl
@[simp] theorem State.setFcr_msr (v : Byte) : (s.setFcr v).msr = s.msr := rfl
@[simp] theorem State.setFcr_scr (v : Byte) : (s.setFcr v).scr = s.scr := rfl
@[simp] theorem State.setFcr_rxf (v : Byte) : (s.setFcr v).rxf = if fcrRxReset v then s.rxf.clear else s.rxf := rfl
@[simp] theorem State.setFcr_txf (v : Byte) : (s.setFcr v).txf = if fcrTxReset v then s.txf.clear else s.txf := rfl
@[simp] theorem State.setFcr_thrIpending (v : Byte) : (s.setFcr v).thrIpending = s.thrIpending := rfl
@[simp] theorem State.setFcr_timeoutIpending (v : Byte) : (s.setFcr v).timeoutIpending = (s.timeoutIpending && !fcrRxReset v) := rfl
@[simp] theorem State.setFcr_lastBreakEnable (v : Byte) : (s.setFcr v).lastBreakEnable = s.lastBreakEnable := rfl
@[simp] theorem State.setFcr_txArmed (v : Byte) : (s.setFcr v).txArmed = s.txArmed := rfl
@[simp] theorem State.setFcr_txCnt (v : Byte) : (s.setFcr v).txCnt = s.txCnt := rfl
@[simp] theorem State.setFcr_rxArmed (v : Byte) : (s.setFcr v).rxArmed = s.rxArmed := rfl
@[simp] theorem State.setFcr_rxCnt (v : Byte) : (s.setFcr v).rxCnt = s.rxCnt := rfl
@[simp] theorem State.setFcr_stim (v : Byte) : (s.setFcr v).stim = s.stim := rfl
@[simp] theorem State.setFcr_rdata (v : Byte) : (s.setFcr v).rdata = s.rdata := rfl
@[simp] theorem State.setFcr_txOut (v : Byte) : (s.setFcr v).txOut = s.txOut := rfl
@[simp] theorem State.setFcr_sent (v : Byte) : (s.setFcr v).sent = s.sent := rfl

/-! ### `clearThrPending` -/

@[simp] theorem State.clearThrPending_ceff : s.clearThrPending.ceff = s.ceff := rfl
@[simp] theorem State.clearThrPending_trigEff : s.clearThrPending.trigEff = s.trigEff := rfl
@[simp] theorem State.clearThrPending_loop : s.clearThrPending.loop = s.loop := rfl
@[simp] theorem State.clearThrPending_dlab : s.clearThrPending.dlab = s.dlab := rfl
@[simp] theorem State.clearThrPending_brk : s.clearThrPending.brk = s.brk := rfl
@[simp] theorem State.clearThrPending_charTicks : s.clearThrPending.charTicks = s.charTicks := rfl
@[simp] theorem State.clearThrPending_cfg : s.clearThrPending.cfg = s.cfg := rfl
@[simp] theorem State.clearThrPending_dl : s.clearThrPending.dl = s.dl := rfl
@[simp] theorem State.clearThrPending_rbr : s.clearThrPending.rbr = s.rbr := rfl
@[simp] theorem State.clearThrPending_thr : s.clearThrPending.thr = s.thr := rfl
@[simp] theorem State.clearThrPending_tsr : s.clearThrPending.tsr = s.tsr := rfl
@[simp] theorem State.clearThrPending_tsrFull : s.clearThrPending.tsrFull = s.tsrFull := rfl
@[simp] theorem State.clearThrPending_ier : s.clearThrPending.ier = s.ier := rfl
@[simp] theorem State.clearThrPending_fifoen : s.clearThrPending.fifoen = s.fifoen := rfl
@[simp] theorem State.clearThrPending_rxtrig : s.clearThrPending.rxtrig = s.rxtrig := rfl
@[simp] theorem State.clearThrPending_lcr : s.clearThrPending.lcr = s.lcr := rfl
@[simp] theorem State.clearThrPending_mcr : s.clearThrPending.mcr = s.mcr := rfl
@[simp] theorem State.clearThrPending_lsrOe : s.clearThrPending.lsrOe = s.lsrOe := rfl
@[simp] theorem State.clearThrPending_lsrPe : s.clearThrPending.lsrPe = s.lsrPe := rfl
@[simp] theorem State.clearThrPending_lsrFe : s.clearThrPending.lsrFe = s.lsrFe := rfl
@[simp] theorem State.clearThrPending_lsrBi : s.clearThrPending.lsrBi = s.lsrBi := rfl
@[simp] theorem State.clearThrPending_lsrThre : s.clearThrPending.lsrThre = s.lsrThre := rfl
@[simp] theorem State.clearThrPending_lsrTemt : s.clearThrPending.lsrTemt = s.lsrTemt := rfl
@[simp] theorem State.clearThrPending_msr : s.clearThrPending.msr = s.msr := rfl
@[simp] theorem State.clearThrPending_scr : s.clearThrPending.scr = s.scr := rfl
@[simp] theorem State.clearThrPending_rxf : s.clearThrPending.rxf = s.rxf := rfl
@[simp] theorem State.clearThrPending_txf : s.clearThrPending.txf = s.txf := rfl
@[simp] theorem State.clearThrPending_thrIpending : s.clearThrPending.thrIpending = false := rfl
@[simp] theorem State.clearThrPending_timeoutIpending : s.clearThrPending.timeoutIpending = s.timeoutIpending := rfl
@[simp] theorem State.clearThrPending_lastBreakEnable : s.clearThrPending.lastBreakEnable = s.lastBreakEnable := rfl
@[simp] theorem State.clearThrPending_txArmed : s.clearThrPending.txArmed = s.txArmed := rfl
@[simp] theorem State.clearThrPending_txCnt : s.clearThrPending.txCnt = s.txCnt := rfl
@[simp] theorem State.clearThrPending_rxArmed : s.clearThrPending.rxArmed = s.rxArmed := rfl
@[simp] theorem State.clearThrPending_rxCnt : s.clearThrPending.rxCnt = s.rxCnt := rfl
@[simp] theorem State.clearThrPending_stim : s.clearThrPending.stim = s.stim := rfl
@[simp] theorem State.clearThrPending_rdata : s.clearThrPending.rdata = s.rdata := rfl
@[simp] theorem State.clearThrPending_txOut : s.clearThrPending.txOut = s.txOut := rfl
@[simp] theorem State.clearThrPending_sent : s.clearThrPending.sent = s.sent := rfl

/-! ### `clearErrors` -/

@[simp] theorem State.clearErrors_ceff : s.clearErrors.ceff = s.ceff := rfl
@[simp] theorem State.clearErrors_trigEff : s.clearErrors.trigEff = s.trigEff := rfl
@[simp] theorem State.clearErrors_loop : s.clearErrors.loop = s.loop := rfl
@[simp] theorem State.clearErrors_dlab : s.clearErrors.dlab = s.dlab := rfl
@[simp] theorem State.clearErrors_brk : s.clearErrors.brk = s.brk := rfl
@[simp] theorem State.clearErrors_charTicks : s.clearErrors.charTicks = s.charTicks := rfl
@[simp] theorem State.clearErrors_cfg : s.clearErrors.cfg = s.cfg := rfl
@[simp] theorem State.clearErrors_dl : s.clearErrors.dl = s.dl := rfl
@[simp] theorem State.clearErrors_rbr : s.clearErrors.rbr = s.rbr := rfl
@[simp] theorem State.clearErrors_thr : s.clearErrors.thr = s.thr := rfl
@[simp] theorem State.clearErrors_tsr : s.clearErrors.tsr = s.tsr := rfl
@[simp] theorem State.clearErrors_tsrFull : s.clearErrors.tsrFull = s.tsrFull := rfl
@[simp] theorem State.clearErrors_ier : s.clearErrors.ier = s.ier := rfl
@[simp] theorem State.clearErrors_fifoen : s.clearErrors.fifoen = s.fifoen := rfl
@[simp] theorem State.clearErrors_rxtrig : s.clearErrors.rxtrig = s.rxtrig := rfl
@[simp] theorem State.clearErrors_lcr : s.clearErrors.lcr = s.lcr := rfl
@[simp] theorem State.clearErrors_mcr : s.clearErrors.mcr = s.mcr := rfl
@[simp] theorem State.clearErrors_lsrOe : s.clearErrors.lsrOe = false := rfl
@[simp] theorem State.clearErrors_lsrPe : s.clearErrors.lsrPe = false := rfl
@[simp] theorem State.clearErrors_lsrFe : s.clearErrors.lsrFe = false := rfl
@[simp] theorem State.clearErrors_lsrBi : s.clearErrors.lsrBi = false := rfl
@[simp] theorem State.clearErrors_lsrThre : s.clearErrors.lsrThre = s.lsrThre := rfl
@[simp] theorem State.clearErrors_lsrTemt : s.clearErrors.lsrTemt = s.lsrTemt := rfl
@[simp] theorem State.clearErrors_msr : s.clearErrors.msr = s.msr := rfl
@[simp] theorem State.clearErrors_scr : s.clearErrors.scr = s.scr := rfl
@[simp] theorem State.clearErrors_rxf : s.clearErrors.rxf = s.rxf := rfl
@[simp] theorem State.clearErrors_txf : s.clearErrors.txf = s.txf := rfl
@[simp] theorem State.clearErrors_thrIpending : s.clearErrors.thrIpending = s.thrIpending := rfl
@[simp] theorem State.clearErrors_timeoutIpending : s.clearErrors.timeoutIpending = s.timeoutIpending := rfl
@[simp] theorem State.clearErrors_lastBreakEnable : s.clearErrors.lastBreakEnable = s.lastBreakEnable := rfl
@[simp] theorem State.clearErrors_txArmed : s.clearErrors.txArmed = s.txArmed := rfl
@[simp] theorem State.clearErrors_txCnt : s.clearErrors.txCnt = s.txCnt := rfl
@[simp] theorem State.clearErrors_rxArmed : s.clearErrors.rxArmed = s.rxArmed := rfl
@[simp] theorem State.clearErrors_rxCnt : s.clearErrors.rxCnt = s.rxCnt := rfl
@[simp] theorem State.clearErrors_stim : s.clearErrors.stim = s.stim := rfl
@[simp] theorem State.clearErrors_rdata : s.clearErrors.rdata = s.rdata := rfl
@[simp] theorem State.clearErrors_txOut : s.clearErrors.txOut = s.txOut := rfl
@[simp] theorem State.clearErrors_sent : s.clearErrors.sent = s.sent := rfl

/-! ### `clearDeltas` -/

@[simp] theorem State.clearDeltas_ceff : s.clearDeltas.ceff = s.ceff := rfl
@[simp] theorem State.clearDeltas_trigEff : s.clearDeltas.trigEff = s.trigEff := rfl
@[simp] theorem State.clearDeltas_loop : s.clearDeltas.loop = s.loop := rfl
@[simp] theorem State.clearDeltas_dlab : s.clearDeltas.dlab = s.dlab := rfl
@[simp] theorem State.clearDeltas_brk : s.clearDeltas.brk = s.brk := rfl
@[simp] theorem State.clearDeltas_charTicks : s.clearDeltas.charTicks = s.charTicks := rfl
@[simp] theorem State.clearDeltas_cfg : s.clearDeltas.cfg = s.cfg := rfl
@[simp] theorem State.clearDeltas_dl : s.clearDeltas.dl = s.dl := rfl
@[simp] theorem State.clearDeltas_rbr : s.clearDeltas.rbr = s.rbr := rfl
@[simp] theorem State.clearDeltas_thr : s.clearDeltas.thr = s.thr := rfl
@[simp] theorem State.clearDeltas_tsr : s.clearDeltas.tsr = s.tsr := rfl
@[simp] theorem State.clearDeltas_tsrFull : s.clearDeltas.tsrFull = s.tsrFull := rfl
@[simp] theorem State.clearDeltas_ier : s.clearDeltas.ier = s.ier := rfl
@[simp] theorem State.clearDeltas_fifoen : s.clearDeltas.fifoen = s.fifoen := rfl
@[simp] theorem State.clearDeltas_rxtrig : s.clearDeltas.rxtrig = s.rxtrig := rfl
@[simp] theorem State.clearDeltas_lcr : s.clearDeltas.lcr = s.lcr := rfl
@[simp] theorem State.clearDeltas_mcr : s.clearDeltas.mcr = s.mcr := rfl
@[simp] theorem State.clearDeltas_lsrOe : s.clearDeltas.lsrOe = s.lsrOe := rfl
@[simp] theorem State.clearDeltas_lsrPe : s.clearDeltas.lsrPe = s.lsrPe := rfl
@[simp] theorem State.clearDeltas_lsrFe : s.clearDeltas.lsrFe = s.lsrFe := rfl
@[simp] theorem State.clearDeltas_lsrBi : s.clearDeltas.lsrBi = s.lsrBi := rfl
@[simp] theorem State.clearDeltas_lsrThre : s.clearDeltas.lsrThre = s.lsrThre := rfl
@[simp] theorem State.clearDeltas_lsrTemt : s.clearDeltas.lsrTemt = s.lsrTemt := rfl
@[simp] theorem State.clearDeltas_msr : s.clearDeltas.msr = msrLines s.msr ++ 0#4 := rfl
@[simp] theorem State.clearDeltas_scr : s.clearDeltas.scr = s.scr := rfl
@[simp] theorem State.clearDeltas_rxf : s.clearDeltas.rxf = s.rxf := rfl
@[simp] theorem State.clearDeltas_txf : s.clearDeltas.txf = s.txf := rfl
@[simp] theorem State.clearDeltas_thrIpending : s.clearDeltas.thrIpending = s.thrIpending := rfl
@[simp] theorem State.clearDeltas_timeoutIpending : s.clearDeltas.timeoutIpending = s.timeoutIpending := rfl
@[simp] theorem State.clearDeltas_lastBreakEnable : s.clearDeltas.lastBreakEnable = s.lastBreakEnable := rfl
@[simp] theorem State.clearDeltas_txArmed : s.clearDeltas.txArmed = s.txArmed := rfl
@[simp] theorem State.clearDeltas_txCnt : s.clearDeltas.txCnt = s.txCnt := rfl
@[simp] theorem State.clearDeltas_rxArmed : s.clearDeltas.rxArmed = s.rxArmed := rfl
@[simp] theorem State.clearDeltas_rxCnt : s.clearDeltas.rxCnt = s.rxCnt := rfl
@[simp] theorem State.clearDeltas_stim : s.clearDeltas.stim = s.stim := rfl
@[simp] theorem State.clearDeltas_rdata : s.clearDeltas.rdata = s.rdata := rfl
@[simp] theorem State.clearDeltas_txOut : s.clearDeltas.txOut = s.txOut := rfl
@[simp] theorem State.clearDeltas_sent : s.clearDeltas.sent = s.sent := rfl

/-! ### `afterFetch` -/

@[simp] theorem afterFetch_ceff : (afterFetch s).ceff = s.ceff := rfl
@[simp] theorem afterFetch_trigEff : (afterFetch s).trigEff = s.trigEff := rfl
@[simp] theorem afterFetch_loop : (afterFetch s).loop = s.loop := rfl
@[simp] theorem afterFetch_dlab : (afterFetch s).dlab = s.dlab := rfl
@[simp] theorem afterFetch_brk : (afterFetch s).brk = s.brk := rfl
@[simp] theorem afterFetch_charTicks : (afterFetch s).charTicks = s.charTicks := rfl
@[simp] theorem afterFetch_cfg : (afterFetch s).cfg = s.cfg := rfl
@[simp] theorem afterFetch_dl : (afterFetch s).dl = s.dl := rfl
@[simp] theorem afterFetch_rbr : (afterFetch s).rbr = s.rbr := rfl
@[simp] theorem afterFetch_thr : (afterFetch s).thr = s.thr := rfl
@[simp] theorem afterFetch_tsr : (afterFetch s).tsr = s.tsr := rfl
@[simp] theorem afterFetch_tsrFull : (afterFetch s).tsrFull = s.tsrFull := rfl
@[simp] theorem afterFetch_ier : (afterFetch s).ier = s.ier := rfl
@[simp] theorem afterFetch_fifoen : (afterFetch s).fifoen = s.fifoen := rfl
@[simp] theorem afterFetch_rxtrig : (afterFetch s).rxtrig = s.rxtrig := rfl
@[simp] theorem afterFetch_lcr : (afterFetch s).lcr = s.lcr := rfl
@[simp] theorem afterFetch_mcr : (afterFetch s).mcr = s.mcr := rfl
@[simp] theorem afterFetch_lsrOe : (afterFetch s).lsrOe = s.lsrOe := rfl
@[simp] theorem afterFetch_lsrPe : (afterFetch s).lsrPe = s.lsrPe := rfl
@[simp] theorem afterFetch_lsrFe : (afterFetch s).lsrFe = s.lsrFe := rfl
@[simp] theorem afterFetch_lsrBi : (afterFetch s).lsrBi = s.lsrBi := rfl
@[simp] theorem afterFetch_lsrThre : (afterFetch s).lsrThre = s.lsrThre := rfl
@[simp] theorem afterFetch_lsrTemt : (afterFetch s).lsrTemt = s.lsrTemt := rfl
@[simp] theorem afterFetch_msr : (afterFetch s).msr = s.msr := rfl
@[simp] theorem afterFetch_scr : (afterFetch s).scr = s.scr := rfl
@[simp] theorem afterFetch_rxf : (afterFetch s).rxf = s.rxf := rfl
@[simp] theorem afterFetch_txf : (afterFetch s).txf = s.txf := rfl
@[simp] theorem afterFetch_thrIpending : (afterFetch s).thrIpending = s.thrIpending := rfl
@[simp] theorem afterFetch_timeoutIpending : (afterFetch s).timeoutIpending = s.timeoutIpending := rfl
@[simp] theorem afterFetch_lastBreakEnable : (afterFetch s).lastBreakEnable = s.lastBreakEnable := rfl
@[simp] theorem afterFetch_txArmed : (afterFetch s).txArmed = s.txArmed := rfl
@[simp] theorem afterFetch_txCnt : (afterFetch s).txCnt = s.txCnt := rfl
@[simp] theorem afterFetch_rxArmed : (afterFetch s).rxArmed = s.rxArmed := rfl
@[simp] theorem afterFetch_rxCnt : (afterFetch s).rxCnt = s.rxCnt := rfl
@[simp] theorem afterFetch_stim : (afterFetch s).stim = s.stim.tail := rfl
@[simp] theorem afterFetch_rdata : (afterFetch s).rdata = s.rdata := rfl
@[simp] theorem afterFetch_txOut : (afterFetch s).txOut = s.txOut := rfl
@[simp] theorem afterFetch_sent : (afterFetch s).sent = s.sent := rfl

/-! ### `presentFirst` -/

@[simp] theorem presentFirst_ceff (w : Word) : (presentFirst s w).ceff = s.ceff := rfl
@[simp] theorem presentFirst_trigEff (w : Word) : (presentFirst s w).trigEff = s.trigEff := rfl
@[simp] theorem presentFirst_loop (w : Word) : (presentFirst s w).loop = s.loop := rfl
@[simp] theorem presentFirst_dlab (w : Word) : (presentFirst s w).dlab = s.dlab := rfl
@[simp] theorem presentFirst_brk (w : Word) : (presentFirst s w).brk = s.brk := rfl
@[simp] theorem presentFirst_charTicks (w : Word) : (presentFirst s w).charTicks = s.charTicks := rfl
@[simp] theorem presentFirst_cfg (w : Word) : (presentFirst s w).cfg = s.cfg := rfl
@[simp] theorem presentFirst_dl (w : Word) : (presentFirst s w).dl = s.dl := rfl
@[simp] theorem presentFirst_rbr (w : Word) : (presentFirst s w).rbr = s.rbr := rfl
@[simp] theorem presentFirst_thr (w : Word) : (presentFirst s w).thr = s.thr := rfl
@[simp] theorem presentFirst_tsr (w : Word) : (presentFirst s w).tsr = s.tsr := rfl
@[simp] theorem presentFirst_tsrFull (w : Word) : (presentFirst s w).tsrFull = s.tsrFull := rfl
@[simp] theorem presentFirst_ier (w : Word) : (presentFirst s w).ier = s.ier := rfl
@[simp] theorem presentFirst_fifoen (w : Word) : (presentFirst s w).fifoen = s.fifoen := rfl
@[simp] theorem presentFirst_rxtrig (w : Word) : (presentFirst s w).rxtrig = s.rxtrig := rfl
@[simp] theorem presentFirst_lcr (w : Word) : (presentFirst s w).lcr = s.lcr := rfl
@[simp] theorem presentFirst_mcr (w : Word) : (presentFirst s w).mcr = s.mcr := rfl
@[simp] theorem presentFirst_lsrOe (w : Word) : (presentFirst s w).lsrOe = s.lsrOe := rfl
@[simp] theorem presentFirst_lsrPe (w : Word) : (presentFirst s w).lsrPe = s.lsrPe := rfl
@[simp] theorem presentFirst_lsrFe (w : Word) : (presentFirst s w).lsrFe = s.lsrFe := rfl
@[simp] theorem presentFirst_lsrBi (w : Word) : (presentFirst s w).lsrBi = s.lsrBi := rfl
@[simp] theorem presentFirst_lsrThre (w : Word) : (presentFirst s w).lsrThre = s.lsrThre := rfl
@[simp] theorem presentFirst_lsrTemt (w : Word) : (presentFirst s w).lsrTemt = s.lsrTemt := rfl
@[simp] theorem presentFirst_msr (w : Word) : (presentFirst s w).msr = s.msr := rfl
@[simp] theorem presentFirst_scr (w : Word) : (presentFirst s w).scr = s.scr := rfl
@[simp] theorem presentFirst_rxf (w : Word) : (presentFirst s w).rxf = s.rxf := rfl
@[simp] theorem presentFirst_txf (w : Word) : (presentFirst s w).txf = s.txf := rfl
@[simp] theorem presentFirst_thrIpending (w : Word) : (presentFirst s w).thrIpending = s.thrIpending := rfl
@[simp] theorem presentFirst_timeoutIpending (w : Word) : (presentFirst s w).timeoutIpending = s.timeoutIpending := rfl
@[simp] theorem presentFirst_lastBreakEnable (w : Word) : (presentFirst s w).lastBreakEnable = s.lastBreakEnable := rfl
@[simp] theorem presentFirst_txArmed (w : Word) : (presentFirst s w).txArmed = s.txArmed := rfl
@[simp] theorem presentFirst_txCnt (w : Word) : (presentFirst s w).txCnt = s.txCnt := rfl
@[simp] theorem presentFirst_rxArmed (w : Word) : (presentFirst s w).rxArmed = s.rxArmed := rfl
@[simp] theorem presentFirst_rxCnt (w : Word) : (presentFirst s w).rxCnt = s.rxCnt := rfl
@[simp] theorem presentFirst_stim (w : Word) : (presentFirst s w).stim = w :: s.stim := rfl
@[simp] theorem presentFirst_rdata (w : Word) : (presentFirst s w).rdata = s.rdata := rfl
@[simp] theorem presentFirst_txOut (w : Word) : (presentFirst s w).txOut = s.txOut := rfl
@[simp] theorem presentFirst_sent (w : Word) : (presentFirst s w).sent = s.sent := rfl

end Sys2Proof.Machine
end

