-- ==== Sys2Proof/Laws/Step.lean ====
section
/-! SUPPORT. Laws/Step.lean: one event, one step and a run of steps, said once. -/

namespace Sys2Proof.Machine

theorem runWord_ok {w : Word} {s : State} {i : Instr} (h : decode s.dlab w = .ok i) :
    runWord w s = exec i s.clearOutputs := by simp [runWord, h]

theorem runWord_error {w : Word} {s : State} {r : Reject} (h : decode s.dlab w = .error r) :
    runWord w s = .refused (.notAnEvent r) := by simp [runWord, h]

/-- A one-byte access at an offset of the space is the operation R81 selects (R64). -/
theorem busAccess_byte (we : Bool) {off : Nat} (h : off < 8) (v : Byte) (s : State) :
    busAccess we off 1 v s = exec (selectBus s.dlab we (BitVec.ofNat 3 off) v) s.clearOutputs := by
  unfold busAccess
  rw [if_neg (by simp), if_neg (by omega), runWord_ok (decode_busWord ..)]

theorem step_of_nil {s : State} (h : s.stim = []) : step s = .refused .noEvent := by simp [step, fetchWord, h]

theorem step_of_cons {s : State} {w : Word} {ws : List Word} (h : s.stim = w :: ws) :
    step s = runWord w (afterFetch s) := by simp [step, fetchWord, h]

/-- A step whose next word spells an event runs that event (R3, R82). -/
theorem step_of_decode {s : State} {w : Word} {ws : List Word} {i : Instr} (h : s.stim = w :: ws)
    (hd : decode s.dlab w = .ok i) : step s = exec i (afterFetch s).clearOutputs := by
  rw [step_of_cons h, runWord_ok (by simpa using hd)]

/-- A step whose next word spells no event is refused (R89). -/
theorem step_of_reject {s : State} {w : Word} {ws : List Word} {r : Reject} (h : s.stim = w :: ws)
    (hd : decode s.dlab w = .error r) : step s = .refused (.notAnEvent r) := by
  rw [step_of_cons h, runWord_error (by simpa using hd)]

/-- What a step that answers a next state was: the first word of the queue decoded to an event and that event ran. -/
theorem step_eq_next {s t : State} (h : step s = .next t) :
    ∃ w ws i, s.stim = w :: ws ∧ decode s.dlab w = .ok i ∧ exec i (afterFetch s).clearOutputs = .next t := by
  rcases hs : s.stim with _ | ⟨w, ws⟩
  · rw [step_of_nil hs] at h; cases h
  · rcases hd : decode s.dlab w with r | i
    · rw [step_of_reject hs hd] at h; cases h
    · rw [step_of_decode hs hd] at h
      exact ⟨w, ws, i, rfl, hd, h⟩

theorem core_run_zero (s : State) : core.run 0 s = .next s := rfl

/-- A run whose first step answers a next state goes on from it. -/
theorem core_run_succ {s t : State} (n : Nat) (h : step s = .next t) : core.run (n + 1) s = core.run n t := by
  have h' : core.step s = .next t := h
  simp only [Host.Core.run, h']

/-- A run of a positive number of steps that answers a next state took a first step that did. -/
theorem core_run_succ_eq_next {s u : State} {n : Nat} (h : core.run (n + 1) s = .next u) :
    ∃ t : State, step s = .next t ∧ core.run n t = .next u := by
  have hstep : core.step s = step s := rfl
  simp only [Host.Core.run, hstep] at h
  split at h
  · next t ht => exact ⟨t, ht, h⟩
  · cases h
  · cases h

end Sys2Proof.Machine
end

