-- ==== Sys2Proof/Laws/Cycle.lean ====
section
/-! SUPPORT. Laws/Cycle.lean: the outputs of a clock cycle, field by field, and a cycle against the run of its events. -/

namespace Sys2Proof.Machine

@[simp] theorem CycleOutputs.idle_rdata (s : State) : (CycleOutputs.idle s).rdata = none := rfl
@[simp] theorem CycleOutputs.idle_tx (s : State) : (CycleOutputs.idle s).tx = [] := rfl
@[simp] theorem CycleOutputs.afterEvent_rdata (o : CycleOutputs) (t : State) :
    (o.afterEvent t).rdata = t.rdata.or o.rdata := rfl
@[simp] theorem CycleOutputs.afterEvent_tx (o : CycleOutputs) (t : State) :
    (o.afterEvent t).tx = o.tx ++ t.txOut.toList := rfl

/-- R51: the levels of `o` are those of `t`. -/
def CycleOutputs.LevelsOf (o : CycleOutputs) (t : State) : Prop :=
  o = { CycleOutputs.idle t with rdata := o.rdata, tx := o.tx }

theorem CycleOutputs.levelsOf_idle (s : State) : (CycleOutputs.idle s).LevelsOf s := rfl

theorem CycleOutputs.levelsOf_afterEvent (o : CycleOutputs) (t : State) : (o.afterEvent t).LevelsOf t := rfl

@[simp] theorem runCycle_zero (o : CycleOutputs) (s : State) : runCycle o 0 s = .next (o, s) := rfl

/-- A cycle whose first event led to `t` goes on from there. -/
theorem runCycle_succ {s t : State} (o : CycleOutputs) (n : Nat) (h : step s = .next t) :
    runCycle o (n + 1) s = runCycle (o.afterEvent t) n t := by simp only [runCycle, h]

/-- A cycle of one step more is the cycle before it, then the step. -/
theorem runCycle_append {o o' : CycleOutputs} {s t : State} {n : Nat} (m : Nat)
    (h : runCycle o n s = .next (o', t)) : runCycle o (n + m) s = runCycle o' m t := by
  induction n generalizing o s with
  | zero => cases h; rw [Nat.zero_add]
  | succ n ih =>
    rcases hs : step s with u | f | r
    · rw [runCycle_succ o n hs] at h
      rw [Nat.add_right_comm, runCycle_succ o (n + m) hs, ih h]
    · simp [runCycle, hs] at h
    · simp [runCycle, hs] at h

/-- A cycle leaves the state that the run of its events leaves. -/
theorem core_run_of_runCycle {o o' : CycleOutputs} {s t : State} {n : Nat} (h : runCycle o n s = .next (o', t)) :
    core.run n s = .next t := by
  induction n generalizing o s with
  | zero => cases h; rfl
  | succ n ih =>
    rcases hs : step s with u | f | r
    · rw [runCycle_succ o n hs] at h
      rw [core_run_succ n hs, ih h]
    · simp [runCycle, hs] at h
    · simp [runCycle, hs] at h

/-- A cycle runs to its end when the run of its events does. -/
theorem runCycle_of_core_run {s t : State} {n : Nat} (o : CycleOutputs) (h : core.run n s = .next t) :
    ∃ o' : CycleOutputs, runCycle o n s = .next (o', t) := by
  induction n generalizing o s with
  | zero => cases h; exact ⟨o, rfl⟩
  | succ n ih =>
    obtain ⟨u, hs, hu⟩ := core_run_succ_eq_next h
    rw [runCycle_succ o n hs]
    exact ih _ hu

/-- The levels at the end of a cycle are those of the state it leaves. -/
theorem levelsOf_of_runCycle {o o' : CycleOutputs} {s t : State} {n : Nat} (ho : o.LevelsOf s)
    (h : runCycle o n s = .next (o', t)) : o'.LevelsOf t := by
  induction n generalizing o s with
  | zero => cases h; exact ho
  | succ n ih =>
    rcases hs : step s with u | f | r
    · rw [runCycle_succ o n hs] at h
      exact ih (o.levelsOf_afterEvent u) h
    · simp [runCycle, hs] at h
    · simp [runCycle, hs] at h

/-- With nothing waiting, a cycle's events are the queue. -/
theorem presentCycle_of_nil {s : State} (p : Pins) (order : List Source) (h : s.stim = []) :
    s.presentCycle p order = { s with stim := p.events order } := by simp [State.presentCycle, h]

theorem clockCycle_of_nil {s : State} (p : Pins) (order : List Source) (h : s.stim = []) :
    clockCycle p order s =
      runCycle (CycleOutputs.idle s) (p.events order).length { s with stim := p.events order } := by
  simp [clockCycle, h]

end Sys2Proof.Machine
end

