-- ==== Sys2Proof/Laws/Fifo.lean ====
section
/-! SUPPORT. Laws/Fifo.lean: one spec lemma per FIFO primitive, in terms of the queue of bytes it holds
(spec/10_state.md R35, spec/41_fifo_and_receive.md R140 to R144). -/

namespace Sys2Proof.Machine

@[simp] theorem Fifo.enq_data (c : Nat) (f : Fifo) (d : Byte) : (f.enq c d).data = f.data.set f.head d := rfl
@[simp] theorem Fifo.enq_head (c : Nat) (f : Fifo) (d : Byte) : (f.enq c d).head = (f.head + 1) % c := rfl
@[simp] theorem Fifo.enq_tail (c : Nat) (f : Fifo) (d : Byte) : (f.enq c d).tail = f.tail := rfl
@[simp] theorem Fifo.enq_count (c : Nat) (f : Fifo) (d : Byte) : (f.enq c d).count = f.count + 1 := rfl
@[simp] theorem Fifo.deq_data (c : Nat) (f : Fifo) : (f.deq c).data = f.data := rfl
@[simp] theorem Fifo.deq_head (c : Nat) (f : Fifo) : (f.deq c).head = f.head := rfl
@[simp] theorem Fifo.deq_tail (c : Nat) (f : Fifo) : (f.deq c).tail = (f.tail + 1) % c := rfl
@[simp] theorem Fifo.deq_count (c : Nat) (f : Fifo) : (f.deq c).count = f.count - 1 := rfl
@[simp] theorem Fifo.clear_data (f : Fifo) : f.clear.data = f.data := rfl
@[simp] theorem Fifo.clear_head (f : Fifo) : f.clear.head = 0 := rfl
@[simp] theorem Fifo.clear_tail (f : Fifo) : f.clear.tail = 0 := rfl
@[simp] theorem Fifo.clear_count (f : Fifo) : f.clear.count = 0 := rfl
@[simp] theorem Fifo.replaceNewest_data (c : Nat) (f : Fifo) (v : Byte) :
    (f.replaceNewest c v).data = f.data.set ((f.head + c - 1) % c) v := rfl
@[simp] theorem Fifo.replaceNewest_head (c : Nat) (f : Fifo) (v : Byte) : (f.replaceNewest c v).head = f.head := rfl
@[simp] theorem Fifo.replaceNewest_tail (c : Nat) (f : Fifo) (v : Byte) : (f.replaceNewest c v).tail = f.tail := rfl
@[simp] theorem Fifo.replaceNewest_count (c : Nat) (f : Fifo) (v : Byte) : (f.replaceNewest c v).count = f.count := rfl

/-- Two indices of one ring that start at `t` and stay within one turn meet only if their offsets agree. -/
theorem ring_index_inj {c t j k : Nat} (hj : j < c) (hk : k < c) (h : (t + j) % c = (t + k) % c) : j = k := by
  have : j % c = k % c := Nat.ModEq.add_left_cancel' t h
  rwa [Nat.mod_eq_of_lt hj, Nat.mod_eq_of_lt hk] at this

@[simp] theorem Fifo.length_contents (c : Nat) (f : Fifo) : (f.contents c).length = f.count := by
  simp [Fifo.contents]

theorem Fifo.contents_eq_nil_iff {c : Nat} {f : Fifo} : f.contents c = [] ↔ f.count = 0 := by
  rw [← List.length_eq_zero_iff, Fifo.length_contents]

theorem Fifo.count_pos_of_contents_cons {c : Nat} {f : Fifo} {b : Byte} {bs : List Byte}
    (h : f.contents c = b :: bs) : 0 < f.count := by
  rw [← Fifo.length_contents c f, h]; simp

/-- R140: a byte is appended behind the queued ones. -/
theorem Fifo.contents_enq {c : Nat} {f : Fifo} (h : f.Wf c) (hroom : f.count < c) (d : Byte) :
    (f.enq c d).contents c = f.contents c ++ [d] := by
  obtain ⟨hlen, hhead, -, -, hring⟩ := h
  simp only [Fifo.contents, Fifo.enq, List.range_succ, List.map_append, List.map_cons, List.map_nil]
  congr 1
  · refine List.map_congr_left fun k hk => ?_
    have hk : k < f.count := List.mem_range.mp hk
    have : f.head ≠ (f.tail + k) % c := fun e =>
      absurd (ring_index_inj (by omega) (by omega) (hring.symm.trans e)) (by omega)
    simp [List.getD_eq_getElem?_getD, this]
  · simp [← hring, List.getD_eq_getElem?_getD, hlen, hhead]

theorem Fifo.wf_enq {c : Nat} {f : Fifo} (h : f.Wf c) (hroom : f.count < c) (d : Byte) : (f.enq c d).Wf c := by
  obtain ⟨hlen, hhead, htail, -, hring⟩ := h
  refine ⟨by simp [hlen], Nat.mod_lt _ (by omega), htail, hroom, ?_⟩
  simp only [Fifo.enq_head, Fifo.enq_tail, Fifo.enq_count]
  rw [hring, Nat.mod_add_mod, Nat.add_assoc]

/-- R141: the oldest byte leaves and the others keep their order. -/
theorem Fifo.contents_deq {c : Nat} {f : Fifo} (h : f.Wf c) (hne : 0 < f.count) :
    f.contents c = f.front :: (f.deq c).contents c := by
  obtain ⟨-, -, htail, -, -⟩ := h
  obtain ⟨n, hn⟩ : ∃ n, f.count = n + 1 := ⟨f.count - 1, by omega⟩
  simp only [Fifo.contents, Fifo.deq, Fifo.front, hn, Nat.add_sub_cancel, List.range_succ_eq_map, List.map_cons,
    List.map_map, Nat.add_zero, Nat.mod_eq_of_lt htail]
  congr 1
  refine List.map_congr_left fun k _ => ?_
  simp only [Function.comp_apply, Nat.succ_eq_add_one]
  rw [Nat.mod_add_mod, Nat.add_assoc, Nat.add_comm 1 k]

theorem Fifo.wf_deq {c : Nat} {f : Fifo} (h : f.Wf c) (hne : 0 < f.count) : (f.deq c).Wf c := by
  obtain ⟨hlen, hhead, htail, hcount, hring⟩ := h
  refine ⟨hlen, hhead, Nat.mod_lt _ (by omega), by simp only [Fifo.deq_count]; omega, ?_⟩
  simp only [Fifo.deq_head, Fifo.deq_tail, Fifo.deq_count]
  rw [hring, Nat.mod_add_mod]
  congr 1
  omega

/-- R142: a reset FIFO holds nothing. -/
@[simp] theorem Fifo.contents_clear (c : Nat) (f : Fifo) : f.clear.contents c = [] := rfl

theorem Fifo.wf_clear {c : Nat} {f : Fifo} (hlen : f.data.length = c) (hc : 1 ≤ c) : f.clear.Wf c :=
  ⟨hlen, by simp; omega, by simp; omega, Nat.zero_le _, by simp⟩

/-- The newest entry stands at the index before `head` (R150). -/
theorem Fifo.newest_index {c : Nat} {f : Fifo} (h : f.Wf c) (hne : 0 < f.count) :
    (f.head + c - 1) % c = (f.tail + (f.count - 1)) % c := by
  obtain ⟨-, hhead, htail, hcount, hring⟩ := h
  rcases Nat.lt_or_ge (f.tail + f.count) c with hlt | hge
  · rw [hring, Nat.mod_eq_of_lt hlt]
    have : f.tail + f.count + c - 1 = f.tail + (f.count - 1) + c := by omega
    rw [this, Nat.add_mod_right]
  · have hmod : (f.tail + f.count) % c = f.tail + f.count - c := by
      rw [Nat.mod_eq_sub_mod hge, Nat.mod_eq_of_lt (by omega)]
    rw [hring, hmod]
    congr 1
    omega

/-- R144: the newest byte is replaced and the others stay. -/
theorem Fifo.contents_replaceNewest {c : Nat} {f : Fifo} (h : f.Wf c) (hne : 0 < f.count) (v : Byte) :
    (f.replaceNewest c v).contents c = (f.contents c).dropLast ++ [v] := by
  have hidx := Fifo.newest_index h hne
  obtain ⟨hlen, hhead, htail, hcount, hring⟩ := h
  obtain ⟨n, hn⟩ : ∃ n, f.count = n + 1 := ⟨f.count - 1, by omega⟩
  rw [hn, Nat.add_sub_cancel] at hidx
  simp only [Fifo.contents, Fifo.replaceNewest, hn, List.range_succ, List.map_append, List.map_cons, List.map_nil,
    List.dropLast_concat]
  congr 1
  · refine List.map_congr_left fun k hk => ?_
    have hk : k < n := List.mem_range.mp hk
    have : (f.head + c - 1) % c ≠ (f.tail + k) % c := fun e =>
      absurd (ring_index_inj (by omega) (by omega) (hidx.symm.trans e)) (by omega)
    simp [List.getD_eq_getElem?_getD, this]
  · have hlt : (f.tail + n) % c < c := Nat.mod_lt _ (by omega)
    simp [hidx, List.getD_eq_getElem?_getD, hlen, hlt]

theorem Fifo.wf_replaceNewest {c : Nat} {f : Fifo} (h : f.Wf c) (v : Byte) : (f.replaceNewest c v).Wf c := by
  obtain ⟨hlen, hhead, htail, hcount, hring⟩ := h
  exact ⟨by simp [hlen], hhead, htail, hcount, hring⟩

theorem Fifo.wf_fresh {c : Nat} (hc : 1 ≤ c) : (Fifo.fresh c).Wf c := by
  simp [Fifo.Wf, Fifo.fresh]; omega

end Sys2Proof.Machine
end

