-- ==== Sys2Proof/Laws/Ops.lean ====
section
/-! SUPPORT. Laws/Ops.lean: what each shared operation of Machine/Ops.lean can do, said once: its frame and its cases,
cited instead of unfolding it. -/

namespace Sys2Proof.Machine

/-! ### Selectors depend on few fields -/

theorem State.ceff_le {s : State} (h : 1 ≤ s.cfg.fifoDepth) : s.ceff ≤ s.cfg.fifoDepth := by
  unfold State.ceff; split <;> omega

theorem State.ceff_pos {s : State} (h : 1 ≤ s.cfg.fifoDepth) : 1 ≤ s.ceff := by
  unfold State.ceff; split <;> omega

theorem State.rxFull_eq_true {s : State} : s.rxFull = true ↔ s.ceff ≤ s.rxf.count := by simp [State.rxFull]

theorem State.rxFull_eq_false {s : State} : s.rxFull = false ↔ s.rxf.count < s.ceff := by simp [State.rxFull]

theorem State.txRoom_eq_true {s : State} : s.txRoom = true ↔ s.txf.count < s.ceff := by simp [State.txRoom]

theorem State.rxtoWanted_eq_true {s : State} :
    s.rxtoWanted = true ↔ s.fifoen = true ∧ 0 < s.rxf.count ∧ s.rxf.count < s.trigEff := by
  simp [State.rxtoWanted]

theorem State.fireTx_eq_true {s : State} : s.fireTx = true ↔ s.txArmed = true ∧ s.txCnt = 1 := by simp [State.fireTx]

theorem State.fireRx_eq_true {s : State} : s.fireRx = true ↔ s.rxArmed = true ∧ s.rxCnt = 1 := by simp [State.fireRx]

/-- A loaded count is never 0 (R172). -/
theorem State.charTicks_pos {s : State} (h : 1 ≤ s.cfg.prescale) : 7 ≤ s.charTicks := by
  have hd : 1 ≤ s.effDiv := by
    unfold State.effDiv
    split
    · omega
    · next hz => exact Nat.one_le_iff_ne_zero.mpr fun e => hz (BitVec.eq_of_toNat_eq (by simpa using e))
  have hf : 7 ≤ s.frameBits := by unfold State.frameBits; split <;> split <;> omega
  calc 7 = 7 * 1 * 1 := rfl
    _ ≤ s.frameBits * s.cfg.prescale * s.effDiv := Nat.mul_le_mul (Nat.mul_le_mul hf h) hd

theorem State.timeoutTicks_pos {s : State} (h : s.cfg.Valid) : 1 ≤ s.timeoutTicks :=
  Nat.mul_pos h.2.2.2.2.1 (by have := State.charTicks_pos (s := s) h.2.2.2.1; omega)

/-! ### Receive path -/

/-- R145: the fields `rxto_restart` writes, and that it writes no other. -/
theorem State.rxtoRestart_frame (s : State) :
    s.rxtoRestart = { s with rxArmed := s.rxtoRestart.rxArmed, rxCnt := s.rxtoRestart.rxCnt } := rfl

/-- R145: after `rxto_restart` the timer is in line with the FIFO. -/
theorem State.rxtoRestart_timerInLine (s : State) : s.rxtoRestart.TimerInLine s.rxCnt := by
  constructor
  · intro h
    have : s.rxtoWanted = true := State.rxtoWanted_eq_true.mpr h
    exact ⟨this, by simp only [State.rxtoRestart, this]; rfl⟩
  · intro h
    have : s.rxtoWanted = false := by
      rw [← Bool.not_eq_true]; exact fun e => h (State.rxtoWanted_eq_true.mp e)
    exact ⟨this, by simp [State.rxtoRestart, this]⟩

/-- R146: the fields `rx_accept` writes, and that it writes no other. -/
theorem State.rxAccept_frame (s : State) (d : Byte) (pe fe bi : Bool) :
    s.rxAccept d pe fe bi = { s with
      rxf := if s.rxFull then s.rxf else s.rxf.enq s.cfg.fifoDepth d
      lsrOe := s.lsrOe || s.rxFull, lsrPe := s.lsrPe || pe, lsrFe := s.lsrFe || fe, lsrBi := s.lsrBi || bi
      rxArmed := (s.rxAccept d pe fe bi).rxArmed, rxCnt := (s.rxAccept d pe fe bi).rxCnt } := rfl

theorem State.rxAccept_timerInLine (s : State) (d : Byte) (pe fe bi : Bool) :
    (s.rxAccept d pe fe bi).TimerInLine s.rxCnt := State.rxtoRestart_timerInLine _

/-- R146 with room. -/
theorem State.rxAccept_room {s : State} (d : Byte) (pe fe bi : Bool) (h : s.rxf.count < s.ceff) :
    (s.rxAccept d pe fe bi).rxf = s.rxf.enq s.cfg.fifoDepth d ∧ (s.rxAccept d pe fe bi).lsrOe = s.lsrOe := by
  rw [State.rxAccept_frame]; simp [State.rxFull_eq_false.mpr h]

/-- R146 without room: overrun. -/
theorem State.rxAccept_overrun {s : State} (d : Byte) (pe fe bi : Bool) (h : s.ceff ≤ s.rxf.count) :
    (s.rxAccept d pe fe bi).rxf = s.rxf ∧ (s.rxAccept d pe fe bi).lsrOe = true := by
  rw [State.rxAccept_frame]; simp [State.rxFull_eq_true.mpr h]

/-! ### Transmit path -/

/-- R144 with room. -/
theorem State.txfWith_room {s : State} (v : Byte) (h : s.txf.count < s.ceff) :
    s.txfWith v = s.txf.enq s.cfg.fifoDepth v := by
  simp [State.txfWith, State.txRoom_eq_true.mpr h]

/-- R144 without room, policy `drop`. -/
theorem State.txfWith_full_drop {s : State} (v : Byte) (h : s.ceff ≤ s.txf.count)
    (hp : s.cfg.txFullPolicy = .drop) : s.txfWith v = s.txf := by
  have : s.txRoom = false := by simp [State.txRoom, h]
  simp [State.txfWith, this, hp]

/-- R144 without room, policy `overwrite_last`. -/
theorem State.txfWith_full_overwrite {s : State} (v : Byte) (h : s.ceff ≤ s.txf.count) (hne : 0 < s.txf.count)
    (hp : s.cfg.txFullPolicy = .overwriteLast) : s.txfWith v = s.txf.replaceNewest s.cfg.fifoDepth v := by
  have : s.txRoom = false := by simp [State.txRoom, h]
  simp [State.txfWith, this, hp, hne]

/-- R144 keeps the transmit FIFO well-formed. -/
theorem State.wf_txfWith {s : State} (v : Byte) (hc : 1 ≤ s.cfg.fifoDepth) (h : s.txf.Wf s.cfg.fifoDepth) :
    (s.txfWith v).Wf s.cfg.fifoDepth := by
  unfold State.txfWith
  split
  · next hr => exact Fifo.wf_enq h (Nat.lt_of_lt_of_le (State.txRoom_eq_true.mp hr) (State.ceff_le hc)) v
  · split
    · exact Fifo.wf_replaceNewest h v
    · exact h

/-- R110, R144: with legal parameters a `WR_THR` leaves a byte in the transmit FIFO, so an empty shift stage takes one. -/
theorem State.txfWith_pos {s : State} (v : Byte) (hc : 1 ≤ s.cfg.fifoDepth) : 0 < (s.txfWith v).count := by
  rcases Nat.lt_or_ge s.txf.count s.ceff with h | h
  · rw [State.txfWith_room v h]; simp
  · have hne : 0 < s.txf.count := by have := State.ceff_pos (s := s) hc; omega
    unfold State.txfWith
    split
    · simp
    · split <;> exact hne

/-- R164 in loopback. -/
theorem State.deliver_loop {s : State} (b : Byte) (h : s.loop = true) :
    s.deliver b = s.rxAccept b false false false := by simp [State.deliver, h]

/-- R164 outside loopback. -/
theorem State.deliver_send {s : State} (b : Byte) (h : s.loop = false) : s.deliver b = s.send b := by
  simp [State.deliver, h]

/-- R164: every field `deliver` can write. -/
theorem State.deliver_frame (s : State) (b : Byte) :
    s.deliver b = { s with
      txOut := (s.deliver b).txOut, sent := (s.deliver b).sent, rxf := (s.deliver b).rxf, lsrOe := (s.deliver b).lsrOe
      rxArmed := (s.deliver b).rxArmed, rxCnt := (s.deliver b).rxCnt } := by
  unfold State.deliver
  split
  · rw [State.rxAccept_frame]; simp
  · rfl

/-- R163 with nothing queued. -/
theorem State.txStart_empty {s : State} (h : s.txf.count = 0) : s.txStart = s := by simp [State.txStart, h]

/-- R163 with a byte queued. -/
theorem State.txStart_more {s : State} (h : 0 < s.txf.count) :
    s.txStart = (s.promote.deliver s.txf.front).armTx s.charTicks := by simp [State.txStart, h]

/-- R163: every field `tx_start` can write. -/
theorem State.txStart_frame (s : State) :
    s.txStart = { s with
      txf := s.txStart.txf, tsr := s.txStart.tsr, tsrFull := s.txStart.tsrFull, txArmed := s.txStart.txArmed
      txCnt := s.txStart.txCnt, txOut := s.txStart.txOut, sent := s.txStart.sent, rxf := s.txStart.rxf
      lsrOe := s.txStart.lsrOe, rxArmed := s.txStart.rxArmed, rxCnt := s.txStart.rxCnt } := by
  rcases Nat.eq_zero_or_pos s.txf.count with h | h
  · rw [State.txStart_empty h]
  · rw [State.txStart_more h, State.deliver_frame]; rfl

/-- R167 with nothing queued: the drained transmitter is reported. -/
theorem State.txExpire_empty {s : State} (h : s.txf.count = 0) : s.txExpire = s.emptyShift.txDrained := by
  simp [State.txExpire, h]

/-- R167 with a byte queued: the next one is promoted. -/
theorem State.txExpire_more {s : State} (h : 0 < s.txf.count) : s.txExpire = s.emptyShift.txStart := by
  simp [State.txExpire, h]

/-- R167: every field `tx_expire` can write. -/
theorem State.txExpire_frame (s : State) :
    s.txExpire = { s with
      txf := s.txExpire.txf, tsr := s.txExpire.tsr, tsrFull := s.txExpire.tsrFull, txArmed := s.txExpire.txArmed
      txCnt := s.txExpire.txCnt, txOut := s.txExpire.txOut, sent := s.txExpire.sent, rxf := s.txExpire.rxf
      lsrOe := s.txExpire.lsrOe, rxArmed := s.txExpire.rxArmed, rxCnt := s.txExpire.rxCnt
      lsrThre := s.txExpire.lsrThre, lsrTemt := s.txExpire.lsrTemt, thrIpending := s.txExpire.thrIpending } := by
  rcases Nat.eq_zero_or_pos s.txf.count with h | h
  · rw [State.txExpire_empty h]; rfl
  · rw [State.txExpire_more h, State.txStart_frame]; rfl

/-- R166: what happens to the transmit side in a `TICK` in which its timer is not due. -/
@[simp] theorem State.tickTx_false (s : State) : s.tickTx false = s := rfl

@[simp] theorem State.tickTx_true (s : State) : s.tickTx true = s.disarmTx.txExpire := rfl

@[simp] theorem State.tickRx_false (s : State) : s.tickRx false = s := rfl

/-- R166, second test: a timer restarted or disarmed in this `TICK` does not fire. -/
theorem State.tickRx_true (s : State) :
    s.tickRx true = if s.rxArmed = true ∧ s.rxCnt = 0 then s.disarmRx.rxtoExpire else s := by
  simp [State.tickRx]

/-- R167 from a `TICK` with nothing queued: both status bits and the pending flag rise. -/
theorem State.disarmTx_txExpire_empty {s : State} (h : s.txf.count = 0) :
    s.disarmTx.txExpire = s.disarmTx.emptyShift.txDrained := State.txExpire_empty h

/-- R167, R163, R164 from a `TICK` outside loopback with a byte queued: the oldest byte is sent. -/
theorem State.disarmTx_txExpire_send {s : State} (h : 0 < s.txf.count) (hl : s.loop = false) :
    s.disarmTx.txExpire = (s.disarmTx.emptyShift.promote.send s.txf.front).armTx s.charTicks := by
  rw [State.txExpire_more (s := s.disarmTx) h, State.txStart_more (s := s.disarmTx.emptyShift) h]
  exact congrArg (·.armTx s.charTicks) (State.deliver_send (s := s.disarmTx.emptyShift.promote) s.txf.front hl)

/-- R167, R163, R164 from a `TICK` in loopback with a byte queued: the oldest byte is received. -/
theorem State.disarmTx_txExpire_loop {s : State} (h : 0 < s.txf.count) (hl : s.loop = true) :
    s.disarmTx.txExpire =
      (s.disarmTx.emptyShift.promote.rxAccept s.txf.front false false false).armTx s.charTicks := by
  rw [State.txExpire_more (s := s.disarmTx) h, State.txStart_more (s := s.disarmTx.emptyShift) h]
  exact congrArg (·.armTx s.charTicks) (State.deliver_loop (s := s.disarmTx.emptyShift.promote) s.txf.front hl)

/-- R166: outside loopback a `TICK` touches the timeout timer only by counting it down, before its own test. -/
theorem State.tickTx_rx {s : State} (fire : Bool) (h : s.loop = false ∨ fire = false ∨ s.txf.count = 0) :
    (s.tickTx fire).rxArmed = s.rxArmed ∧ (s.tickTx fire).rxCnt = s.rxCnt ∧
    (s.tickTx fire).timeoutIpending = s.timeoutIpending ∧ (s.tickTx fire).rxf = s.rxf := by
  cases fire
  · exact ⟨rfl, rfl, rfl, rfl⟩
  · rw [State.tickTx_true]
    rcases Nat.eq_zero_or_pos s.txf.count with h0 | h0
    · rw [State.disarmTx_txExpire_empty h0]; exact ⟨rfl, rfl, rfl, rfl⟩
    · have hl : s.loop = false := by simpa [Nat.ne_of_gt h0] using h
      rw [State.disarmTx_txExpire_send h0 hl]; exact ⟨rfl, rfl, rfl, rfl⟩

/-- R166, second part: the state stays, or the timeout expires. -/
theorem State.tickRx_cases (s : State) (fire : Bool) :
    s.tickRx fire = s ∨ s.tickRx fire = s.disarmRx.rxtoExpire := by
  unfold State.tickRx; split <;> simp

/-- R166, second part: every field it can write. -/
theorem State.tickRx_frame (s : State) (fire : Bool) :
    s.tickRx fire = { s with
      rxArmed := (s.tickRx fire).rxArmed, timeoutIpending := (s.tickRx fire).timeoutIpending } := by
  rcases s.tickRx_cases fire with h | h
  · rw [h]
  · rw [h]; rfl

/-- R164: `deliver` appends at most one byte to the output sequence, and none in loopback. -/
theorem State.deliver_output (s : State) (b : Byte) :
    ((s.deliver b).txOut = s.txOut ∧ (s.deliver b).sent = s.sent) ∨
    (s.loop = false ∧ (s.deliver b).txOut = some b ∧ (s.deliver b).sent = s.sent ++ [b]) := by
  rcases h : s.loop
  · rw [State.deliver_send b h]; exact .inr ⟨rfl, rfl, rfl⟩
  · rw [State.deliver_loop b h]; exact .inl ⟨rfl, rfl⟩

/-- R163: `tx_start` appends at most one byte to the output sequence, and none in loopback. -/
theorem State.txStart_output (s : State) :
    (s.txStart.txOut = s.txOut ∧ s.txStart.sent = s.sent) ∨
    (s.loop = false ∧ ∃ b : Byte, s.txStart.txOut = some b ∧ s.txStart.sent = s.sent ++ [b]) := by
  rcases Nat.eq_zero_or_pos s.txf.count with h | h
  · rw [State.txStart_empty h]; exact .inl ⟨rfl, rfl⟩
  · rw [State.txStart_more h]
    exact (s.promote.deliver_output s.txf.front).imp id fun ⟨hl, ho⟩ => ⟨hl, _, ho⟩

/-- R167: `tx_expire` appends at most one byte to the output sequence, and none in loopback. -/
theorem State.txExpire_output (s : State) :
    (s.txExpire.txOut = s.txOut ∧ s.txExpire.sent = s.sent) ∨
    (s.loop = false ∧ ∃ b : Byte, s.txExpire.txOut = some b ∧ s.txExpire.sent = s.sent ++ [b]) := by
  rcases Nat.eq_zero_or_pos s.txf.count with h | h
  · rw [State.txExpire_empty h]; exact .inl ⟨rfl, rfl⟩
  · rw [State.txExpire_more h]; exact s.emptyShift.txStart_output

/-- R146, R164: delivering a byte clears no overrun. -/
theorem State.deliver_lsrOe {s : State} (b : Byte) (h : s.lsrOe = true) : (s.deliver b).lsrOe = true := by
  unfold State.deliver
  split
  · rw [State.rxAccept_frame]; simp [h]
  · exact h

theorem State.txStart_lsrOe {s : State} (h : s.lsrOe = true) : s.txStart.lsrOe = true := by
  unfold State.txStart
  split
  · exact State.deliver_lsrOe (s := s.promote) _ h
  · exact h

theorem State.txExpire_lsrOe {s : State} (h : s.lsrOe = true) : s.txExpire.lsrOe = true := by
  unfold State.txExpire
  split
  · exact State.txStart_lsrOe (s := s.emptyShift) h
  · exact h

/-! ### Modem status -/

/-- R180, bit by bit. -/
theorem State.msrUpdate_bit (s : State) (n : BitVec 4) (k : Nat) :
    (s.msrUpdate n).msr.getLsbD k =
      if k < 4 then (msrDelta s.msr ||| (n ^^^ msrLines s.msr)).getLsbD k else n.getLsbD (k - 4) :=
  BitVec.getLsbD_append

/-- R180: the upper half is the new line state. -/
theorem State.msrUpdate_lines (s : State) (n : BitVec 4) (k : Nat) :
    (s.msrUpdate n).msr.getLsbD (k + 4) = n.getLsbD k := by
  rw [State.msrUpdate_bit]; simp

/-- R180: a delta bit is sticky and set by a line that differs. -/
theorem State.msrUpdate_delta (s : State) (n : BitVec 4) (k : Nat) (hk : k < 4) :
    (s.msrUpdate n).msr.getLsbD k = (s.msr.getLsbD k || (n.getLsbD k ^^ s.msr.getLsbD (k + 4))) := by
  rw [State.msrUpdate_bit]
  simp [hk, msrDelta, msrLines, Nat.add_comm]

end Sys2Proof.Machine
end

