-- ==== Sys2Proof/Laws/Invariant.lean ====
section
/-! SUPPORT. Laws/Invariant.lean: what each shared operation keeps of the invariant (spec/10_state.md R46): the
transmit half and the rest separately, because the transmit procedures break the first half on the way. -/

namespace Sys2Proof.Machine

/-- The invariant without its transmit half, while a timeout expiry is still to come if `due` says so: then the running
timer may stand at 0 (R166). -/
abbrev State.RestInv (due : Bool) (s : State) : Prop :=
  s.cfg.Valid ∧ s.rxf.Wf s.cfg.fifoDepth ∧ s.txf.Wf s.cfg.fifoDepth ∧
  ((s.rxArmed = true → s.fifoen = true ∧ 0 < s.rxf.count ∧ s.rxf.count < s.trigEff) ∧
    (s.timeoutIpending = true → 0 < s.rxf.count) ∧ (s.rxArmed = true → s.rxCnt = 0 → due = true)) ∧
  s.lastBreakEnable = s.brk

/-- The invariant is its two halves. -/
theorem State.inv_iff (s : State) : s.Inv ↔ s.TxInv ∧ s.RestInv false := by
  simp only [State.Inv, State.RestInv, State.RxInv, Nat.one_le_iff_ne_zero, Bool.false_eq_true]
  tauto

/-- R145: the receive half after `rxto_restart`. -/
theorem State.rxInv_rxtoRestart {s : State} (hv : s.cfg.Valid) (h : s.timeoutIpending = true → 0 < s.rxf.count) :
    s.rxtoRestart.RxInv := by
  refine ⟨fun h => State.rxtoWanted_eq_true.mp h, h, fun h => ?_⟩
  have : s.rxtoWanted = true := h
  simp only [State.rxtoRestart, this, if_true]
  exact State.timeoutTicks_pos hv

/-- R146. -/
theorem State.restInv_rxAccept {s : State} {due : Bool} (h : s.RestInv due) (d : Byte) (pe fe bi : Bool) :
    (s.rxAccept d pe fe bi).RestInv due := by
  obtain ⟨hv, hr, ht, hx, hb⟩ := h
  have hx' : (s.rxAccept d pe fe bi).RxInv := by
    refine State.rxInv_rxtoRestart (s := s.rxStore d pe fe bi) hv fun hp => ?_
    show 0 < (if s.rxFull then s.rxf else s.rxf.enq s.cfg.fifoDepth d).count
    split
    · exact hx.2.1 hp
    · simp
  refine ⟨hv, ?_, ht, ⟨hx'.1, hx'.2.1, fun h1 h2 => absurd (hx'.2.2 h1) (by omega)⟩, hb⟩
  show (if s.rxFull then s.rxf else s.rxf.enq s.cfg.fifoDepth d).Wf _
  split
  · exact hr
  · next hf =>
    exact Fifo.wf_enq hr
      (Nat.lt_of_lt_of_le (State.rxFull_eq_false.mp (by simpa using hf)) (State.ceff_le hv.1)) d

/-- R164. -/
theorem State.restInv_deliver {s : State} {due : Bool} (h : s.RestInv due) (b : Byte) :
    (s.deliver b).RestInv due := by
  unfold State.deliver
  split
  · exact State.restInv_rxAccept h ..
  · exact h

/-- R163. -/
theorem State.restInv_txStart {s : State} {due : Bool} (h : s.RestInv due) : s.txStart.RestInv due := by
  unfold State.txStart
  split
  · next hp =>
    have : s.promote.RestInv due := ⟨h.1, h.2.1, Fifo.wf_deq h.2.2.1 hp, h.2.2.2.1, h.2.2.2.2⟩
    exact State.restInv_deliver this _
  · exact h

/-- R167. -/
theorem State.restInv_txExpire {s : State} {due : Bool} (h : s.RestInv due) : s.txExpire.RestInv due := by
  unfold State.txExpire
  split
  · exact State.restInv_txStart h
  · exact h

/-- R166, R168: after the timeout half of a `TICK` no expiry is left to come. -/
theorem State.restInv_tickRx {s : State} {due : Bool} (h : s.RestInv due) : (s.tickRx due).RestInv false := by
  obtain ⟨hv, hr, ht, hx, hb⟩ := h
  cases due
  · exact ⟨hv, hr, ht, hx, hb⟩
  · rw [State.tickRx_true]
    split
    · next hf => exact ⟨hv, hr, ht, ⟨by simp, fun _ => (hx.1 hf.1).2.1, by simp⟩, hb⟩
    · next hf => exact ⟨hv, hr, ht, ⟨hx.1, hx.2.1, fun h1 h2 => absurd ⟨h1, h2⟩ hf⟩, hb⟩

/-- R163, R46: the transmit half once a queued byte has been promoted. -/
theorem State.txInv_txStart {s : State} (hne : 0 < s.txf.count) (hp : 1 ≤ s.cfg.prescale) (h1 : s.lsrThre = false)
    (h2 : s.lsrTemt = false) (h3 : s.thrIpending = false) : s.txStart.TxInv := by
  rw [State.txStart_more hne, State.deliver_frame]
  have := State.charTicks_pos hp
  simp [State.TxInv, h1, h2, h3]
  omega

end Sys2Proof.Machine
end

