-- ==== Sys2Proof/Laws/Operands.lean ====
section
/-! SUPPORT. Laws/Operands.lean: the field assembly of spec/30_encoding.md R83 to R86 as plain bit-vector arithmetic, and
the bits of the assembled bytes, so that no proof unfolds a concatenation. -/

namespace Sys2Proof.Machine

theorem ierOf_eq (v : Byte) : ierOf v = v.setWidth 4 := by revert v; decide

theorem mcrOf_eq (v : Byte) : mcrOf v = v.setWidth 5 := by revert v; decide

theorem fcrTrigger_eq (v : Byte) : fcrTrigger v = (v >>> 6).setWidth 2 := by revert v; decide

theorem ierByte_eq (x : BitVec 4) : ierByte x = x.setWidth 8 := by revert x; decide

theorem mcrByte_eq (x : BitVec 5) : mcrByte x = x.setWidth 8 := by revert x; decide

theorem dlLow_eq (dl : BitVec 16) : dlLow dl = dl.setWidth 8 := by simp [dlLow]; ext; simp

theorem dlHigh_eq (dl : BitVec 16) : dlHigh dl = (dl >>> 8).setWidth 8 := by simp [dlHigh]; ext; simp

theorem dlWithLow_eq (dl : BitVec 16) (v : Byte) : dlWithLow dl v = (dl &&& 0xFF00#16) ||| v.setWidth 16 := by
  refine BitVec.eq_of_getLsbD_eq fun i hi => (BitVec.getLsbD_append (x := dl.extractLsb' 8 8)).trans ?_
  interval_cases i <;> simp

theorem dlWithHigh_eq (dl : BitVec 16) (v : Byte) :
    dlWithHigh dl v = (dl &&& 0x00FF#16) ||| (v.setWidth 16 <<< 8) := by
  refine BitVec.eq_of_getLsbD_eq fun i hi => (BitVec.getLsbD_append (y := dl.extractLsb' 0 8)).trans ?_
  interval_cases i <;> simp

@[simp] theorem dlLow_dlWithLow (dl : BitVec 16) (v : Byte) : dlLow (dlWithLow dl v) = v := by
  rw [dlLow_eq, dlWithLow_eq]
  refine BitVec.eq_of_getLsbD_eq fun i hi => ?_
  interval_cases i <;> simp

@[simp] theorem dlHigh_dlWithHigh (dl : BitVec 16) (v : Byte) : dlHigh (dlWithHigh dl v) = v := by
  rw [dlHigh_eq, dlWithHigh_eq]
  refine BitVec.eq_of_getLsbD_eq fun i hi => ?_
  interval_cases i <;> simp

theorem msrClearedDeltas_eq (m : Byte) : (msrLines m ++ 0#4 : BitVec 8) = m &&& 0xF0#8 := by revert m; decide

theorem mcrOf_getLsbD (v : Byte) : ∀ k < 5, (mcrOf v).getLsbD k = v.getLsbD k := by
  revert v; decide

theorem modemLines_bits (cts dsr ri dcd : Bool) :
    (modemLines cts dsr ri dcd).getLsbD 0 = cts ∧ (modemLines cts dsr ri dcd).getLsbD 1 = dsr ∧
    (modemLines cts dsr ri dcd).getLsbD 2 = ri ∧ (modemLines cts dsr ri dcd).getLsbD 3 = dcd := by
  cases cts <;> cases dsr <;> cases ri <;> cases dcd <;> decide

theorem State.loopLines_eq (s : State) :
    s.loopLines = modemLines (s.mcr.getLsbD 1) (s.mcr.getLsbD 0) (s.mcr.getLsbD 2) (s.mcr.getLsbD 3) := rfl

/-- R30: the eight bits of `lsr()`. -/
theorem State.lsr_bits (s : State) :
    s.lsr.getLsbD 0 = s.dr ∧ s.lsr.getLsbD 1 = s.lsrOe ∧ s.lsr.getLsbD 2 = s.lsrPe ∧ s.lsr.getLsbD 3 = s.lsrFe ∧
    s.lsr.getLsbD 4 = s.lsrBi ∧ s.lsr.getLsbD 5 = s.lsrThre ∧ s.lsr.getLsbD 6 = s.lsrTemt ∧
    s.lsr.getLsbD 7 = false := by
  unfold State.lsr
  generalize s.dr = dr
  cases s.lsrOe <;> cases s.lsrPe <;> cases s.lsrFe <;> cases s.lsrBi <;> cases s.lsrThre <;> cases s.lsrTemt <;>
    cases dr <;> decide

/-- R161: `eff_div()` is the larger of 1 and the stored divisor. -/
theorem State.effDiv_eq (s : State) : s.effDiv = max 1 s.dl.toNat := by
  unfold State.effDiv
  split
  · next h => simp [h]
  · next h =>
    have : s.dl.toNat ≠ 0 := fun e => h (BitVec.eq_of_toNat_eq (by simpa using e))
    omega

/-- R160 as arithmetic on the value of `lcr`. -/
theorem State.frameBits_eq (s : State) :
    s.frameBits = 1 + (5 + s.lcr.toNat % 4) + (s.lcr.toNat / 8) % 2 + (1 + (s.lcr.toNat / 4) % 2) := by
  unfold State.frameBits
  generalize s.lcr = l
  revert l; decide

end Sys2Proof.Machine
end

