-- ==== Sys2Proof/Laws/PerInstr.lean ====
section
/-! SUPPORT. Laws/PerInstr.lean: statements about every operation and event as syntax, one lemma per constructor. -/

namespace Sys2Proof.Laws

/-- Each instruction is well-formed in some bank (spec/30_encoding.md R81, R93). -/
def Bank.Statement (i : Instr) : Prop := ∃ dlab : Bool, i.wf dlab = true

theorem Bank.wrThr (v : Byte) : Bank.Statement (.wrThr v) := ⟨false, rfl⟩
theorem Bank.rdRbr : Bank.Statement .rdRbr := ⟨false, rfl⟩
theorem Bank.wrDll (v : Byte) : Bank.Statement (.wrDll v) := ⟨true, rfl⟩
theorem Bank.rdDll : Bank.Statement .rdDll := ⟨true, rfl⟩
theorem Bank.wrIer (v : Byte) : Bank.Statement (.wrIer v) := ⟨false, rfl⟩
theorem Bank.rdIer : Bank.Statement .rdIer := ⟨false, rfl⟩
theorem Bank.wrDlm (v : Byte) : Bank.Statement (.wrDlm v) := ⟨true, rfl⟩
theorem Bank.rdDlm : Bank.Statement .rdDlm := ⟨true, rfl⟩
theorem Bank.wrFcr (v : Byte) : Bank.Statement (.wrFcr v) := ⟨false, rfl⟩
theorem Bank.rdIir : Bank.Statement .rdIir := ⟨false, rfl⟩
theorem Bank.wrLcr (v : Byte) : Bank.Statement (.wrLcr v) := ⟨false, rfl⟩
theorem Bank.rdLcr : Bank.Statement .rdLcr := ⟨false, rfl⟩
theorem Bank.wrMcr (v : Byte) : Bank.Statement (.wrMcr v) := ⟨false, rfl⟩
theorem Bank.rdMcr : Bank.Statement .rdMcr := ⟨false, rfl⟩
theorem Bank.rdLsr : Bank.Statement .rdLsr := ⟨false, rfl⟩
theorem Bank.wrLsr (v : Byte) : Bank.Statement (.wrLsr v) := ⟨false, rfl⟩
theorem Bank.rdMsr : Bank.Statement .rdMsr := ⟨false, rfl⟩
theorem Bank.wrMsr (v : Byte) : Bank.Statement (.wrMsr v) := ⟨false, rfl⟩
theorem Bank.wrScr (v : Byte) : Bank.Statement (.wrScr v) := ⟨false, rfl⟩
theorem Bank.rdScr : Bank.Statement .rdScr := ⟨false, rfl⟩
theorem Bank.rxb (data : Byte) (pe fe bi : Bool) : Bank.Statement (.rxb data pe fe bi) := ⟨false, rfl⟩
theorem Bank.msl (cts dsr ri dcd : Bool) : Bank.Statement (.msl cts dsr ri dcd) := ⟨false, rfl⟩
theorem Bank.tick : Bank.Statement .tick := ⟨false, rfl⟩
theorem Bank.rst : Bank.Statement .rst := ⟨false, rfl⟩

/-- The kind of the event an instruction is encoded as (R80): 0 for a bus operation, 1 to 4 for the others. -/
def Kind.expected : Instr → Nat
  | .rxb _ _ _ _ => 1
  | .msl _ _ _ _ => 2
  | .tick => 3
  | .rst => 4
  | _ => 0

def Kind.Statement (i : Instr) : Prop := (wordKind (encode i)).toNat = Kind.expected i

theorem Kind.wrThr (v : Byte) : Kind.Statement (.wrThr v) := by revert v; unfold Kind.Statement; decide
theorem Kind.rdRbr : Kind.Statement .rdRbr := rfl
theorem Kind.wrDll (v : Byte) : Kind.Statement (.wrDll v) := Kind.wrThr v
theorem Kind.rdDll : Kind.Statement .rdDll := rfl
theorem Kind.wrIer (v : Byte) : Kind.Statement (.wrIer v) := by revert v; unfold Kind.Statement; decide
theorem Kind.rdIer : Kind.Statement .rdIer := rfl
theorem Kind.wrDlm (v : Byte) : Kind.Statement (.wrDlm v) := Kind.wrIer v
theorem Kind.rdDlm : Kind.Statement .rdDlm := rfl
theorem Kind.wrFcr (v : Byte) : Kind.Statement (.wrFcr v) := by revert v; unfold Kind.Statement; decide
theorem Kind.rdIir : Kind.Statement .rdIir := rfl
theorem Kind.wrLcr (v : Byte) : Kind.Statement (.wrLcr v) := by revert v; unfold Kind.Statement; decide
theorem Kind.rdLcr : Kind.Statement .rdLcr := rfl
theorem Kind.wrMcr (v : Byte) : Kind.Statement (.wrMcr v) := by revert v; unfold Kind.Statement; decide
theorem Kind.rdMcr : Kind.Statement .rdMcr := rfl
theorem Kind.rdLsr : Kind.Statement .rdLsr := rfl
theorem Kind.wrLsr (v : Byte) : Kind.Statement (.wrLsr v) := by revert v; unfold Kind.Statement; decide
theorem Kind.rdMsr : Kind.Statement .rdMsr := rfl
theorem Kind.wrMsr (v : Byte) : Kind.Statement (.wrMsr v) := by revert v; unfold Kind.Statement; decide
theorem Kind.wrScr (v : Byte) : Kind.Statement (.wrScr v) := by revert v; unfold Kind.Statement; decide
theorem Kind.rdScr : Kind.Statement .rdScr := rfl
theorem Kind.rxb (data : Byte) (pe fe bi : Bool) : Kind.Statement (.rxb data pe fe bi) := by
  revert data; unfold Kind.Statement; cases pe <;> cases fe <;> cases bi <;> decide
theorem Kind.msl (cts dsr ri dcd : Bool) : Kind.Statement (.msl cts dsr ri dcd) := by
  cases cts <;> cases dsr <;> cases ri <;> cases dcd <;> rfl
theorem Kind.tick : Kind.Statement .tick := rfl
theorem Kind.rst : Kind.Statement .rst := rfl

end Sys2Proof.Laws
end

