-- ==== Sys2Proof/Tests/Slice0.lean ====
section
/-! SUPPORT. Tests/Slice0.lean: the model's own tests. Expected values are those of the rules' examples and of
spec/95_test_vectors.md, named in each comment; the witnesses at the end meet the hypotheses of the statements. -/

open Sys2Proof Sys2Proof.Machine

namespace Sys2Proof.Tests

/-! ### Helpers -/

/-- The state an outcome answers, if it answers one. -/
def ran (o : Host.Outcome State Fault Refusal) : Option State :=
  match o with
  | .next t => some t
  | .fault _ => none
  | .refused _ => none

theorem exists_next {o : Host.Outcome State Fault Refusal} (h : (ran o).isSome = true) : ∃ t, o = .next t := by
  cases o with
  | next t => exact ⟨t, rfl⟩
  | fault f => cases h
  | refused r => cases h

/-- The state after one event. -/
def after (i : Instr) (s : State) : State := (ran (exec i s)).getD s

/-- Non-FIFO mode, 8 data bits: after `INIT` of the vectors, which leaves `lcr = 0x03`. -/
def plain : State := { State.reset with lcr := 0x03#8 }

/-- FIFO mode with trigger level 4, 8 data bits. -/
def fifo4 : State := { plain with fifoen := true, rxtrig := 1#2 }

/-- One byte being shifted out, nothing queued. -/
def sending : State := after (.wrThr 0x31#8) plain

/-- One byte being shifted out, one queued. -/
def sending2 : State := after (.wrThr 0x32#8) sending

/-- `sending2` with its character time about to end. -/
def due2 : State := { sending2 with txCnt := 1 }

/-- Loopback. -/
def looped : State := { plain with mcr := 0x10#5 }

/-- FIFO mode, trigger 4, one byte received. -/
def got1 : State := after (.rxb 0x61#8 false false false) fifo4

/-- Loopback, both timers due in the next `TICK`, one byte queued for transmission, one received. -/
def bothDue : State :=
  { due2 with
    mcr := 0x10#5, fifoen := true, rxtrig := 3#2, rxf := got1.rxf, rxArmed := true, rxCnt := 1 }

/-- FIFO mode, trigger 4, two bytes received: the state of the example of R111, before its read. -/
def got2 : State := after (.rxb 0x62#8 false false false) got1

/-- The bank of the divisor latch. -/
def banked : State := { State.reset with lcr := 0x80#8 }

/-! ### Well-formedness: an ill-formed term for each bank check (R93) -/

theorem test_wf_refuses_wrThr : Instr.wf true (.wrThr 0x41#8) = false := by decide
theorem test_wf_refuses_rdRbr : Instr.wf true .rdRbr = false := by decide
theorem test_wf_refuses_wrIer : Instr.wf true (.wrIer 0x0F#8) = false := by decide
theorem test_wf_refuses_rdIer : Instr.wf true .rdIer = false := by decide
theorem test_wf_refuses_wrDll : Instr.wf false (.wrDll 0x01#8) = false := by decide
theorem test_wf_refuses_rdDll : Instr.wf false .rdDll = false := by decide
theorem test_wf_refuses_wrDlm : Instr.wf false (.wrDlm 0x01#8) = false := by decide
theorem test_wf_refuses_rdDlm : Instr.wf false .rdDlm = false := by decide
theorem test_wf_accepts_unbanked :
    ∀ b : Bool, Instr.wf b .rdIir = true ∧ Instr.wf b (.wrFcr 0x47#8) = true ∧ Instr.wf b .tick = true := by decide

/-! ### Decoding: the word of every row, written out from the encoding strings of the opcode table -/

/-- Offsets 0 and 1, both banks (`00001000vvvvvvvv` and its neighbours). -/
theorem test_decode_banked_rows :
    decode false 0b0000100001000001#16 = .ok (.wrThr 0x41#8) ∧ decode false 0b0000000000000000#16 = .ok .rdRbr ∧
    decode true 0b0000100000000001#16 = .ok (.wrDll 0x01#8) ∧ decode true 0b0000000000110111#16 = .ok .rdDll ∧
    decode false 0b0000100111111111#16 = .ok (.wrIer 0xFF#8) ∧ decode false 0b0000000100000000#16 = .ok .rdIer ∧
    decode true 0b0000100100010010#16 = .ok (.wrDlm 0x12#8) ∧ decode true 0b0000000100000000#16 = .ok .rdDlm := by
  decide

/-- Offsets 2 to 4. -/
theorem test_decode_control_rows :
    decode false 0b0000101001000111#16 = .ok (.wrFcr 0x47#8) ∧ decode true 0b0000001000000000#16 = .ok .rdIir ∧
    decode true 0b0000101110000011#16 = .ok (.wrLcr 0x83#8) ∧ decode false 0b0000001100000000#16 = .ok .rdLcr ∧
    decode false 0b0000110000011111#16 = .ok (.wrMcr 0x1F#8) ∧ decode true 0b0000010000000000#16 = .ok .rdMcr := by
  decide

/-- Offsets 5 to 7. -/
theorem test_decode_status_rows :
    decode false 0b0000010100000000#16 = .ok .rdLsr ∧ decode false 0b0000110111111111#16 = .ok (.wrLsr 0xFF#8) ∧
    decode true 0b0000011000000000#16 = .ok .rdMsr ∧ decode true 0b0000111000001111#16 = .ok (.wrMsr 0x0F#8) ∧
    decode false 0b0000111110100101#16 = .ok (.wrScr 0xA5#8) ∧ decode true 0b0000011100000000#16 = .ok .rdScr := by
  decide

/-- The environment rows (`00010bfpdddddddd`, `001000000000krsc`, `TICK`, `RST`). -/
theorem test_decode_environment_rows :
    decode false 0b0001011000000000#16 = .ok (.rxb 0x00#8 false true true) ∧
    decode true 0b0001000110100101#16 = .ok (.rxb 0xA5#8 true false false) ∧
    decode false 0b0010000000001011#16 = .ok (.msl true true false true) ∧
    decode true 0b0010000000000100#16 = .ok (.msl false false true false) ∧
    decode false 0b0011000000000000#16 = .ok .tick ∧ decode true 0b0100000000000000#16 = .ok .rst := by
  decide

/-- V62: the refused words. -/
theorem test_decode_refuses_non_events :
    decode false 0x5000#16 = .error .reservedKind ∧ decode true 0xF123#16 = .error .reservedKind ∧
    decode false 0x1800#16 = .error .rxbBit11 ∧ decode false 0x2010#16 = .error .mslHighBits ∧
    decode false 0x3001#16 = .error .tickLowBits ∧ decode false 0x4001#16 = .error .rstLowBits := by
  decide

/-- R93, R94: spellings. -/
theorem test_encode_spellings :
    encode (.rxb 0xFF#8 true true true) = 0x17FF#16 ∧ encode (.msl true true false false) = 0x2003#16 ∧
    pseudoFifoOn 1#2 = [.wrFcr 0x47#8] ∧ pseudoFifoOff = [.wrFcr 0x00#8] ∧
    pseudoSetDiv 0x000C#16 0x03#8 = [.wrLcr 0x83#8, .wrDll 0x0C#8, .wrDlm 0x00#8, .wrLcr 0x03#8] ∧
    pseudoTicks 2 = [.tick, .tick] ∧ pseudoWr true 0#3 0x34#8 = .wrDll 0x34#8 ∧ pseudoRd false 1#3 = .rdIer := by
  decide

/-! ### Offset 0 -/

/-- R110, example. -/
theorem test_wrThr_idle :
    (ran (exec (.wrThr 0x41#8) State.reset)).map (fun t => (t.sent, t.tsr, t.tsrFull, t.txCnt, t.txf.count, t.lsr)) =
      some ([0x41#8], 0x41#8, true, 1344, 0, 0x00#8) := by decide

/-- S7: with the shift stage and the depth-1 stage occupied the byte is dropped. -/
theorem test_wrThr_full_drops :
    (ran (exec (.wrThr 0x33#8) sending2)).map (fun t => (t.sent, t.txf.contents 16, t.thr)) =
      some ([0x31#8], [0x32#8], 0x33#8) := by decide

/-- R111, example. -/
theorem test_rdRbr_takes_oldest :
    (ran (exec .rdRbr got2)).map (fun t => (t.rdata, t.rxf.count, t.rbr, t.rxArmed, t.rxCnt)) =
      some (some 0x61#8, 1, 0x61#8, true, 7680) := by decide

/-- V13: an empty FIFO gives the latched byte. -/
theorem test_rdRbr_empty :
    (ran (exec .rdRbr { plain with rbr := 0x41#8 })).map (fun t => (t.rdata, t.rxf.count)) =
      some (some 0x41#8, 0) := by decide

/-- R112, example. -/
theorem test_wrDll : (ran (exec (.wrDll 0x01#8) banked)).map (·.dl) = some 0x0001#16 := by decide

/-- R113, example. -/
theorem test_rdDll : (ran (exec .rdDll banked)).map (·.rdata) = some (some 0x0C#8) := by decide

/-! ### Offset 1 -/

/-- V15: the write that enables a pending transmit source raises the line in the same event. -/
theorem test_wrIer_raises :
    (ran (exec (.wrIer 0xF2#8) { plain with thrIpending := true })).map (fun t => (t.ier, t.iir, t.irq)) =
      some (0x2#4, 0x02#8, true) := by decide

/-- R114, example: the mask. -/
theorem test_rdIer : (ran (exec .rdIer { plain with ier := 0xF#4 })).map (·.rdata) = some (some 0x0F#8) := by decide

/-- R116, example. -/
theorem test_wrDlm : (ran (exec (.wrDlm 0x01#8) banked)).map (·.dl) = some 0x010C#16 := by decide

/-- V11. -/
theorem test_rdDlm : (ran (exec .rdDlm { banked with dl := 0x1234#16 })).map (·.rdata) = some (some 0x12#8) := by decide

/-! ### Offset 2 -/

/-- R118, example: the receive reset. -/
theorem test_wrFcr_resets :
    (ran (exec (.wrFcr 0x03#8) got2)).map (fun t => (t.rxf.count, t.rxf.head, t.rxf.tail, t.dr, t.fifoen, t.rxArmed)) =
      some (0, 0, 0, false, true, false) := by decide

/-- V16: raising the trigger above the count removes the interrupt and arms the timer. -/
theorem test_wrFcr_trigger :
    (ran (exec (.wrFcr 0x41#8) { got2 with rxtrig := 0#2, ier := 1#4, rxArmed := false })).map
      (fun t => (t.iir, t.irq, t.rxArmed, t.rxCnt)) = some (0xC1#8, false, true, 7680) := by decide

/-- R119, example. -/
theorem test_rdIir :
    (ran (exec .rdIir { plain with ier := 0x2#4, thrIpending := true })).map (fun t => (t.rdata, t.iir, t.irq)) =
      some (some 0x02#8, 0x01#8, false) := by decide

/-- V60: a higher source is shown and the transmit interrupt is lost. -/
theorem test_rdIir_loses_transmit :
    (ran (exec .rdIir { plain with ier := 0x6#4, thrIpending := true, lsrFe := true })).map
      (fun t => (t.rdata, t.thrIpending, t.lsrThre)) = some (some 0x06#8, false, true) := by decide

/-! ### Offset 3 -/

/-- R120, example. -/
theorem test_wrLcr :
    (ran (exec (.wrLcr 0x83#8) State.reset)).map (fun t => (t.lcr, t.dlab, t.charTicks, t.lsr)) =
      some (0x83#8, true, 1920, 0x60#8) := by decide

/-- V42: the break edge. -/
theorem test_wrLcr_break :
    (ran (exec (.wrLcr 0x43#8) { plain with ier := 0x4#4 })).map (fun t => (t.lsr, t.iir, t.irq, t.rxf.count)) =
      some (0x70#8, 0x06#8, true, 0) := by decide

/-- R121, example. -/
theorem test_rdLcr : (ran (exec .rdLcr { plain with lcr := 0x5B#8 })).map (·.rdata) = some (some 0x5B#8) := by decide

/-! ### Offset 4 -/

/-- R122, example. -/
theorem test_wrMcr :
    (ran (exec (.wrMcr 0x1F#8) State.reset)).map (fun t => (t.mcr, t.msr)) = some (0x1F#5, 0xFF#8) := by decide

/-- P3: DTR and OUT1 only. -/
theorem test_wrMcr_lines :
    (ran (exec (.wrMcr 0x15#8) { looped with msr := 0xF0#8 })).map (·.msr) = some 0x69#8 := by decide

/-- R123, example. -/
theorem test_rdMcr : (ran (exec .rdMcr { plain with mcr := 0x1F#5 })).map (·.rdata) = some (some 0x1F#8) := by decide

/-! ### Offsets 5, 6, 7 -/

/-- R124, example. -/
theorem test_rdLsr :
    (ran (exec .rdLsr { got2 with lsrOe := true })).map (fun t => (t.rdata, t.lsr)) = some (some 0x63#8, 0x61#8) := by
  decide

/-- R125, example. -/
theorem test_wrLsr : (ran (exec (.wrLsr 0xFF#8) State.reset)).map (·.lsr) = some 0x60#8 := by decide

/-- R126, example. -/
theorem test_rdMsr :
    (ran (exec .rdMsr { plain with msr := 0xBB#8 })).map (fun t => (t.rdata, t.msr)) = some (some 0xBB#8, 0xB0#8) := by
  decide

/-- R127, example. -/
theorem test_wrMsr :
    (ran (exec (.wrMsr 0x0F#8) { State.reset with ier := 0x8#4 })).map (fun t => (t.msr, t.irq)) =
      some (0x00#8, false) := by decide

/-- V14. -/
theorem test_wrScr : (ran (exec (.wrScr 0xA5#8) State.reset)).map (·.scr) = some 0xA5#8 := by decide

/-- V14. -/
theorem test_rdScr : (ran (exec .rdScr { plain with scr := 0xA5#8 })).map (·.rdata) = some (some 0xA5#8) := by decide

/-! ### Environment events -/

/-- S3: the arrival that reaches the trigger level. -/
theorem test_rxb_reaches_trigger :
    (ran (exec (.rxb 0x64#8 false false false) { after (.rxb 0x63#8 false false false) got2 with ier := 1#4 })).map
      (fun t => (t.iir, t.irq, t.rxf.contents 16, t.rxArmed)) =
      some (0xC4#8, true, [0x61#8, 0x62#8, 0x63#8, 0x64#8], false) := by decide

/-- V22 and V23: overrun in non-FIFO mode, with a flag on the lost byte. -/
theorem test_rxb_overrun :
    (ran (exec (.rxb 0x42#8 true false false) (after (.rxb 0x41#8 false false false) plain))).map
      (fun t => (t.lsr, t.rxf.contents 16)) = some (0x67#8, [0x41#8]) := by decide

/-- V40: CTS fell, RI rose. -/
theorem test_msl :
    (ran (exec (.msl false true true true) { plain with msr := 0xB0#8, ier := 0x8#4 })).map
      (fun t => (t.msr, t.iir, t.irq)) = some (0xE5#8, 0x00#8, true) := by decide

/-- V43: ignored in loopback. -/
theorem test_msl_loopback : (ran (exec (.msl true true true true) looped)).map (·.msr) = some 0x00#8 := by decide

/-- R166, example, and S7: the expiry sends the queued byte. -/
theorem test_tick_expires :
    (ran (exec .tick due2)).map (fun t => (t.sent, t.tsr, t.txArmed, t.txCnt, t.txf.count, t.lsr)) =
      some ([0x31#8, 0x32#8], 0x32#8, true, 1920, 0, 0x00#8) := by decide

/-- V33: in loopback the expiry restarts a timeout timer due in the same tick, which then does not fire. -/
theorem test_tick_restarts_timeout :
    (ran (exec .tick bothDue)).map (fun t => (t.rxf.contents 16, t.rxArmed, t.rxCnt, t.timeoutIpending, t.sent)) =
      some ([0x61#8, 0x32#8], true, 7680, false, [0x31#8]) := by decide

/-- R230, example, and V61. -/
theorem test_rst :
    (ran (exec .rst { sending2 with mcr := 0x0F#5, lsrOe := true })).map
      (fun t => (t.lsr, t.iir, t.txf.count, t.txArmed, t.sent)) =
      some (0x60#8, 0x01#8, 0, false, [0x31#8]) := by decide

/-! ### The step, the bus and the ports -/

/-- R82: the bank in force decides what a word runs. -/
theorem test_step_uses_the_bank :
    (ran (step (banked.withFetchWord 16 0x0834))).map (fun t => (t.dl, t.sent)) = some (0x0034#16, []) ∧
    (ran (step (State.reset.withFetchWord 16 0x0834))).map (fun t => (t.dl, t.sent)) =
      some (0x000C#16, [0x34#8]) := by decide

/-- R64, R65: widths and offsets that do not exist. -/
theorem test_access_refuses :
    memRead 8 1 State.reset = .refused (.badOffset 8) ∧ memWrite 7 2 0x00#8 State.reset = .refused (.badWidth 2) :=
  ⟨rfl, rfl⟩

/-- R212: the order recommended for one clock cycle. -/
theorem test_cycle_events :
    ({ rst := false, busSel := true, busWe := true, busAddr := 0#3, busWdata := 0x41#8, rxValid := true,
       rxData := 0x10#8, rxPe := true, rxFe := false, rxBi := false, mslValid := false, cts := false, dsr := false,
       ri := false, dcd := false } : Pins).events Source.all = [0x3000#16, 0x1110#16, 0x0841#16] := by decide

/-- A clock cycle without events but the `TICK`, and the bus selected for a read at offset 5. -/
def readingLsr : Pins :=
  { rst := false, busSel := true, busWe := false, busAddr := 5#3, busWdata := 0x00#8, rxValid := false,
    rxData := 0x00#8, rxPe := false, rxFe := false, rxBi := false, mslValid := false, cts := false, dsr := false,
    ri := false, dcd := false }

/-- What a clock cycle showed, if it ran to its end. -/
def shown (o : Host.Outcome (CycleOutputs × State) Fault Refusal) : Option CycleOutputs :=
  match o with
  | .next p => some p.1
  | .fault _ => none
  | .refused _ => none

/-- R50, R51: the pulse of the `TICK` and the byte of the bus read stand in the outputs of their cycle, whichever of the
two comes first. -/
theorem test_clock_cycle_keeps_outputs :
    (shown (clockCycle readingLsr Source.all due2)).map (fun o => (o.txValid, o.tx, o.rdata, o.irq)) =
      some (true, [0x32#8], some 0x00#8, false) ∧
    (shown (clockCycle readingLsr [.bus, .msl, .rxb, .tick] due2)).map (fun o => (o.txValid, o.tx, o.rdata, o.irq)) =
      some (true, [0x32#8], some 0x00#8, false) := by decide

/-- R51: a cycle that sends nothing has no pulse, and a cycle with reset is the `RST` event alone. -/
theorem test_clock_cycle_levels :
    (shown (clockCycle readingLsr Source.all { plain with mcr := 0x0B#5 })).map
      (fun o => (o.txValid, o.rdata, o.dtr, o.out1, o.lcrOut)) = some (false, some 0x60#8, true, false, 0x03#8) ∧
    (shown (clockCycle { readingLsr with rst := true } Source.all due2)).map (fun o => (o.txValid, o.rdata, o.lcrOut)) =
      some (false, none, 0x00#8) := by decide

/-- V30: character times. -/
theorem test_char_ticks :
    ({ State.reset with lcr := 0x1F#8 } : State).charTicks = 2304 ∧
    ({ State.reset with lcr := 0x1A#8, dl := 0x0060#16 } : State).charTicks = 15360 ∧
    ({ State.reset with lcr := 0x3F#8, dl := 0xFFFF#16 } : State).charTicks = 12582720 ∧
    ({ State.reset with lcr := 0x03#8, dl := 0x0000#16 } : State).charTicks = 160 := by decide

/-! ### Witnesses: states and operands that meet the hypotheses of the statements, a boundary value for each clause -/

/-- DecodeOfEncode, EncodeOfDecode: the words of R89's neighbours that are events. -/
theorem witness_encoding :
    Instr.wf true (.wrDll 0xFF#8) = true ∧ decode true 0x08FF#16 = .ok (.wrDll 0xFF#8) ∧
    decode false 0x17FF#16 = .ok (.rxb 0xFF#8 true true true) ∧ decode false 0x200F#16 = .ok (.msl true true true true) := by
  decide

/-- BankBitDecodesOnlyOffsetsZeroAndOne: the bank changes offset 1 and leaves offset 2. -/
theorem witness_bank_bit :
    decode true 0x0900#16 ≠ decode false 0x0900#16 ∧ decode true 0x0A00#16 = decode false 0x0A00#16 := by decide

/-- StepRunsTheDecodedEvent, OnlyReadsReturnAByte. -/
theorem witness_step_runs :
    (State.reset.withFetchWord 16 0x0500).stim = 0x0500#16 :: [] ∧
    decode (State.reset.withFetchWord 16 0x0500).dlab 0x0500#16 = .ok .rdLsr ∧
    ∃ t, step (State.reset.withFetchWord 16 0x0500) = .next t :=
  ⟨by decide, by decide, exists_next (by decide)⟩

/-- StepRefusesWhatIsNoEvent, both clauses. -/
theorem witness_step_refuses :
    (State.reset.withFetchWord 16 0x5000).stim = 0x5000#16 :: [] ∧
    decode (State.reset.withFetchWord 16 0x5000).dlab 0x5000#16 = .error .reservedKind ∧ State.reset.stim = [] := by
  decide

/-- PresentedWordRunsNext. -/
theorem witness_presented_word :
    State.reset.dlab = false ∧ decodeTableWord 16 0x0841 = some (.wrThr 0x41#8) := by decide

/-- EventQueueRunsToItsEnd. -/
theorem witness_safe_input :
    ({ State.reset with stim := [0x3000#16, 0x17FF#16, 0x0B80#16, 0x200F#16, 0x4000#16] } : State).SafeInput ∧
    ¬EventWord 0x3001#16 := by
  refine ⟨?_, by decide⟩
  simp only [State.SafeInput, List.forall_mem_cons, List.not_mem_nil, false_implies, implies_true]
  decide

/-- AccessReadsBackWhatWasWritten: each of its offsets, and `DLAB` in both values. -/
theorem witness_read_back :
    (∀ off ∈ [3, 7, 4, 1], off = 3 ∨ off = 7 ∨ off = 4 ∨ (off = 0 ∧ State.reset.dlab = true) ∨ off = 1) ∧
    banked.dlab = true ∧ State.reset.dlab = false := by decide

/-- AccessOutsideTheSpaceIsRefused: the first offset outside, and the widths beside one byte. -/
theorem witness_outside : (8 ≤ 8 ∧ ¬8 ≤ 7) ∧ (0 ≠ 1 ∧ 2 ≠ 1) := by decide

/-- WriteOfLcrDetectsBreakStart: the edge, and no edge. -/
theorem witness_break :
    (0x40#8).getLsbD 6 = true ∧ State.reset.lastBreakEnable = false ∧ State.reset.lsrBi = false ∧
    (after (.wrLcr 0x40#8) State.reset).lastBreakEnable = true ∧ (0xBF#8).getLsbD 6 = false := by decide

/-- WriteOfMcrLoopsItsOutputs, ModemLineReportRecordsLines: both values of the loopback bit. -/
theorem witness_modem :
    (0x0F#8).getLsbD 4 = false ∧ (0x10#8).getLsbD 4 = true ∧ State.reset.mcr.getLsbD 4 = false ∧
    looped.mcr.getLsbD 4 = true := by decide

/-- WriteOfFcrSetsFifoMode, SwitchingFifoModeKeepsTheBytes: each command bit alone, neither, and a queue of such
writes. -/
theorem witness_fcr :
    ((0x02#8).getLsbD 1 = true ∧ (0x02#8).getLsbD 2 = false) ∧ ((0x04#8).getLsbD 1 = false ∧ (0x04#8).getLsbD 2 = true) ∧
    (∀ v ∈ [0x01#8, 0x00#8, 0xF9#8], v.getLsbD 1 = false ∧ v.getLsbD 2 = false) ∧
    [0x01#8, 0x00#8, 0xF9#8].map (fun v => 0x0A00#16 ||| v.setWidth 16) = [0x0A01#16, 0x0A00#16, 0x0AF9#16] := by decide

/-- SwitchingFifoModeKeepsTheBytes, its `TICK`: a byte queued and due, outside loopback and in it, in either mode. -/
theorem witness_due_in_either_mode :
    due2.txf.Wf due2.cfg.fifoDepth ∧ due2.txArmed = true ∧ due2.txCnt = 1 ∧ due2.txf.contents 16 = 0x32#8 :: [] ∧
    due2.loop = false ∧ due2.fifoen = false ∧
    (bothDue.txf.Wf bothDue.cfg.fifoDepth ∧ bothDue.txArmed = true ∧ bothDue.txCnt = 1 ∧
      bothDue.txf.contents 16 = 0x32#8 :: [] ∧ bothDue.loop = true ∧ bothDue.fifoen = true) := by decide

/-- TimerInLine, both clauses: in line below the trigger level, disarmed without FIFO mode. -/
theorem witness_timer_in_line :
    (got1.fifoen = true ∧ 0 < got1.rxf.count ∧ got1.rxf.count < got1.trigEff) ∧
    ¬(plain.fifoen = true ∧ 0 < plain.rxf.count ∧ plain.rxf.count < plain.trigEff) := by decide

/-- ArrivalIsQueuedOrOverruns: room for the last byte, and a full FIFO, in non-FIFO mode. -/
theorem witness_arrival :
    plain.cfg.Valid ∧ plain.rxf.Wf plain.cfg.fifoDepth ∧ plain.rxf.count < plain.ceff ∧
    (after (.rxb 0x41#8 false false false) plain).rxf.Wf 16 ∧
    (after (.rxb 0x41#8 false false false) plain).ceff ≤ (after (.rxb 0x41#8 false false false) plain).rxf.count := by
  decide

/-- ReadOfRbrTakesTheOldestByte: one byte, more than one, none. -/
theorem witness_read :
    got2.rxf.Wf got2.cfg.fifoDepth ∧ got2.rxf.contents 16 = 0x61#8 :: [0x62#8] ∧ got1.rxf.Wf 16 ∧
    got1.rxf.contents 16 = 0x61#8 :: [] ∧ plain.rxf.Wf 16 ∧ plain.rxf.contents 16 = [] := by decide

/-- FifoIsAQueue, StepKeepsBothFifosWellFormed: a ring of two whose indices have wrapped, and a full ring of one. -/
theorem witness_fifo :
    Fifo.Wf 2 ⟨[0x01#8, 0x02#8], 0, 1, 1⟩ ∧ Fifo.contents 2 ⟨[0x01#8, 0x02#8], 0, 1, 1⟩ = [0x02#8] ∧
    Fifo.Wf 1 ⟨[0x07#8], 0, 0, 1⟩ ∧ Fifo.contents 1 ⟨[0x07#8], 0, 0, 1⟩ = [0x07#8] := by decide

/-- WriteOfThrWhenIdleSendsAtOnce. -/
theorem witness_thr_idle : plain.Inv ∧ plain.tsrFull = false ∧ plain.loop = false := by decide

/-- WriteOfThrWhenIdleInLoopbackReceives: room, and overrun. -/
theorem witness_thr_loopback :
    (looped.Inv ∧ looped.tsrFull = false ∧ looped.loop = true ∧ looped.rxf.count < looped.ceff) ∧
    (after (.rxb 0x41#8 false false false) looped).Inv ∧
    (after (.rxb 0x41#8 false false false) looped).ceff ≤ (after (.rxb 0x41#8 false false false) looped).rxf.count :=
  ⟨by decide, by decide, by decide⟩

/-- WriteOfThrWhenBusyQueues: room, and no room under either policy. -/
theorem witness_thr_busy :
    sending.cfg.Valid ∧ sending.txf.Wf 16 ∧ sending.tsrFull = true ∧ sending.txf.count < sending.ceff ∧
    sending2.txf.Wf 16 ∧ sending2.tsrFull = true ∧ sending2.ceff ≤ sending2.txf.count ∧
    sending2.cfg.txFullPolicy = .drop ∧
    ({ sending2 with cfg := { Params.default with txFullPolicy := .overwriteLast } } : State).cfg.Valid ∧
    ({ sending2 with cfg := { Params.default with txFullPolicy := .overwriteLast } } : State).ceff ≤ sending2.txf.count := by
  decide

/-- TickCountsAndExpires: each premise, and each clause: counting, drained, more to send, timeout due. -/
theorem witness_tick :
    due2.txf.Wf due2.cfg.fifoDepth ∧ due2.loop = false ∧ due2.txArmed = true ∧ due2.txCnt = 1 ∧
    due2.txf.contents 16 = 0x32#8 :: [] ∧ ({ sending with txCnt := 1 } : State).txf.contents 16 = [] ∧
    ¬(sending.txArmed = true ∧ sending.txCnt = 1) ∧ (bothDue.rxArmed = true ∧ bothDue.rxCnt = 1) ∧
    ¬(due2.rxArmed = true ∧ due2.rxCnt = 1) := by decide

/-- TickInLoopbackRestartsTheTimeout, with room and (in non-FIFO mode) without. -/
theorem witness_tick_loopback :
    bothDue.cfg.Valid ∧ bothDue.txf.Wf 16 ∧ bothDue.rxf.Wf 16 ∧ bothDue.loop = true ∧ bothDue.txArmed = true ∧
    bothDue.txCnt = 1 ∧ bothDue.txf.contents 16 = 0x32#8 :: [] ∧ bothDue.rxf.count < bothDue.ceff ∧
    ({ bothDue with fifoen := false } : State).ceff ≤ bothDue.rxf.count := by decide

/-- CharacterTimeAndItsRange: the default parameters, and the smallest and largest divisor. -/
theorem witness_char_ticks :
    State.reset.cfg.Valid ∧ ({ State.reset with dl := 0x0000#16 } : State).charTicks = 7 * 16 * 1 ∧
    ({ State.reset with dl := 0xFFFF#16, lcr := 0x0F#8 } : State).charTicks = 12 * 16 * 65535 := by decide

/-- TransmitPacing: one tick to go (its smallest count), with and without a byte queued. -/
theorem witness_pacing :
    due2.txf.Wf due2.cfg.fifoDepth ∧ due2.loop = false ∧ due2.txArmed = true ∧ 1 ≤ due2.txCnt ∧
    ({ due2 with stim := [0x3000#16, 0x0500#16] } : State).stim =
      List.replicate due2.txCnt 0x3000#16 ++ [0x0500#16] ∧
    ({ sending with txCnt := 2, stim := [0x3000#16, 0x3000#16] } : State).stim = List.replicate 2 0x3000#16 ++ [] ∧
    sending.txf.contents 16 = [] ∧ due2.txf.contents 16 = 0x32#8 :: [] := by decide

/-- ReceiveTimeoutAfterItsCount. -/
theorem witness_timeout :
    got1.loop = false ∧ got1.rxArmed = true ∧
    ({ got1 with rxCnt := 2, ier := 1#4, stim := [0x3000#16, 0x3000#16, 0x4000#16] } : State).stim =
      List.replicate 2 0x3000#16 ++ [0x4000#16] ∧
    ({ got1 with rxCnt := 2, ier := 1#4 } : State).ier.getLsbD 0 = true := by decide

/-- The statements over every event that answers a next state. -/
theorem witness_any_event :
    (∃ t, exec (.wrLcr 0x83#8) sending = .next t) ∧ Instr.wrLcr 0x83#8 ≠ .rst ∧ Instr.wrLcr 0x83#8 ≠ .rdLsr ∧
    Instr.wrLcr 0x83#8 ≠ .rdMsr := ⟨⟨_, rfl⟩, by decide, by decide, by decide⟩

/-- RunningTimersAreNeverRescaled, its transmit half: an event of each kind that arms the timer, a `TICK` that only counts
it down, one that finds nothing queued, and a write while it runs. -/
theorem witness_promotes :
    plain.cfg.Valid ∧ plain.promotes (.wrThr 0x41#8) ∧ due2.promotes .tick ∧ ¬sending2.promotes .tick ∧
    ¬({ sending with txCnt := 1 } : State).promotes .tick ∧ ¬sending.promotes (.wrThr 0x42#8) :=
  ⟨by decide, .inl ⟨⟨_, rfl⟩, by decide⟩, .inr ⟨rfl, by decide⟩, by
    rintro (⟨⟨_, h⟩, -⟩ | ⟨-, -, h, -⟩)
    · cases h
    · exact absurd h (by decide), by
    rintro (⟨⟨_, h⟩, -⟩ | ⟨-, -, -, h⟩)
    · cases h
    · exact absurd h (by decide), by
    rintro (⟨-, h⟩ | ⟨h, -⟩)
    · exact absurd h (by decide)
    · cases h⟩

/-- RunningTimersAreNeverRescaled, its receive half, and ErrorBitsAreRaisedByTheirCauseOnly: an arrival, a looped-back
write, a looped-back expiry (into a full FIFO), a read, and a promotion outside loopback, which brings no byte. -/
theorem witness_restarts_timeout :
    got1.receives (.rxb 0x62#8 false false false) ∧ looped.receives (.wrThr 0x41#8) ∧
    (({ bothDue with fifoen := false } : State).receives .tick ∧
      ({ bothDue with fifoen := false } : State).ceff ≤ bothDue.rxf.count ∧ bothDue.cfg.Valid) ∧
    got2.restartsTimeout .rdRbr ∧ got2.restartsTimeout (.wrFcr 0x41#8) ∧ ¬due2.restartsTimeout .tick :=
  ⟨.inl ⟨_, _, _, _, rfl⟩, .inr ⟨by decide, .inl ⟨⟨_, rfl⟩, by decide⟩⟩,
    ⟨.inr ⟨by decide, .inr ⟨rfl, by decide⟩⟩, by decide, by decide⟩, .inr (.inl rfl), .inr (.inr ⟨_, rfl⟩), by
    rintro ((⟨_, _, _, _, h⟩ | ⟨h, -⟩) | h | ⟨_, h⟩)
    · cases h
    · exact absurd h (by decide)
    · cases h
    · cases h⟩

/-- ErrorBitsAreSticky, ErrorBitsAreRaisedByTheirCauseOnly: each bit raised, an overrun by a looped-back byte, and both
clears of a set bit. -/
theorem witness_errors :
    ((after (.rxb 0x42#8 true true true) (after (.rxb 0x41#8 false false false) plain)).lsrOe = true ∧
      plain.lsrOe = false) ∧
    ((after (.rxb 0x42#8 true true true) plain).lsrPe = true ∧ (after (.rxb 0x42#8 true true true) plain).lsrFe = true ∧
      (after (.rxb 0x42#8 true true true) plain).lsrBi = true) ∧
    (after (.wrLcr 0x43#8) plain).lsrBi = true ∧
    ((after .tick { bothDue with fifoen := false }).lsrOe = true ∧ bothDue.lsrOe = false) ∧
    ((after .rdLsr { plain with lsrOe := true }).lsrOe = false ∧ (after .rst { plain with lsrOe := true }).lsrOe = false) := by
  decide

/-- TransmitStatusFollowsTheDrain, TransmitPendingRaisedAndCleared: the rise in a `TICK`, the falls. -/
theorem witness_transmit_status :
    (sending.lsrThre = false ∧ sending.lsrTemt = false ∧ sending.thrIpending = false ∧ sending.txf.count = 0) ∧
    ((after .tick { sending with txCnt := 1 }).lsrThre = true ∧ (after .tick { sending with txCnt := 1 }).lsrTemt = true ∧
      (after .tick { sending with txCnt := 1 }).thrIpending = true) ∧
    (after (.wrThr 0x01#8) plain).lsrThre = false ∧
    (after .rdIir { plain with thrIpending := true }).thrIpending = false := by decide

/-- TimeoutPendingRaisedAndCleared: the rise in a `TICK`, the fall in a read. -/
theorem witness_timeout_pending :
    (got1.timeoutIpending = false ∧ (after .tick { got1 with rxCnt := 1 }).timeoutIpending = true) ∧
    (after .rdRbr { got1 with timeoutIpending := true }).timeoutIpending = false ∧
    (after (.wrFcr 0x03#8) { got1 with timeoutIpending := true }).timeoutIpending = false := by decide

/-- RegistersHaveTheirWritersOnly: each register does change in some event. -/
theorem witness_writers :
    (after (.wrDll 0x01#8) plain).dl ≠ plain.dl ∧ (after .rdRbr got1).rbr ≠ got1.rbr ∧
    (after (.wrThr 0x01#8) plain).thr ≠ plain.thr ∧ (after (.wrIer 0x01#8) plain).ier ≠ plain.ier ∧
    (after (.wrFcr 0x01#8) plain).fifoen ≠ plain.fifoen ∧ (after (.wrFcr 0x40#8) plain).rxtrig ≠ plain.rxtrig ∧
    (after (.wrLcr 0x40#8) plain).lastBreakEnable ≠ plain.lastBreakEnable ∧ (after (.wrMcr 0x01#8) plain).mcr ≠ plain.mcr ∧
    ((after (.wrThr 0x01#8) plain).tsr ≠ plain.tsr ∧ (after .tick due2).tsr ≠ due2.tsr ∧
      (after .tick { sending with txCnt := 1 }).tsrFull ≠ sending.tsrFull) ∧
    (after (.wrScr 0x01#8) plain).scr ≠ plain.scr ∧ (after (.msl true false false false) plain).msr ≠ plain.msr := by
  decide

/-- ModemDeltaBitsAreSticky: a delta bit of the lowest and of the highest line, set with its line. -/
theorem witness_delta :
    (after (.msl true false false true) plain).msr.getLsbD 0 = true ∧
    (after (.msl true false false true) plain).msr.getLsbD 4 ≠ plain.msr.getLsbD 4 ∧
    (after (.msl true false false true) plain).msr.getLsbD 7 ≠ plain.msr.getLsbD 7 := by decide

/-- StepKeepsParametersAndTakesOneEvent, StepSendsAtMostOneByte, both outcomes, and loopback. -/
theorem witness_step_sends :
    (ran (step (plain.withFetchWord 16 0x0841))).map (·.txOut) = some (some 0x41#8) ∧
    (ran (step (plain.withFetchWord 16 0x0500))).map (·.txOut) = some none ∧
    (ran (step (looped.withFetchWord 16 0x0841))).map (·.txOut) = some none ∧ looped.mcr.getLsbD 4 = true := by decide

/-- BankOneAccessReachesOnlyTheDivisor: both offsets. -/
theorem witness_bank_one :
    (banked.withFetchWord 16 0x0834).stim = 0x0834#16 :: [] ∧ (banked.withFetchWord 16 0x0834).dlab = true ∧
    ((0x0834#16 : Word) >>> 12).toNat = 0 ∧ (((0x0834#16 : Word) >>> 8) &&& 7#16).toNat = 0 ∧
    (((0x01FF#16 : Word) >>> 8) &&& 7#16).toNat = 1 := by decide

def levelShown : State := { got1 with ier := 0xB#4, rxtrig := 0#2 }
def timeoutShown : State := { got1 with ier := 0xB#4, timeoutIpending := true }
def transmitShown : State := { plain with ier := 0xA#4, thrIpending := true }
def modemShown : State := { plain with ier := 0x8#4, msr := 0x01#8 }

/-- IirShowsTheHighestPrioritySource: a state for each code. -/
theorem witness_priority :
    ({ got1 with lsrOe := true, ier := 0xF#4 } : State).rlsActive = true ∧
    (levelShown.rlsActive = false ∧ levelShown.rdaActive = true ∧ levelShown.trigEff ≤ levelShown.rxf.count) ∧
    (timeoutShown.rlsActive = false ∧ timeoutShown.rdaActive = true ∧
      timeoutShown.rxf.count < timeoutShown.trigEff) ∧
    (transmitShown.rlsActive = false ∧ transmitShown.rdaActive = false ∧ transmitShown.threActive = true) ∧
    (modemShown.rlsActive = false ∧ modemShown.rdaActive = false ∧ modemShown.threActive = false ∧
      modemShown.msActive = true) ∧ State.reset.irq = false := by decide

/-- FIFO mode, one byte received, its timeout just expired. -/
def timedOut : State := after .tick { got1 with rxCnt := 1, ier := 1#4 }

/-- IirIsATableValue: the invariant in either mode, with the timeout code among the values. -/
theorem witness_iir :
    (plain.Inv ∧ plain.fifoen = false) ∧ timedOut.Inv ∧ timedOut.fifoen = true ∧ timedOut.iir = 0xCC#8 :=
  ⟨by decide, by decide, by decide, by decide⟩

/-- ResetStateMeetsTheInvariant: a legal record with every parameter at its least. -/
theorem witness_params :
    Params.Valid ⟨1, 1, 1, 1, 1, 1, 1, 0x0000#16, 1, .overwriteLast, .fixed Source.all⟩ ∧ Params.default.Valid := by
  decide

/-- StepKeepsTheInvariant: a step from a state that meets it. -/
theorem witness_invariant :
    due2.Inv ∧ ∃ t, step (due2.withFetchWord 16 0x3000) = .next t := ⟨by decide, exists_next (by decide)⟩

/-- ResetEventEstablishesTheInvariant: a state that does not meet it before. -/
theorem witness_reset_event :
    ¬({ plain with tsrFull := true, rxf := ⟨List.replicate 16 0x00#8, 20, 3, 99⟩ } : State).Inv ∧ plain.cfg.Valid ∧
    (List.replicate 16 0x00#8).length = plain.cfg.fifoDepth := by decide

/-- LatchesAreUnobservable: two states that differ in both latches. -/
theorem witness_latches :
    plain.SameButLatches { plain with thr := 0xAA#8, tsr := 0x55#8 } ∧ ∃ t, core.run 0 plain = .next t :=
  ⟨rfl, _, rfl⟩

/-- DeadFifoEntriesAreUnobservable: a received byte in front of a different dead entry. -/
theorem witness_dead_entries :
    got1.Inv ∧ ({ got1 with rxf := { got1.rxf with data := got1.rxf.data.set 1 0xEE#8 } } : State).Inv ∧
    got1.SameButDeadEntries { got1 with rxf := { got1.rxf with data := got1.rxf.data.set 1 0xEE#8 } } :=
  ⟨by decide, by decide, rfl, ⟨rfl, rfl, rfl, by decide⟩, ⟨rfl, rfl, rfl, rfl⟩⟩

/-- ClockCycleSendsAtMostOneByte: an admitted order under either setting of `EVENT_ORDER`, one that is not admitted, and
a cycle with a bus read, first and last in its order. -/
theorem witness_cycle :
    (due2.Inv ∧ due2.stim = [] ∧ due2.cfg.eventOrder = .any) ∧ orderAdmitted .any [.bus, .msl, .rxb, .tick] = true ∧
    orderAdmitted (.fixed Source.all) Source.all = true ∧
    orderAdmitted (.fixed Source.all) [.bus, .msl, .rxb, .tick] = false ∧
    (readingLsr.rst = false ∧ readingLsr.busSel = true ∧ readingLsr.busWe = false) ∧
    [Source.bus, .msl, .rxb, .tick] = [] ++ Source.bus :: [.msl, .rxb, .tick] ∧
    Source.all = [.tick, .rxb, .msl] ++ Source.bus :: [] := by decide

end Sys2Proof.Tests
end

section
/-! PROOF. Both FIFOs stay well-formed (spec/10_state.md R35): what each operation that writes a FIFO keeps, then every
event, then every step. -/

namespace Sys2Proof.Machine

/-! ### One FIFO -/

/-- R35: the `k`-th queued byte, oldest first, stands `k` places after `tail` in the ring. -/
theorem Fifo.contents_getElem? {c : Nat} {f : Fifo} (h : f.Wf c) {k : Nat} (hk : k < f.count) :
    (f.contents c)[k]? = f.data[(f.tail + k) % c]? := by
  obtain ⟨hlen, -, -, hcount, -⟩ := h
  have hidx : (f.tail + k) % c < f.data.length := hlen ▸ Nat.mod_lt _ (by omega)
  simp [Fifo.contents, hk, hidx]

/-- R142 under a reset command that may or may not be given (R118). -/
theorem Fifo.wf_clear_if {c : Nat} {f : Fifo} (h : f.Wf c) (hc : 1 ≤ c) (reset : Bool) :
    (if reset then f.clear else f).Wf c := by
  cases reset
  · exact h
  · exact Fifo.wf_clear h.1 hc

/-! ### What each operation keeps -/

/-- The part of the invariant that speaks of the FIFOs (R35), with the capacity of at least one byte that R7 gives. -/
def State.FifosWf (s : State) : Prop :=
  1 ≤ s.cfg.fifoDepth ∧ s.rxf.Wf s.cfg.fifoDepth ∧ s.txf.Wf s.cfg.fifoDepth

namespace State.FifosWf

variable {s : State}

/-- R146: a byte is queued only below `ceff`, which is at most the capacity. -/
theorem rxAccept (h : s.FifosWf) (d : Byte) (pe fe bi : Bool) : (s.rxAccept d pe fe bi).FifosWf := by
  obtain ⟨hdepth, hrx, htx⟩ := h
  have hrx' : (s.rxAccept d pe fe bi).rxf.Wf s.cfg.fifoDepth := by
    rcases Nat.lt_or_ge s.rxf.count s.ceff with hroom | hfull
    · rw [(State.rxAccept_room d pe fe bi hroom).1]
      exact Fifo.wf_enq hrx (Nat.lt_of_lt_of_le hroom (State.ceff_le hdepth)) d
    · rwa [(State.rxAccept_overrun d pe fe bi hfull).1]
  exact ⟨hdepth, hrx', htx⟩

/-- R164. -/
theorem deliver (h : s.FifosWf) (b : Byte) : (s.deliver b).FifosWf := by
  rcases hl : s.loop
  · rw [State.deliver_send b hl]; exact h
  · rw [State.deliver_loop b hl]; exact h.rxAccept b false false false

/-- R163: a byte is promoted only from a FIFO that holds one. -/
theorem txStart (h : s.FifosWf) : s.txStart.FifosWf := by
  rcases Nat.eq_zero_or_pos s.txf.count with h0 | hpos
  · rwa [State.txStart_empty h0]
  · obtain ⟨hdepth, hrx, htx⟩ := h
    have hpromote : s.promote.FifosWf := ⟨hdepth, hrx, Fifo.wf_deq htx hpos⟩
    rw [State.txStart_more hpos]
    exact hpromote.deliver s.txf.front

/-- R167. -/
theorem txExpire (h : s.FifosWf) : s.txExpire.FifosWf := by
  rcases Nat.eq_zero_or_pos s.txf.count with h0 | hpos
  · rw [State.txExpire_empty h0]; exact h
  · rw [State.txExpire_more hpos]; exact txStart (s := s.emptyShift) h

/-- R166, the transmit half. -/
theorem tickTx (h : s.FifosWf) (fire : Bool) : (s.tickTx fire).FifosWf := by
  cases fire
  · exact h
  · exact txExpire (s := s.disarmTx) h

/-- R166, the timeout half, which writes neither FIFO. -/
theorem tickRx (h : s.FifosWf) (fire : Bool) : (s.tickRx fire).FifosWf := by
  rw [State.tickRx_frame]; exact h

/-- R144. -/
theorem txEnqueue (h : s.FifosWf) (v : Byte) : (s.txEnqueue v).FifosWf := by
  obtain ⟨hdepth, hrx, htx⟩ := h
  exact ⟨hdepth, hrx, State.wf_txfWith v hdepth htx⟩

/-- R111: a byte is taken only from a FIFO that holds one. -/
theorem takeRbr (h : s.FifosWf) : s.takeRbr.FifosWf := by
  obtain ⟨hdepth, hrx, htx⟩ := h
  have hrx' : (if 0 < s.rxf.count then s.rxf.deq s.cfg.fifoDepth else s.rxf).Wf s.cfg.fifoDepth := by
    split
    · next hpos => exact Fifo.wf_deq hrx hpos
    · exact hrx
  exact ⟨hdepth, hrx', htx⟩

/-- R118. -/
theorem setFcr (h : s.FifosWf) (v : Byte) : (s.setFcr v).FifosWf := by
  obtain ⟨hdepth, hrx, htx⟩ := h
  exact ⟨hdepth, Fifo.wf_clear_if hrx hdepth (fcrRxReset v), Fifo.wf_clear_if htx hdepth (fcrTxReset v)⟩

end State.FifosWf

/-! ### Every event, every step -/

/-- R35 over every event: `WR_THR`, `RD_RBR`, `WR_FCR`, `RXB`, `TICK` and `RST` can write a FIFO, `WR_MCR` and `MSL`
branch without writing one, and the others write other fields. -/
theorem State.FifosWf.exec {s t : State} {i : Instr} (h : s.FifosWf) (hx : exec i s = .next t) : t.FifosWf := by
  cases i with
  | wrThr v =>
    cases hx
    have hqueued : ((s.setThr v).txEnqueue v).txBusy.FifosWf := txEnqueue (s := s.setThr v) h v
    split
    · exact hqueued
    · exact hqueued.txStart
  | rdRbr => cases hx; exact h.takeRbr
  | wrFcr v => cases hx; exact h.setFcr v
  | wrMcr v => cases hx; split <;> exact h
  | rxb data pe fe bi => cases hx; exact h.rxAccept data pe fe bi
  | msl cts dsr ri dcd => cases hx; split <;> exact h
  | tick => cases hx; exact (tickTx (s := s.countDown) h s.fireTx).tickRx s.fireRx
  | rst =>
    cases hx
    obtain ⟨hdepth, hrx, htx⟩ := h
    exact ⟨hdepth, Fifo.wf_clear hrx.1 hdepth, Fifo.wf_clear htx.1 hdepth⟩
  | _ => cases hx; exact h

/-- R35 over every step: taking the next word and clearing the ports touch neither FIFO. -/
theorem State.FifosWf.step {s t : State} (h : s.FifosWf) (hs : step s = .next t) : t.FifosWf := by
  obtain ⟨w, ws, i, -, -, hx⟩ := step_eq_next hs
  exact State.FifosWf.exec (s := (afterFetch s).clearOutputs) h hx

/-- Settles O55: the legal capacity is at least 1, so the step keeps `State.FifosWf`; the order of the queued bytes is
`Fifo.contents_getElem?`. -/
theorem stepKeepsBothFifosWellFormed : Obligations.StepKeepsBothFifosWellFormed := by
  constructor
  · intro s t hcfg hrx htx hs
    have hwf : s.FifosWf := ⟨hcfg.1, hrx, htx⟩
    exact (hwf.step hs).2
  · intro c f hf
    exact ⟨Fifo.length_contents c f, fun k hk => Fifo.contents_getElem? hf hk⟩

end Sys2Proof.Machine
end

section
/-! PROOF. The divisor latch (spec/30_encoding.md R84, spec/42_timing_and_transmit.md R161): its two halves are written
separately, and the stored value 0 times as 1. -/

namespace Sys2Proof.Machine

@[simp] theorem State.setDl_setDl (s : State) (d e : BitVec 16) : (s.setDl d).setDl e = s.setDl e := rfl

/-- The high byte joins the low byte that stands. -/
theorem dlWithHigh_eq_append_dlLow (dl : BitVec 16) (v : Byte) : dlWithHigh dl v = v ++ dlLow dl := rfl

/-- The low byte joins the high byte that stands. -/
theorem dlWithLow_eq_dlHigh_append (dl : BitVec 16) (v : Byte) : dlWithLow dl v = dlHigh dl ++ v := rfl

/-- R84: the high byte written last keeps the low byte written first. -/
@[simp] theorem dlWithHigh_dlWithLow (dl : BitVec 16) (low high : Byte) :
    dlWithHigh (dlWithLow dl low) high = high ++ low := by
  rw [dlWithHigh_eq_append_dlLow, dlLow_dlWithLow]

/-- R84: the low byte written last keeps the high byte written first. -/
@[simp] theorem dlWithLow_dlWithHigh (dl : BitVec 16) (low high : Byte) :
    dlWithLow (dlWithHigh dl high) low = high ++ low := by
  rw [dlWithLow_eq_dlHigh_append, dlHigh_dlWithHigh]

theorem toNat_byte_append_byte (high low : Byte) :
    (high ++ low : BitVec 16).toNat = 256 * high.toNat + low.toNat := by
  rw [BitVec.toNat_append, ← Nat.shiftLeft_add_eq_or_of_lt low.isLt, Nat.shiftLeft_eq, Nat.mul_comm]

/-- R112: `WR_DLL` answers for every byte and state. -/
theorem exec_wrDll (v : Byte) (s : State) : exec (.wrDll v) s = .next (s.setDl (dlWithLow s.dl v)) := rfl

/-- R116: `WR_DLM` answers for every byte and state. -/
theorem exec_wrDlm (v : Byte) (s : State) : exec (.wrDlm v) s = .next (s.setDl (dlWithHigh s.dl v)) := rfl

theorem exec_wrDlm_after_wrDll (low high : Byte) (s : State) :
    exec (.wrDlm high) (s.setDl (dlWithLow s.dl low)) = .next (s.setDl (high ++ low)) := by
  rw [exec_wrDlm, State.setDl_setDl, State.setDl_dl, dlWithHigh_dlWithLow]

theorem exec_wrDll_after_wrDlm (low high : Byte) (s : State) :
    exec (.wrDll low) (s.setDl (dlWithHigh s.dl high)) = .next (s.setDl (high ++ low)) := by
  rw [exec_wrDll, State.setDl_setDl, State.setDl_dl, dlWithLow_dlWithHigh]

/-- Settles O15: in either order the second write leaves `high ++ low` in the divisor latch; the timing half is
`State.effDiv_eq`. -/
theorem divisorIsWrittenInTwoHalves : Obligations.DivisorIsWrittenInTwoHalves := by
  constructor
  · intro low high s
    exact ⟨s.setDl (dlWithLow s.dl low), s.setDl (dlWithHigh s.dl high), s.setDl (high ++ low),
      exec_wrDll low s, exec_wrDlm_after_wrDll low high s, exec_wrDlm high s, exec_wrDll_after_wrDlm low high s,
      rfl, toNat_byte_append_byte high low⟩
  · intro s
    rw [State.effDiv_eq]
    split <;> omega

end Sys2Proof.Machine
end

section
/-! PROOF. The registers that are plainly read or written, and the three status reads that clear what they report
(spec/40_bus_register_ops.md R112 to R119, R121, R123, R124, R126, R128, R129). -/

namespace Sys2Proof

/-! ### The words (R80, R81) -/

/-- R81: the canonical word of a read is its offset in `w[10:8]`. -/
theorem decode_readWord (dlab : Bool) (a : BitVec 3) :
    decode dlab (addrBits a <<< 8) = .ok (selectBus dlab false a 0#8) := by
  have hword : busWord false a 0#8 = addrBits a <<< 8 := by simp [busWord, flagBits, byteBits]
  rw [← hword, decode_busWord]

/-- R81: the word of a write is `we` and its offset in the high byte, and the written byte in the low one. -/
theorem decode_writeWord (dlab : Bool) (a : BitVec 3) (v : Byte) :
    decode dlab ((0x0800#16 ||| addrBits a <<< 8) ||| v.setWidth 16) = .ok (selectBus dlab true a v) :=
  decode_busWord dlab true a v

end Sys2Proof

namespace Sys2Proof.Machine

/-! ### Reads without side effect -/

/-- R113. -/
theorem exec_rdDll (s : State) : exec .rdDll s = .next (s.reply (dlLow s.dl)) := rfl

/-- R117. -/
theorem exec_rdDlm (s : State) : exec .rdDlm s = .next (s.reply (dlHigh s.dl)) := rfl

/-- R115. -/
theorem exec_rdIer (s : State) : exec .rdIer s = .next (s.reply (ierByte s.ier)) := rfl

/-- R121. -/
theorem exec_rdLcr (s : State) : exec .rdLcr s = .next (s.reply s.lcr) := rfl

/-- R123. -/
theorem exec_rdMcr (s : State) : exec .rdMcr s = .next (s.reply (mcrByte s.mcr)) := rfl

/-- R129. -/
theorem exec_rdScr (s : State) : exec .rdScr s = .next (s.reply s.scr) := rfl

/-- Settles O13: each read is one `State.reply`, and the assembled bytes are the registers widened or narrowed. -/
theorem plainReadsReturnTheirRegister : Obligations.PlainReadsReturnTheirRegister := by
  refine ⟨decode_readWord true 0#3, decode_readWord true 1#3, decode_readWord false 1#3,
    fun dlab => ⟨decode_readWord dlab 3#3, decode_readWord dlab 4#3, decode_readWord dlab 7#3⟩,
    fun s => ⟨?_, ?_, ?_, exec_rdLcr s, ?_, exec_rdScr s⟩⟩
  · rw [exec_rdDll, dlLow_eq, State.reply]
  · rw [exec_rdDlm, dlHigh_eq, State.reply]
  · rw [exec_rdIer, ierByte_eq, State.reply]
  · rw [exec_rdMcr, mcrByte_eq, State.reply]

/-! ### Writes without side effect -/

/-- R114. -/
theorem exec_wrIer (v : Byte) (s : State) : exec (.wrIer v) s = .next (s.setIer (ierOf v)) := rfl

/-- R128. -/
theorem exec_wrScr (v : Byte) (s : State) : exec (.wrScr v) s = .next (s.setScr v) := rfl

/-- Settles O14: each write sets one field, and the assembled divisor and the kept bits of `ier` are masks of the old
value and the byte. -/
theorem plainWritesSetTheirRegister : Obligations.PlainWritesSetTheirRegister := by
  intro v
  refine ⟨decode_writeWord true 0#3 v, decode_writeWord true 1#3 v, decode_writeWord false 1#3 v,
    fun dlab => decode_writeWord dlab 7#3 v, fun s => ⟨?_, ?_, ?_, exec_wrScr v s⟩⟩
  · rw [exec_wrDll, dlWithLow_eq, State.setDl]
  · rw [exec_wrDlm, dlWithHigh_eq, State.setDl]
  · rw [exec_wrIer, ierOf_eq, State.setIer]

/-! ### Status reads that clear -/

/-- R119: the result is taken before the clear. -/
theorem exec_rdIir (s : State) : exec .rdIir s = .next (s.reply s.iir).clearThrPending := rfl

/-- R124: the result is taken before the clear. -/
theorem exec_rdLsr (s : State) : exec .rdLsr s = .next (s.reply s.lsr).clearErrors := rfl

/-- R126: the result is taken before the clear. -/
theorem exec_rdMsr (s : State) : exec .rdMsr s = .next (s.reply s.msr).clearDeltas := rfl

/-- R126: clearing the deltas is masking `msr` to the recorded lines. -/
theorem State.clearDeltas_eq (s : State) : s.clearDeltas = { s with msr := s.msr &&& 0xF0#8 } := by
  rw [State.clearDeltas, msrClearedDeltas_eq]

/-- Settles O17: `RD_IIR` replies and then clears `thr_ipending`, with no condition on the value returned. -/
theorem readOfIirClearsTransmitPending : Obligations.ReadOfIirClearsTransmitPending :=
  ⟨fun dlab => decode_readWord dlab 2#3, exec_rdIir⟩

/-- Settles O18: the byte is `lsr()`, whose bits `State.lsr_bits` gives. -/
theorem readOfLsrReturnsAndClearsErrors : Obligations.ReadOfLsrReturnsAndClearsErrors :=
  ⟨fun dlab => decode_readWord dlab 5#3, fun s => ⟨s.lsr, exec_rdLsr s, State.lsr_bits s⟩⟩

/-- Settles O19: the mask form of the clear is `State.clearDeltas_eq`. -/
theorem readOfMsrReturnsAndClearsDeltas : Obligations.ReadOfMsrReturnsAndClearsDeltas := by
  refine ⟨fun dlab => decode_readWord dlab 6#3, fun s => ?_⟩
  rw [exec_rdMsr, State.clearDeltas_eq, State.reply]

end Sys2Proof.Machine
end

section
/-! PROOF. FIFO mode and the bytes (spec/41_fifo_and_receive.md R149): a sequence of `WR_FCR` events, and the transmit
expiry, which has no case on FIFO mode. -/

namespace Sys2Proof.Machine

/-! ### A sequence of FIFO control writes -/

/-- The state after the next event when that event is `WR_FCR` with the byte `v` (R118). -/
def State.afterFcr (s : State) (v : Byte) : State := ((afterFetch s).clearOutputs.setFcr v).rxtoRestart

/-- R80, R81: the word `0x0A00 | v` is `WR_FCR v` in either bank. -/
theorem step_wrFcr {s : State} {v : Byte} {ws : List Word} (h : s.stim = (0x0A00#16 ||| v.setWidth 16) :: ws) :
    step s = .next (s.afterFcr v) :=
  step_of_decode h (i := .wrFcr v) (decode_writeWord s.dlab 2#3 v)

theorem State.afterFcr_stim {s : State} {w : Word} {ws : List Word} (v : Byte) (h : s.stim = w :: ws) :
    (s.afterFcr v).stim = ws := by
  simp [State.afterFcr, afterFetch, h]

theorem State.afterFcr_fifoen (s : State) (v : Byte) : (s.afterFcr v).fifoen = v.getLsbD 0 := rfl

/-- R149: without its reset bit a write keeps the receive FIFO, whatever the enable bit says. -/
theorem State.afterFcr_rxf (s : State) {v : Byte} (h : v.getLsbD 1 = false) : (s.afterFcr v).rxf = s.rxf := by
  have hkeep : fcrRxReset v = false := h
  simp [State.afterFcr, afterFetch, hkeep]

/-- R149: without its reset bit a write keeps the transmit FIFO, whatever the enable bit says. -/
theorem State.afterFcr_txf (s : State) {v : Byte} (h : v.getLsbD 2 = false) : (s.afterFcr v).txf = s.txf := by
  have hkeep : fcrTxReset v = false := h
  simp [State.afterFcr, afterFetch, hkeep]

/-- R118: `t` is `s` with its events taken, changed at most in the output ports and the fields `WR_FCR` writes. -/
def State.FcrFrame (s t : State) : Prop :=
  t = { s with
    stim := [], rdata := t.rdata, txOut := t.txOut, fifoen := t.fifoen, rxtrig := t.rxtrig, rxf := t.rxf, txf := t.txf
    timeoutIpending := t.timeoutIpending, rxArmed := t.rxArmed, rxCnt := t.rxCnt }

theorem State.FcrFrame.refl {s : State} (h : s.stim = []) : s.FcrFrame s := by
  rw [State.FcrFrame, ← h]

/-- What a write changes is among the fields that the frame leaves open. -/
theorem State.FcrFrame.of_afterFcr {s t : State} {v : Byte} (h : (s.afterFcr v).FcrFrame t) : s.FcrFrame t := by
  simpa [State.FcrFrame, State.afterFcr, afterFetch] using h

/-- A queue of `WR_FCR` words runs to its end. -/
theorem core_run_wrFcrs {vs : List Byte} {s : State} (h : s.stim = vs.map fun v => 0x0A00#16 ||| v.setWidth 16) :
    core.run vs.length s = .next (vs.foldl State.afterFcr s) := by
  induction vs generalizing s with
  | nil => rfl
  | cons v vs ih => exact (core_run_succ vs.length (step_wrFcr h)).trans (ih (s.afterFcr_stim v h))

theorem foldl_afterFcr_frame {vs : List Byte} {s : State}
    (h : s.stim = vs.map fun v => 0x0A00#16 ||| v.setWidth 16) : s.FcrFrame (vs.foldl State.afterFcr s) := by
  induction vs generalizing s with
  | nil => exact .refl h
  | cons v vs ih => exact (ih (s.afterFcr_stim v h)).of_afterFcr

/-- R149: writes that leave the receive reset bit clear keep the receive FIFO. -/
theorem foldl_afterFcr_rxf {vs : List Byte} (s : State) (h : ∀ v ∈ vs, v.getLsbD 1 = false) :
    (vs.foldl State.afterFcr s).rxf = s.rxf :=
  vs.foldlRecOn (motive := fun t => t.rxf = s.rxf) State.afterFcr rfl
    fun t ht v hv => (t.afterFcr_rxf (h v hv)).trans ht

/-- R149: writes that leave the transmit reset bit clear keep the transmit FIFO. -/
theorem foldl_afterFcr_txf {vs : List Byte} (s : State) (h : ∀ v ∈ vs, v.getLsbD 2 = false) :
    (vs.foldl State.afterFcr s).txf = s.txf :=
  vs.foldlRecOn (motive := fun t => t.txf = s.txf) State.afterFcr rfl
    fun t ht v hv => (t.afterFcr_txf (h v hv)).trans ht

/-- R118: the last write decides FIFO mode. -/
theorem foldl_afterFcr_fifoen {vs : List Byte} {v : Byte} (s : State) (h : vs.getLast? = some v) :
    (vs.foldl State.afterFcr s).fifoen = v.getLsbD 0 := by
  obtain ⟨us, rfl⟩ := List.getLast?_eq_some_iff.mp h
  rw [List.foldl_append]
  exact State.afterFcr_fifoen _ v

/-! ### The transmit expiry -/

@[simp] theorem State.rxAccept_sent (s : State) (d : Byte) (pe fe bi : Bool) :
    (s.rxAccept d pe fe bi).sent = s.sent := rfl
@[simp] theorem State.rxAccept_txOut (s : State) (d : Byte) (pe fe bi : Bool) :
    (s.rxAccept d pe fe bi).txOut = s.txOut := rfl

@[simp] theorem State.deliver_fifoen (s : State) (b : Byte) : (s.deliver b).fifoen = s.fifoen := by
  rw [State.deliver_frame]
@[simp] theorem State.deliver_txf (s : State) (b : Byte) : (s.deliver b).txf = s.txf := by
  rw [State.deliver_frame]
@[simp] theorem State.deliver_tsr (s : State) (b : Byte) : (s.deliver b).tsr = s.tsr := by
  rw [State.deliver_frame]

@[simp] theorem State.tickRx_fifoen (s : State) (fire : Bool) : (s.tickRx fire).fifoen = s.fifoen := by
  rw [State.tickRx_frame]
@[simp] theorem State.tickRx_txf (s : State) (fire : Bool) : (s.tickRx fire).txf = s.txf := by
  rw [State.tickRx_frame]
@[simp] theorem State.tickRx_tsr (s : State) (fire : Bool) : (s.tickRx fire).tsr = s.tsr := by
  rw [State.tickRx_frame]
@[simp] theorem State.tickRx_txArmed (s : State) (fire : Bool) : (s.tickRx fire).txArmed = s.txArmed := by
  rw [State.tickRx_frame]
@[simp] theorem State.tickRx_txCnt (s : State) (fire : Bool) : (s.tickRx fire).txCnt = s.txCnt := by
  rw [State.tickRx_frame]
@[simp] theorem State.tickRx_sent (s : State) (fire : Bool) : (s.tickRx fire).sent = s.sent := by
  rw [State.tickRx_frame]
@[simp] theorem State.tickRx_txOut (s : State) (fire : Bool) : (s.tickRx fire).txOut = s.txOut := by
  rw [State.tickRx_frame]

/-- R166, R167, R163: a `TICK` with the transmit timer due and a byte queued promotes and delivers the oldest byte and
starts the timer again, before the timeout timer's own part. -/
theorem exec_tick_due {s : State} (harmed : s.txArmed = true) (hcnt : s.txCnt = 1) (hne : 0 < s.txf.count) :
    exec .tick s = .next
      (((s.countDown.disarmTx.emptyShift.promote.deliver s.txf.front).armTx s.charTicks).tickRx s.fireRx) := by
  have hfire : s.fireTx = true := State.fireTx_eq_true.mpr ⟨harmed, hcnt⟩
  have hexpire : s.countDown.disarmTx.txExpire =
      (s.countDown.disarmTx.emptyShift.promote.deliver s.txf.front).armTx s.charTicks :=
    (State.txExpire_more (s := s.countDown.disarmTx) hne).trans
      (State.txStart_more (s := s.countDown.disarmTx.emptyShift) hne)
  calc exec .tick s = .next ((s.countDown.tickTx s.fireTx).tickRx s.fireRx) := rfl
    _ = _ := by rw [hfire, State.tickTx_true, hexpire]

/-- Settles O24: a run of `WR_FCR` events is a fold of writes each of which keeps a FIFO that it does not reset; a due
`TICK` delivers the front of the transmit FIFO, out of the port or, in loopback, to the receive path. -/
theorem switchingFifoModeKeepsTheBytes : Obligations.SwitchingFifoModeKeepsTheBytes := by
  constructor
  · intro vs s hstim
    exact ⟨_, core_run_wrFcrs hstim, foldl_afterFcr_frame hstim, foldl_afterFcr_rxf s, foldl_afterFcr_txf s,
      fun _ => foldl_afterFcr_fifoen s⟩
  · intro s b rest hwf harmed hcnt hqueue
    have hne : 0 < s.txf.count := Fifo.count_pos_of_contents_cons hqueue
    rw [Fifo.contents_deq hwf hne] at hqueue
    obtain ⟨rfl, hrest⟩ := List.cons.inj hqueue
    refine ⟨_, exec_tick_due harmed hcnt hne, by simp, by simpa using hrest, by simp, by simp, by simp,
      fun hl => ?_, fun hl => ?_⟩
    · rw [State.deliver_send (s := s.countDown.disarmTx.emptyShift.promote) _ hl]; simp
    · rw [State.deliver_loop (s := s.countDown.disarmTx.emptyShift.promote) _ hl]; simp

end Sys2Proof.Machine
end

section
/-! PROOF. The decoder kind by kind (spec/30_encoding.md R80, R81, R89), and the encoder against it in both
directions. -/

namespace Sys2Proof

/-! ### One equation per kind -/

/-- R81: kind 0 is a bus operation, in every spelling. -/
theorem decode_of_kind_bus {w : Word} (dlab : Bool) (h : wordKind w = 0#4) :
    decode dlab w = .ok (selectBus dlab (wordWe w) (wordAddr w) (wordByte w)) := by simp [decode, h]

theorem decode_of_kind_rxb {w : Word} (dlab : Bool) (h : wordKind w = 1#4) :
    decode dlab w = if w.getLsbD 11 then .error .rxbBit11
      else .ok (.rxb (wordByte w) (w.getLsbD 8) (w.getLsbD 9) (w.getLsbD 10)) := by simp [decode, h]

theorem decode_of_kind_msl {w : Word} (dlab : Bool) (h : wordKind w = 2#4) :
    decode dlab w = if wordMslZero w ≠ 0#8 then .error .mslHighBits
      else .ok (.msl (w.getLsbD 0) (w.getLsbD 1) (w.getLsbD 2) (w.getLsbD 3)) := by simp [decode, h]

theorem decode_of_kind_tick {w : Word} (dlab : Bool) (h : wordKind w = 3#4) :
    decode dlab w = if wordLow12 w ≠ 0#12 then .error .tickLowBits else .ok .tick := by simp [decode, h]

theorem decode_of_kind_rst {w : Word} (dlab : Bool) (h : wordKind w = 4#4) :
    decode dlab w = if wordLow12 w ≠ 0#12 then .error .rstLowBits else .ok .rst := by simp [decode, h]

/-- R89: the kinds from 5 on are reserved. -/
theorem decode_of_kind_reserved {w : Word} (dlab : Bool) (h : 5 ≤ (wordKind w).toNat) :
    decode dlab w = .error .reservedKind := by
  unfold decode
  split
  case h_6 => rfl
  all_goals omega

/-- A word is of one of the five kinds, or its kind is reserved. -/
theorem wordKind_cases (w : Word) :
    wordKind w = 0#4 ∨ wordKind w = 1#4 ∨ wordKind w = 2#4 ∨ wordKind w = 3#4 ∨ wordKind w = 4#4 ∨
      5 ≤ (wordKind w).toNat := by
  generalize wordKind w = k; revert k; decide

/-! ### Decoding what was encoded -/

/-- R80, format X. -/
theorem decode_encode_rxb (dlab : Bool) (d : Byte) (pe fe bi : Bool) :
    decode dlab (encode (.rxb d pe fe bi)) = .ok (.rxb d pe fe bi) := by
  have hkind : wordKind (encode (.rxb d pe fe bi)) = 1#4 := by
    refine BitVec.eq_of_getLsbD_eq fun i hi => ?_
    interval_cases i <;> simp [wordKind, encode, byteBits, flagBits]
  have hbyte : wordByte (encode (.rxb d pe fe bi)) = d := by
    refine BitVec.eq_of_getLsbD_eq fun i hi => ?_
    interval_cases i <;> simp [wordByte, encode, byteBits, flagBits]
  rw [decode_of_kind_rxb dlab hkind, hbyte]
  simp [encode, byteBits, flagBits]

/-- R80, format M. -/
theorem decode_encode_msl (dlab cts dsr ri dcd : Bool) :
    decode dlab (encode (.msl cts dsr ri dcd)) = .ok (.msl cts dsr ri dcd) := by
  revert dlab cts dsr ri dcd; decide

/-- Settles O2: a bus event is the one `selectBus` finds at its own offset and direction, in its own bank; the other
events carry their kind and their operand. -/
theorem decodeOfEncode : Obligations.DecodeOfEncode := by
  intro dlab i hwf
  cases i with
  | wrThr v => cases (beq_iff_eq.mp hwf : false = dlab); exact decode_busWord false true 0#3 v
  | rdRbr => cases (beq_iff_eq.mp hwf : false = dlab); exact decode_busWord false false 0#3 0#8
  | wrDll v => cases (beq_iff_eq.mp hwf : true = dlab); exact decode_busWord true true 0#3 v
  | rdDll => cases (beq_iff_eq.mp hwf : true = dlab); exact decode_busWord true false 0#3 0#8
  | wrIer v => cases (beq_iff_eq.mp hwf : false = dlab); exact decode_busWord false true 1#3 v
  | rdIer => cases (beq_iff_eq.mp hwf : false = dlab); exact decode_busWord false false 1#3 0#8
  | wrDlm v => cases (beq_iff_eq.mp hwf : true = dlab); exact decode_busWord true true 1#3 v
  | rdDlm => cases (beq_iff_eq.mp hwf : true = dlab); exact decode_busWord true false 1#3 0#8
  | wrFcr v => exact decode_busWord dlab true 2#3 v
  | rdIir => exact decode_busWord dlab false 2#3 0#8
  | wrLcr v => exact decode_busWord dlab true 3#3 v
  | rdLcr => exact decode_busWord dlab false 3#3 0#8
  | wrMcr v => exact decode_busWord dlab true 4#3 v
  | rdMcr => exact decode_busWord dlab false 4#3 0#8
  | rdLsr => exact decode_busWord dlab false 5#3 0#8
  | wrLsr v => exact decode_busWord dlab true 5#3 v
  | rdMsr => exact decode_busWord dlab false 6#3 0#8
  | wrMsr v => exact decode_busWord dlab true 6#3 v
  | wrScr v => exact decode_busWord dlab true 7#3 v
  | rdScr => exact decode_busWord dlab false 7#3 0#8
  | rxb d pe fe bi => exact decode_encode_rxb dlab d pe fe bi
  | msl cts dsr ri dcd => exact decode_encode_msl dlab cts dsr ri dcd
  | tick => exact decode_of_kind_tick dlab rfl
  | rst => exact decode_of_kind_rst dlab rfl

/-! ### Encoding what was decoded -/

/-- Every bit of a format-X word is a field of it or fixed by its kind. -/
theorem encode_rxb_fields {w : Word} (hkind : wordKind w = 1#4) (hzero : w.getLsbD 11 = false) :
    encode (.rxb (wordByte w) (w.getLsbD 8) (w.getLsbD 9) (w.getLsbD 10)) = w := by
  have hbit := wordKind_bit hkind
  have h12 := hbit 0 (by omega)
  have h13 := hbit 1 (by omega)
  have h14 := hbit 2 (by omega)
  have h15 := hbit 3 (by omega)
  refine BitVec.eq_of_getLsbD_eq fun i hi => ?_
  interval_cases i <;> simp_all [encode, wordByte, byteBits, flagBits]

/-- A format-M word is its kind, its must-be-zero bits and the four lines. -/
theorem word_eq_kind_append_mslZero (w : Word) : w = wordKind w ++ wordMslZero w ++ w.extractLsb' 0 4 := by
  refine BitVec.eq_of_getLsbD_eq fun i hi => ?_
  rw [BitVec.getLsbD_append, BitVec.getLsbD_append]
  interval_cases i <;> simp [wordKind, wordMslZero]

/-- R80, format M: four lines under the kind are the spelling of their report. -/
theorem encode_msl_lines (n : BitVec 4) :
    encode (.msl (n.getLsbD 0) (n.getLsbD 1) (n.getLsbD 2) (n.getLsbD 3)) = 2#4 ++ 0#8 ++ n := by
  revert n; decide

theorem encode_msl_fields {w : Word} (hkind : wordKind w = 2#4) (hzero : wordMslZero w = 0#8) :
    encode (.msl (w.getLsbD 0) (w.getLsbD 1) (w.getLsbD 2) (w.getLsbD 3)) = w := by
  have hw := word_eq_kind_append_mslZero w
  rw [hkind, hzero, ← encode_msl_lines] at hw
  simpa using hw.symm

/-- A word is its kind and its low twelve bits. -/
theorem word_eq_kind_append_low12 (w : Word) : w = wordKind w ++ wordLow12 w := by
  refine BitVec.eq_of_getLsbD_eq fun i hi => (Eq.trans ?_ BitVec.getLsbD_append.symm)
  interval_cases i <;> simp [wordKind, wordLow12]

/-- Settles O3: kind by kind, an accepted word is spelled by its own fields; of a bus word a read keeps all but
the byte. -/
theorem encodeOfDecode : Obligations.EncodeOfDecode := by
  intro dlab w i hdec
  rcases wordKind_cases w with hk | hk | hk | hk | hk | hk
  · rw [decode_of_kind_bus dlab hk] at hdec
    cases hdec
    refine ⟨selectBus_wf .., ?_⟩
    rw [encode_selectBus, selectBus_isRead]
    have hword := busWord_fields hk
    cases hwe : wordWe w
    · rw [hwe] at hword
      exact (busWord_zero_byte false (wordAddr w) (wordByte w)).trans (by rw [hword]; rfl)
    · rw [hwe] at hword
      exact hword
  · rw [decode_of_kind_rxb dlab hk] at hdec
    split at hdec
    · cases hdec
    · next hzero => cases hdec; exact ⟨rfl, encode_rxb_fields hk (by simpa using hzero)⟩
  · rw [decode_of_kind_msl dlab hk] at hdec
    split at hdec
    · cases hdec
    · next hzero => cases hdec; exact ⟨rfl, encode_msl_fields hk (by simpa using hzero)⟩
  · rw [decode_of_kind_tick dlab hk] at hdec
    split at hdec
    · cases hdec
    · next hzero =>
      cases hdec
      refine ⟨rfl, Eq.trans ?_ (word_eq_kind_append_low12 w).symm⟩
      rw [hk, not_not.mp hzero]; rfl
  · rw [decode_of_kind_rst dlab hk] at hdec
    split at hdec
    · cases hdec
    · next hzero =>
      cases hdec
      refine ⟨rfl, Eq.trans ?_ (word_eq_kind_append_low12 w).symm⟩
      rw [hk, not_not.mp hzero]; rfl
  · rw [decode_of_kind_reserved dlab hk] at hdec
    cases hdec

/-! ### What is rejected, and what the bank bit changes -/

/-- Settles O4: kind by kind, the decoder answers by the must-be-zero bits of that kind alone. -/
theorem rejectedWordsAreTheNonEvents : Obligations.RejectedWordsAreTheNonEvents := by
  intro dlab w
  unfold Machine.EventWord
  rw [← wordKind_toNat, Ne, Ne, ← wordMslZero_eq_zero, ← wordLow12_eq_zero]
  rcases wordKind_cases w with hk | hk | hk | hk | hk | hk
  · rw [decode_of_kind_bus dlab hk]; simp [hk]
  · rw [decode_of_kind_rxb dlab hk]; cases w.getLsbD 11 <;> simp [hk]
  · rw [decode_of_kind_msl dlab hk]; by_cases hz : wordMslZero w = 0#8 <;> simp [hk, hz]
  · rw [decode_of_kind_tick dlab hk]; by_cases hz : wordLow12 w = 0#12 <;> simp [hk, hz]
  · rw [decode_of_kind_rst dlab hk]; by_cases hz : wordLow12 w = 0#12 <;> simp [hk, hz]
  · rw [decode_of_kind_reserved dlab hk]; simp; omega

/-- The eight offsets of the space. -/
theorem offset_cases (a : BitVec 3) :
    a = 0#3 ∨ a = 1#3 ∨ a = 2#3 ∨ a = 3#3 ∨ a = 4#3 ∨ a = 5#3 ∨ a = 6#3 ∨ a = 7#3 := by
  revert a; decide

/-- R82: register selection looks at the bank bit at offsets 0 and 1 only, and there it always matters. -/
theorem selectBus_bank_ne_iff (we : Bool) (a : BitVec 3) (v : Byte) :
    selectBus true we a v ≠ selectBus false we a v ↔ a.toNat ≤ 1 := by
  rcases offset_cases a with rfl | rfl | rfl | rfl | rfl | rfl | rfl | rfl <;> cases we <;> simp [selectBus]

/-- Only a bus word can decode differently in the two banks. -/
theorem decode_bank_eq_of_kind_ne {w : Word} (h : wordKind w ≠ 0#4) : decode true w = decode false w := by
  unfold decode
  split
  case h_1 h0 => exact absurd (BitVec.eq_of_toNat_eq h0) h
  all_goals rfl

/-- Settles O5: of the kinds only a bus word looks at the bank bit, and of the offsets only 0 and 1. -/
theorem bankBitDecodesOnlyOffsetsZeroAndOne : Obligations.BankBitDecodesOnlyOffsetsZeroAndOne := by
  intro w
  rw [← wordKind_toNat, ← wordAddr_toNat]
  by_cases hk : wordKind w = 0#4
  · rw [decode_of_kind_bus true hk, decode_of_kind_bus false hk, hk,
      ← selectBus_bank_ne_iff (wordWe w) (wordAddr w) (wordByte w)]
    simp
  · have hne : (wordKind w).toNat ≠ 0 := fun h0 => hk (BitVec.eq_of_toNat_eq h0)
    simp [decode_bank_eq_of_kind_ne hk, hne]

/-- Settles O1: twenty-one fixed words, each evaluated by the decoder. -/
theorem spelledWordsDecode : Obligations.SpelledWordsDecode := by
  unfold Obligations.SpelledWordsDecode
  decide

end Sys2Proof
end

section
/-! PROOF. The four events whose meaning branches, said once: what state each leaves, case by case, and which fields it
can write (spec/40_bus_register_ops.md R110, R122, spec/42_timing_and_transmit.md R166, spec/43_modem_loopback_break.md
R182). -/

namespace Sys2Proof

theorem Params.Valid.depth_pos {p : Params} (h : p.Valid) : 1 ≤ p.fifoDepth := h.1

theorem Params.Valid.prescale_pos {p : Params} (h : p.Valid) : 1 ≤ p.prescale := by
  obtain ⟨-, -, -, hp, -, -⟩ := h; exact hp

theorem Params.Valid.eventOrder_legal {p : Params} (h : p.Valid) : p.eventOrder.legal = true := by
  obtain ⟨-, -, -, -, -, ho⟩ := h; exact ho

end Sys2Proof

namespace Sys2Proof.Machine

/-! ### `WR_THR` (R110) -/

/-- The state once a written byte is latched and queued, before any promotion. -/
def State.thrQueued (s : State) (v : Byte) : State := ((s.setThr v).txEnqueue v).txBusy

/-- The state `WR_THR` leaves. -/
def State.afterThr (s : State) (v : Byte) : State := if s.tsrFull then s.thrQueued v else (s.thrQueued v).txStart

theorem exec_wrThr (v : Byte) (s : State) : exec (.wrThr v) s = .next (s.afterThr v) := rfl

theorem State.thrQueued_frame (s : State) (v : Byte) :
    s.thrQueued v = { s with
      thr := v, txf := s.txfWith v, lsrThre := false, lsrTemt := false, thrIpending := false } := rfl

theorem State.afterThr_busy {s : State} (v : Byte) (h : s.tsrFull = true) : s.afterThr v = s.thrQueued v := by
  simp [State.afterThr, h]

theorem State.afterThr_idle {s : State} (v : Byte) (h : s.tsrFull = false) :
    s.afterThr v = (s.thrQueued v).txStart := by simp [State.afterThr, h]

/-- R110, R163, R164: with legal parameters an empty shift stage takes the oldest queued byte in the same event. -/
theorem State.afterThr_promoting {s : State} (v : Byte) (hc : 1 ≤ s.cfg.fifoDepth) (h : s.tsrFull = false) :
    s.afterThr v = ((s.thrQueued v).promote.deliver (s.txfWith v).front).armTx s.charTicks := by
  rw [State.afterThr_idle v h]
  exact State.txStart_more (s := s.thrQueued v) (State.txfWith_pos v hc)

/-- Every field `WR_THR` can write. -/
theorem State.afterThr_frame (s : State) (v : Byte) :
    s.afterThr v = { s with
      thr := v, txf := (s.afterThr v).txf, lsrThre := false, lsrTemt := false, thrIpending := false
      tsr := (s.afterThr v).tsr, tsrFull := (s.afterThr v).tsrFull, txArmed := (s.afterThr v).txArmed
      txCnt := (s.afterThr v).txCnt, txOut := (s.afterThr v).txOut, sent := (s.afterThr v).sent
      rxf := (s.afterThr v).rxf, lsrOe := (s.afterThr v).lsrOe, rxArmed := (s.afterThr v).rxArmed
      rxCnt := (s.afterThr v).rxCnt } := by
  rcases h : s.tsrFull
  · rw [State.afterThr_idle v h, State.txStart_frame]; rfl
  · rw [State.afterThr_busy v h]; rfl

section
variable (s : State)

@[simp] theorem State.afterThr_timeoutIpending (v : Byte) : (s.afterThr v).timeoutIpending = s.timeoutIpending := by
  rw [State.afterThr_frame]
@[simp] theorem State.afterThr_cfg (v : Byte) : (s.afterThr v).cfg = s.cfg := by rw [State.afterThr_frame]
@[simp] theorem State.afterThr_dl (v : Byte) : (s.afterThr v).dl = s.dl := by rw [State.afterThr_frame]
@[simp] theorem State.afterThr_rbr (v : Byte) : (s.afterThr v).rbr = s.rbr := by rw [State.afterThr_frame]
@[simp] theorem State.afterThr_ier (v : Byte) : (s.afterThr v).ier = s.ier := by rw [State.afterThr_frame]
@[simp] theorem State.afterThr_fifoen (v : Byte) : (s.afterThr v).fifoen = s.fifoen := by rw [State.afterThr_frame]
@[simp] theorem State.afterThr_rxtrig (v : Byte) : (s.afterThr v).rxtrig = s.rxtrig := by rw [State.afterThr_frame]
@[simp] theorem State.afterThr_lcr (v : Byte) : (s.afterThr v).lcr = s.lcr := by rw [State.afterThr_frame]
@[simp] theorem State.afterThr_mcr (v : Byte) : (s.afterThr v).mcr = s.mcr := by rw [State.afterThr_frame]
@[simp] theorem State.afterThr_lsrPe (v : Byte) : (s.afterThr v).lsrPe = s.lsrPe := by rw [State.afterThr_frame]
@[simp] theorem State.afterThr_lsrFe (v : Byte) : (s.afterThr v).lsrFe = s.lsrFe := by rw [State.afterThr_frame]
@[simp] theorem State.afterThr_lsrBi (v : Byte) : (s.afterThr v).lsrBi = s.lsrBi := by rw [State.afterThr_frame]
@[simp] theorem State.afterThr_msr (v : Byte) : (s.afterThr v).msr = s.msr := by rw [State.afterThr_frame]
@[simp] theorem State.afterThr_scr (v : Byte) : (s.afterThr v).scr = s.scr := by rw [State.afterThr_frame]
@[simp] theorem State.afterThr_lastBreakEnable (v : Byte) : (s.afterThr v).lastBreakEnable = s.lastBreakEnable := by
  rw [State.afterThr_frame]
@[simp] theorem State.afterThr_stim (v : Byte) : (s.afterThr v).stim = s.stim := by rw [State.afterThr_frame]
@[simp] theorem State.afterThr_rdata (v : Byte) : (s.afterThr v).rdata = s.rdata := by rw [State.afterThr_frame]
@[simp] theorem State.afterThr_thr (v : Byte) : (s.afterThr v).thr = v := by rw [State.afterThr_frame]
@[simp] theorem State.afterThr_lsrThre (v : Byte) : (s.afterThr v).lsrThre = false := by rw [State.afterThr_frame]
@[simp] theorem State.afterThr_lsrTemt (v : Byte) : (s.afterThr v).lsrTemt = false := by rw [State.afterThr_frame]
@[simp] theorem State.afterThr_thrIpending (v : Byte) : (s.afterThr v).thrIpending = false := by
  rw [State.afterThr_frame]

end

/-! ### `TICK` (R166) -/

/-- The state `TICK` leaves. -/
def State.afterTick (s : State) : State := (s.countDown.tickTx s.fireTx).tickRx s.fireRx

theorem exec_tick (s : State) : exec .tick s = .next s.afterTick := rfl

theorem State.fireTx_eq_false {s : State} : s.fireTx = false ↔ ¬(s.txArmed = true ∧ s.txCnt = 1) := by
  rw [← Bool.not_eq_true, State.fireTx_eq_true]

theorem State.fireRx_eq_false {s : State} : s.fireRx = false ↔ ¬(s.rxArmed = true ∧ s.rxCnt = 1) := by
  rw [← Bool.not_eq_true, State.fireRx_eq_true]

/-- What a due transmit expiry leaves when nothing is queued (R167). -/
def State.drained (s : State) : State := s.countDown.disarmTx.emptyShift.txDrained

/-- A due transmit expiry once the oldest queued byte stands in the shift stage (R167, R163). -/
def State.promotedNext (s : State) : State := s.countDown.disarmTx.emptyShift.promote

/-- What a due transmit expiry leaves when a byte is queued (R167, R163, R164). -/
def State.restarted (s : State) : State := (s.promotedNext.deliver s.txf.front).armTx s.charTicks

/-- A `TICK` in which the transmit timer is not due only counts, before the timeout's own part. -/
theorem State.afterTick_counting {s : State} (h : s.fireTx = false) : s.afterTick = s.countDown.tickRx s.fireRx := by
  rw [State.afterTick, h, State.tickTx_false]

theorem State.afterTick_drained {s : State} (h : s.fireTx = true) (h0 : s.txf.count = 0) :
    s.afterTick = s.drained.tickRx s.fireRx := by
  rw [State.afterTick, h, State.tickTx_true, State.disarmTx_txExpire_empty (s := s.countDown) h0, State.drained]

theorem State.afterTick_restarted {s : State} (h : s.fireTx = true) (hne : 0 < s.txf.count) :
    s.afterTick = s.restarted.tickRx s.fireRx := by
  obtain ⟨harmed, hcnt⟩ := State.fireTx_eq_true.mp h
  exact Host.Outcome.next.inj ((exec_tick s).symm.trans (exec_tick_due harmed hcnt hne))

/-- The three things a `TICK` can be on the transmit side. -/
theorem State.afterTick_cases (s : State) :
    (s.fireTx = false ∧ s.afterTick = s.countDown.tickRx s.fireRx) ∨
    (s.fireTx = true ∧ s.txf.count = 0 ∧ s.afterTick = s.drained.tickRx s.fireRx) ∨
    (s.fireTx = true ∧ 0 < s.txf.count ∧ s.afterTick = s.restarted.tickRx s.fireRx) := by
  rcases h : s.fireTx
  · exact .inl ⟨rfl, State.afterTick_counting h⟩
  · rcases Nat.eq_zero_or_pos s.txf.count with h0 | hne
    · exact .inr (.inl ⟨rfl, h0, State.afterTick_drained h h0⟩)
    · exact .inr (.inr ⟨rfl, hne, State.afterTick_restarted h hne⟩)

/-- `t` is `s` changed at most in the fields a `TICK` can write. -/
def State.TickFrame (s t : State) : Prop :=
  t = { s with
    txArmed := t.txArmed, txCnt := t.txCnt, tsr := t.tsr, tsrFull := t.tsrFull, txf := t.txf, lsrThre := t.lsrThre
    lsrTemt := t.lsrTemt, thrIpending := t.thrIpending, txOut := t.txOut, sent := t.sent, rxf := t.rxf
    lsrOe := t.lsrOe, rxArmed := t.rxArmed, rxCnt := t.rxCnt, timeoutIpending := t.timeoutIpending }

theorem State.TickFrame.tickRx {s t : State} (h : s.TickFrame t) (fire : Bool) : s.TickFrame (t.tickRx fire) := by
  rcases t.tickRx_cases fire with ht | ht
  · rwa [ht]
  · rw [ht]; exact congrArg (·.disarmRx.rxtoExpire) h

theorem State.restarted_frame (s : State) : s.TickFrame s.restarted := by
  rw [State.restarted, State.deliver_frame]; rfl

/-- Every field `TICK` can write. -/
theorem State.afterTick_frame (s : State) : s.TickFrame s.afterTick := by
  rcases s.afterTick_cases with ⟨-, h⟩ | ⟨-, -, h⟩ | ⟨-, -, h⟩
  · rw [h]; exact State.TickFrame.tickRx (t := s.countDown) rfl _
  · rw [h]; exact State.TickFrame.tickRx (t := s.drained) rfl _
  · rw [h]; exact s.restarted_frame.tickRx _

section
variable (s : State)

@[simp] theorem State.afterTick_thr : s.afterTick.thr = s.thr := by rw [s.afterTick_frame]
@[simp] theorem State.afterTick_cfg : s.afterTick.cfg = s.cfg := by rw [s.afterTick_frame]
@[simp] theorem State.afterTick_dl : s.afterTick.dl = s.dl := by rw [s.afterTick_frame]
@[simp] theorem State.afterTick_rbr : s.afterTick.rbr = s.rbr := by rw [s.afterTick_frame]
@[simp] theorem State.afterTick_ier : s.afterTick.ier = s.ier := by rw [s.afterTick_frame]
@[simp] theorem State.afterTick_fifoen : s.afterTick.fifoen = s.fifoen := by rw [s.afterTick_frame]
@[simp] theorem State.afterTick_rxtrig : s.afterTick.rxtrig = s.rxtrig := by rw [s.afterTick_frame]
@[simp] theorem State.afterTick_lcr : s.afterTick.lcr = s.lcr := by rw [s.afterTick_frame]
@[simp] theorem State.afterTick_mcr : s.afterTick.mcr = s.mcr := by rw [s.afterTick_frame]
@[simp] theorem State.afterTick_lsrPe : s.afterTick.lsrPe = s.lsrPe := by rw [s.afterTick_frame]
@[simp] theorem State.afterTick_lsrFe : s.afterTick.lsrFe = s.lsrFe := by rw [s.afterTick_frame]
@[simp] theorem State.afterTick_lsrBi : s.afterTick.lsrBi = s.lsrBi := by rw [s.afterTick_frame]
@[simp] theorem State.afterTick_msr : s.afterTick.msr = s.msr := by rw [s.afterTick_frame]
@[simp] theorem State.afterTick_scr : s.afterTick.scr = s.scr := by rw [s.afterTick_frame]
@[simp] theorem State.afterTick_lastBreakEnable : s.afterTick.lastBreakEnable = s.lastBreakEnable := by
  rw [s.afterTick_frame]
@[simp] theorem State.afterTick_stim : s.afterTick.stim = s.stim := by rw [s.afterTick_frame]
@[simp] theorem State.afterTick_rdata : s.afterTick.rdata = s.rdata := by rw [s.afterTick_frame]

end

/-! ### `WR_MCR` (R122) and `MSL` (R182) -/

/-- The state `WR_MCR` leaves. -/
def State.afterMcr (s : State) (v : Byte) : State :=
  if v.getLsbD 4 then (s.setMcr (mcrOf v)).msrUpdate (s.setMcr (mcrOf v)).loopLines else s.setMcr (mcrOf v)

theorem exec_wrMcr (v : Byte) (s : State) : exec (.wrMcr v) s = .next (s.afterMcr v) := by
  rw [State.afterMcr, ← mcrOf_getLsbD v 4 (by omega)]; rfl

theorem State.afterMcr_loop (s : State) {v : Byte} (h : v.getLsbD 4 = true) :
    s.afterMcr v = (s.setMcr (mcrOf v)).msrUpdate (s.setMcr (mcrOf v)).loopLines := if_pos h

theorem State.afterMcr_plain (s : State) {v : Byte} (h : v.getLsbD 4 = false) :
    s.afterMcr v = s.setMcr (mcrOf v) := if_neg (by rw [h]; decide)

theorem State.afterMcr_frame (s : State) (v : Byte) :
    s.afterMcr v = { s with mcr := mcrOf v, msr := (s.afterMcr v).msr } := by
  unfold State.afterMcr; split <;> rfl

/-- The state `MSL` leaves. -/
def State.afterMsl (s : State) (cts dsr ri dcd : Bool) : State :=
  if s.loop then s else s.msrUpdate (modemLines cts dsr ri dcd)

theorem exec_msl (cts dsr ri dcd : Bool) (s : State) :
    exec (.msl cts dsr ri dcd) s = .next (s.afterMsl cts dsr ri dcd) := rfl

theorem State.afterMsl_loop {s : State} (cts dsr ri dcd : Bool) (h : s.loop = true) :
    s.afterMsl cts dsr ri dcd = s := by simp [State.afterMsl, h]

theorem State.afterMsl_lines {s : State} (cts dsr ri dcd : Bool) (h : s.loop = false) :
    s.afterMsl cts dsr ri dcd = s.msrUpdate (modemLines cts dsr ri dcd) := by simp [State.afterMsl, h]

theorem State.afterMsl_frame (s : State) (cts dsr ri dcd : Bool) :
    s.afterMsl cts dsr ri dcd = { s with msr := (s.afterMsl cts dsr ri dcd).msr } := by
  unfold State.afterMsl; split <;> rfl

/-- Settles O9: every arm of `exec` answers a next state, whatever its operand and the state. -/
theorem everyEventCompletes : Obligations.EveryEventCompletes := by
  intro i s
  cases i <;> exact ⟨_, rfl⟩

end Sys2Proof.Machine
end

section
/-! PROOF. The invariant of spec/10_state.md R46: reset meets it, `RST` establishes it, every event and so every step
keeps it. -/

namespace Sys2Proof.Machine

/-! ### Reset -/

/-- Settles O54: a fresh FIFO is well-formed, nothing is shifted, no timer runs. -/
theorem resetStateMeetsTheInvariant : Obligations.ResetStateMeetsTheInvariant := by
  have hreset : ∀ p : Params, p.Valid → (State.resetOf p).Inv := fun p hp =>
    ⟨hp, Fifo.wf_fresh hp.depth_pos, Fifo.wf_fresh hp.depth_pos, by simp [State.resetOf, State.TxInv, Fifo.fresh],
      by simp [State.resetOf, State.RxInv], by simp [State.resetOf, State.brk]⟩
  exact ⟨hreset Params.default (by decide), hreset⟩

/-- Settles O57: `RST` empties both FIFOs over arrays that have their size, and the rest of the invariant speaks of
registers it writes. -/
theorem resetEventEstablishesTheInvariant : Obligations.ResetEventEstablishesTheInvariant := by
  intro s hv hrx htx
  exact ⟨_, rfl, hv, Fifo.wf_clear hrx hv.depth_pos, Fifo.wf_clear htx hv.depth_pos, by simp [State.TxInv],
    by simp [State.RxInv], by simp [State.brk]⟩

/-! ### The events that touch the transmit half -/

/-- R166: the timeout half of a `TICK` leaves the transmit half as it is. -/
theorem State.txInv_tickRx {s : State} (h : s.TxInv) (fire : Bool) : (s.tickRx fire).TxInv := by
  rw [State.tickRx_frame]; exact h

/-- R110: `WR_THR` over a transmitter that meets the invariant. -/
theorem State.inv_afterThr {s : State} (h : s.Inv) (v : Byte) : (s.afterThr v).Inv := by
  rw [State.inv_iff] at h ⊢
  obtain ⟨⟨harm, -, -, -, -, hcnt⟩, hv, hrx, htx, hrest⟩ := h
  have hqueued : (s.thrQueued v).RestInv false := ⟨hv, hrx, State.wf_txfWith v hv.depth_pos htx, hrest⟩
  rcases hfull : s.tsrFull
  · rw [State.afterThr_idle v hfull]
    exact ⟨State.txInv_txStart (s := s.thrQueued v) (State.txfWith_pos v hv.depth_pos) hv.prescale_pos rfl rfl rfl,
      State.restInv_txStart hqueued⟩
  · rw [State.afterThr_busy v hfull]
    have htx' : (s.thrQueued v).TxInv := by
      rw [State.thrQueued_frame]; simp_all [State.TxInv]
    exact ⟨htx', hqueued⟩

/-- R166: while a timeout expiry is due the timer stands at 0 only for it. -/
theorem State.restInv_countDown {s : State} (h : s.RestInv false) : s.countDown.RestInv s.fireRx := by
  obtain ⟨hv, hrx, htx, ⟨harmed, hpend, hcnt⟩, hbrk⟩ := h
  refine ⟨hv, hrx, htx, ⟨harmed, hpend, fun ha h0 => ?_⟩, hbrk⟩
  have ha' : s.rxArmed = true := ha
  simp only [State.countDown_rxCnt, ha', if_true] at h0
  have hne : s.rxCnt ≠ 0 := fun h => by simpa using hcnt ha' h
  exact State.fireRx_eq_true.mpr ⟨ha', by omega⟩

/-- R165: a transmit timer that is not due keeps running. -/
theorem State.txInv_countDown {s : State} (h : s.TxInv) (hfire : s.fireTx = false) : s.countDown.TxInv := by
  obtain ⟨harm, hq, hthre, htemt, hpend, hcnt⟩ := h
  refine ⟨harm, hq, hthre, htemt, hpend, fun ha => ?_⟩
  have ha' : s.txArmed = true := ha
  have hne : s.txCnt ≠ 1 := fun h1 => State.fireTx_eq_false.mp hfire ⟨ha', h1⟩
  have := hcnt ha'
  simp only [State.countDown_txCnt, ha', if_true]
  omega

/-- R166: the transmit half after the transmit part of a `TICK`. -/
theorem State.txInv_tickTx {s : State} (h : s.TxInv) (hp : 1 ≤ s.cfg.prescale) :
    (s.countDown.tickTx s.fireTx).TxInv := by
  rcases hfire : s.fireTx
  · exact State.txInv_countDown h hfire
  · obtain ⟨harm, -, hthre, htemt, hpend, -⟩ := h
    have hbusy : s.tsrFull = true := harm.trans (State.fireTx_eq_true.mp hfire).1
    rw [hbusy] at hthre htemt
    rw [State.tickTx_true]
    rcases Nat.eq_zero_or_pos s.txf.count with h0 | hne
    · rw [State.disarmTx_txExpire_empty (s := s.countDown) h0]
      simp [State.TxInv, h0]
    · rw [State.txExpire_more (s := s.countDown.disarmTx) hne]
      refine State.txInv_txStart (s := s.countDown.disarmTx.emptyShift) hne hp hthre htemt ?_
      exact Bool.eq_false_iff.mpr fun ht => by simpa [hthre] using hpend ht

theorem State.inv_afterTick {s : State} (h : s.Inv) : s.afterTick.Inv := by
  rw [State.inv_iff] at h ⊢
  obtain ⟨htx, hrest⟩ := h
  refine ⟨State.txInv_tickRx (State.txInv_tickTx htx hrest.1.prescale_pos) _, State.restInv_tickRx ?_⟩
  have hcount : s.countDown.RestInv s.fireRx := State.restInv_countDown hrest
  cases s.fireTx
  · exact hcount
  · exact State.restInv_txExpire (s := s.countDown.disarmTx) hcount

/-! ### The events that touch the receive half -/

theorem State.inv_rxAccept {s : State} (h : s.Inv) (d : Byte) (pe fe bi : Bool) : (s.rxAccept d pe fe bi).Inv := by
  rw [State.inv_iff] at h ⊢
  exact ⟨h.1, State.restInv_rxAccept h.2 d pe fe bi⟩

/-- R111: the flag falls before the timer is put in line. -/
theorem State.inv_takeRbr {s : State} (h : s.Inv) : s.takeRbr.clearTimeout.rxtoRestart.Inv := by
  obtain ⟨hv, hrx, htx, htxi, -, hbrk⟩ := h
  have hwf : s.FifosWf := ⟨hv.depth_pos, hrx, htx⟩
  exact ⟨hv, hwf.takeRbr.2.1, htx, htxi,
    State.rxInv_rxtoRestart (s := s.takeRbr.clearTimeout) hv (by simp), hbrk⟩

/-- R118: a receive reset takes the timeout flag with the bytes, a transmit reset leaves nothing queued. -/
theorem State.inv_setFcr {s : State} (h : s.Inv) (v : Byte) : (s.setFcr v).rxtoRestart.Inv := by
  obtain ⟨hv, hrx, htx, ⟨harm, hq, htxi⟩, ⟨-, hpend, -⟩, hbrk⟩ := h
  obtain ⟨-, hrx', htx'⟩ := State.FifosWf.setFcr (s := s) ⟨hv.depth_pos, hrx, htx⟩ v
  have hq' : 0 < (s.setFcr v).txf.count → s.tsrFull = true := by
    rw [State.setFcr_txf]
    split
    · simp
    · exact hq
  have hpend' : (s.setFcr v).timeoutIpending = true → 0 < (s.setFcr v).rxf.count := by
    rw [State.setFcr_rxf, State.setFcr_timeoutIpending]
    cases fcrRxReset v
    · simpa using hpend
    · simp
  exact ⟨hv, hrx', htx', ⟨harm, hq', htxi⟩, State.rxInv_rxtoRestart hv hpend', hbrk⟩

/-! ### Every event, every step -/

/-- R46 over every event. -/
theorem State.Inv.exec {s t : State} {i : Instr} (h : s.Inv) (hx : exec i s = .next t) : t.Inv := by
  cases i with
  | wrThr v => cases hx; exact State.inv_afterThr h v
  | rdRbr => cases hx; exact State.inv_takeRbr h
  | wrFcr v => cases hx; exact State.inv_setFcr h v
  | rdIir =>
    cases hx
    obtain ⟨hv, hrx, htx, ⟨harm, hq, hthre, htemt, -, hcnt⟩, hrest⟩ := h
    exact ⟨hv, hrx, htx, ⟨harm, hq, hthre, htemt, by simp, hcnt⟩, hrest⟩
  | wrLcr v =>
    cases hx
    obtain ⟨hv, hrx, htx, htxi, hrxi, -⟩ := h
    exact ⟨hv, hrx, htx, htxi, hrxi, rfl⟩
  | wrMcr v => rw [exec_wrMcr] at hx; cases hx; rw [State.afterMcr_frame]; exact h
  | rxb d pe fe bi => cases hx; exact State.inv_rxAccept h d pe fe bi
  | msl cts dsr ri dcd => rw [exec_msl] at hx; cases hx; rw [State.afterMsl_frame]; exact h
  | tick => cases hx; exact State.inv_afterTick h
  | rst =>
    obtain ⟨hv, hrx, htx, -⟩ := h
    obtain ⟨u, hu, hinv⟩ := resetEventEstablishesTheInvariant s hv hrx.1 htx.1
    cases hx; cases hu; exact hinv
  | _ => cases hx; exact h

/-- Settles O56: taking the next word and clearing the ports touch nothing the invariant speaks of, and the event keeps
it. -/
theorem stepKeepsTheInvariant : Obligations.StepKeepsTheInvariant := by
  intro s t h hstep
  obtain ⟨w, ws, i, -, -, hx⟩ := step_eq_next hstep
  exact State.Inv.exec (s := (afterFetch s).clearOutputs) h hx

end Sys2Proof.Machine
end

section
/-! PROOF. What no event looks at: the latches of spec/10_state.md R23 and R24, and the events still to come. Two states
that differ in these only run alike. -/

namespace Sys2Proof.Machine

/-- A relation that every step carries along, every run carries along. -/
theorem core_run_simulates {R : State → State → Prop}
    (hstep : ∀ {s s' t : State}, R s s' → step s = .next t → ∃ t' : State, step s' = .next t' ∧ R t t') :
    ∀ {n : Nat} {s s' t : State}, R s s' → core.run n s = .next t →
      ∃ t' : State, core.run n s' = .next t' ∧ R t t'
  | 0, _, s', _, hR, hrun => by cases hrun; exact ⟨s', rfl, hR⟩
  | n + 1, _, _, _, hR, hrun => by
    obtain ⟨u, hu, hrest⟩ := core_run_succ_eq_next hrun
    obtain ⟨u', hu', hR'⟩ := hstep hR hu
    rw [core_run_succ n hu']
    exact core_run_simulates hstep hR' hrest

/-! ### The latches and the queue of events -/

/-- Two states that differ at most in what no event looks at. -/
def State.SameButHidden (s s' : State) : Prop := s' = { s with thr := s'.thr, tsr := s'.tsr, stim := s'.stim }

namespace State.SameButHidden

variable {s s' : State}

theorem exists_eq (h : s.SameButHidden s') : ∃ a b ws, s' = { s with thr := a, tsr := b, stim := ws } :=
  ⟨_, _, _, h⟩

theorem rxAccept (h : s.SameButHidden s') (d : Byte) (pe fe bi : Bool) :
    (s.rxAccept d pe fe bi).SameButHidden (s'.rxAccept d pe fe bi) := by
  obtain ⟨a, b, ws, rfl⟩ := h.exists_eq; rfl

/-- R164. -/
theorem deliver (h : s.SameButHidden s') (b : Byte) : (s.deliver b).SameButHidden (s'.deliver b) := by
  have hloop : s'.loop = s.loop := by rw [h]; rfl
  rcases hl : s.loop
  · rw [State.deliver_send b hl, State.deliver_send b (hloop.trans hl)]
    obtain ⟨_, _, _, rfl⟩ := h.exists_eq; rfl
  · rw [State.deliver_loop b hl, State.deliver_loop b (hloop.trans hl)]
    exact h.rxAccept b false false false

/-- R163: the byte promoted comes from the transmit FIFO. -/
theorem txStart (h : s.SameButHidden s') : s.txStart.SameButHidden s'.txStart := by
  have htxf : s'.txf = s.txf := by rw [h]
  rcases Nat.eq_zero_or_pos s.txf.count with h0 | hne
  · rwa [State.txStart_empty h0, State.txStart_empty (htxf ▸ h0)]
  · have hpromote : s.promote.SameButHidden s'.promote := by
      obtain ⟨_, _, _, rfl⟩ := h.exists_eq; rfl
    have hticks : s'.charTicks = s.charTicks := by rw [h]; rfl
    rw [State.txStart_more hne, State.txStart_more (htxf ▸ hne), htxf, hticks]
    obtain ⟨_, _, _, hd⟩ := (hpromote.deliver s.txf.front).exists_eq
    rw [hd]; rfl

/-- R167. -/
theorem txExpire (h : s.SameButHidden s') : s.txExpire.SameButHidden s'.txExpire := by
  have htxf : s'.txf = s.txf := by rw [h]
  rcases Nat.eq_zero_or_pos s.txf.count with h0 | hne
  · rw [State.txExpire_empty h0, State.txExpire_empty (htxf ▸ h0)]
    obtain ⟨_, _, _, rfl⟩ := h.exists_eq; rfl
  · rw [State.txExpire_more hne, State.txExpire_more (htxf ▸ hne)]
    refine txStart ?_
    obtain ⟨_, _, _, rfl⟩ := h.exists_eq; rfl

theorem afterThr (h : s.SameButHidden s') (v : Byte) : (s.afterThr v).SameButHidden (s'.afterThr v) := by
  have hfull : s'.tsrFull = s.tsrFull := by rw [h]
  have hqueued : (s.thrQueued v).SameButHidden (s'.thrQueued v) := by
    obtain ⟨_, _, _, rfl⟩ := h.exists_eq; rfl
  rcases hf : s.tsrFull
  · rw [State.afterThr_idle v hf, State.afterThr_idle v (hfull.trans hf)]; exact hqueued.txStart
  · rwa [State.afterThr_busy v hf, State.afterThr_busy v (hfull.trans hf)]

theorem tickRx (h : s.SameButHidden s') (fire : Bool) : (s.tickRx fire).SameButHidden (s'.tickRx fire) := by
  obtain ⟨_, _, _, rfl⟩ := h.exists_eq
  unfold State.tickRx
  split <;> rfl

theorem afterTick (h : s.SameButHidden s') : s.afterTick.SameButHidden s'.afterTick := by
  have hcount : s.countDown.SameButHidden s'.countDown := by
    obtain ⟨_, _, _, rfl⟩ := h.exists_eq; rfl
  have hdisarm : s.countDown.disarmTx.SameButHidden s'.countDown.disarmTx := by
    obtain ⟨_, _, _, rfl⟩ := h.exists_eq; rfl
  have hfireTx : s'.fireTx = s.fireTx := by rw [h]; rfl
  have hfireRx : s'.fireRx = s.fireRx := by rw [h]; rfl
  rw [State.afterTick, State.afterTick, hfireTx, hfireRx]
  refine tickRx ?_ _
  cases s.fireTx
  · exact hcount
  · exact hdisarm.txExpire

theorem afterMcr (h : s.SameButHidden s') (v : Byte) : (s.afterMcr v).SameButHidden (s'.afterMcr v) := by
  obtain ⟨_, _, _, rfl⟩ := h.exists_eq
  unfold State.afterMcr
  split <;> rfl

theorem afterMsl (h : s.SameButHidden s') (cts dsr ri dcd : Bool) :
    (s.afterMsl cts dsr ri dcd).SameButHidden (s'.afterMsl cts dsr ri dcd) := by
  have hloop : s'.loop = s.loop := by rw [h]; rfl
  rcases hl : s.loop
  · rw [State.afterMsl_lines _ _ _ _ hl, State.afterMsl_lines _ _ _ _ (hloop.trans hl)]
    obtain ⟨_, _, _, rfl⟩ := h.exists_eq; rfl
  · rwa [State.afterMsl_loop _ _ _ _ hl, State.afterMsl_loop _ _ _ _ (hloop.trans hl)]

/-- The latches and the queue take part in no event: it answers alike, and as far as they go the states stay alike. -/
theorem exec {t : State} {i : Instr} (h : s.SameButHidden s') (hx : exec i s = .next t) :
    ∃ t' : State, Machine.exec i s' = .next t' ∧ t.SameButHidden t' := by
  cases i with
  | wrThr v => cases hx; exact ⟨_, rfl, h.afterThr v⟩
  | wrMcr v => rw [exec_wrMcr] at hx; cases hx; exact ⟨_, exec_wrMcr v s', h.afterMcr v⟩
  | msl cts dsr ri dcd => cases hx; exact ⟨_, rfl, h.afterMsl cts dsr ri dcd⟩
  | tick => cases hx; exact ⟨_, rfl, h.afterTick⟩
  | _ => cases hx; obtain ⟨_, _, _, rfl⟩ := h.exists_eq; exact ⟨_, rfl, rfl⟩

/-- The same with the queues: two steps that take the same word. -/
theorem step {t : State} {w : Word} {ws ws' : List Word} (h : s.SameButHidden s') (hs : s.stim = w :: ws)
    (hs' : s'.stim = w :: ws') (hx : step s = .next t) :
    ∃ t' : State, Machine.step s' = .next t' ∧ t.SameButHidden t' := by
  obtain ⟨w₀, ws₀, i, hs₀, hdec, hexec⟩ := step_eq_next hx
  obtain ⟨rfl, -⟩ := List.cons.inj (hs₀.symm.trans hs)
  have hdlab : s'.dlab = s.dlab := by rw [h]; rfl
  have hfetch : (afterFetch s).clearOutputs.SameButHidden (afterFetch s').clearOutputs := by
    obtain ⟨_, _, _, rfl⟩ := h.exists_eq; rfl
  rw [step_of_decode hs' (hdlab.symm ▸ hdec)]
  exact hfetch.exec hexec

end State.SameButHidden

/-! ### What every event keeps, and what follows for the latches -/

/-- R231: no event changes the parameters; and none looks ahead in the queue. -/
theorem exec_keeps_cfg_stim {i : Instr} {s t : State} (hx : exec i s = .next t) :
    t.cfg = s.cfg ∧ t.stim = s.stim := by
  cases i with
  | wrThr v => rw [exec_wrThr] at hx; cases hx; simp
  | wrMcr v => rw [exec_wrMcr] at hx; cases hx; rw [State.afterMcr_frame]; exact ⟨rfl, rfl⟩
  | msl cts dsr ri dcd => rw [exec_msl] at hx; cases hx; rw [State.afterMsl_frame]; exact ⟨rfl, rfl⟩
  | tick => rw [exec_tick] at hx; cases hx; simp
  | _ => cases hx; exact ⟨rfl, rfl⟩

/-- Settles O49: the event keeps the parameters and the queue, from which the step has taken one word. -/
theorem stepKeepsParametersAndTakesOneEvent : Obligations.StepKeepsParametersAndTakesOneEvent := by
  intro s t hstep
  obtain ⟨w, ws, i, hs, -, hx⟩ := step_eq_next hstep
  obtain ⟨hcfg, hstim⟩ := exec_keeps_cfg_stim hx
  refine ⟨hcfg, w, ?_⟩
  rw [hstim]
  simp [hs]

theorem State.sameButLatches_iff {s s' : State} :
    s.SameButLatches s' ↔ s.SameButHidden s' ∧ s'.stim = s.stim := by
  constructor
  · intro h
    exact ⟨h.trans (by rw [h]), by rw [h]⟩
  · rintro ⟨h, hstim⟩
    rw [State.SameButHidden, hstim] at h
    exact h

/-- A step takes two states that differ in the latches only to two such states. -/
theorem State.SameButLatches.step {s s' t : State} (h : s.SameButLatches s') (hx : step s = .next t) :
    ∃ t' : State, Machine.step s' = .next t' ∧ t.SameButLatches t' := by
  obtain ⟨hhid, hstim⟩ := State.sameButLatches_iff.mp h
  obtain ⟨-, w, hs⟩ := stepKeepsParametersAndTakesOneEvent s t hx
  obtain ⟨t', hx', ht⟩ := hhid.step hs (hstim.trans hs) hx
  obtain ⟨-, w', hs'⟩ := stepKeepsParametersAndTakesOneEvent s' t' hx'
  rw [hstim, hs] at hs'
  exact ⟨t', hx', State.sameButLatches_iff.mpr ⟨ht, (List.cons.inj hs').2.symm⟩⟩

/-- Settles O58: no event looks at the latches, so steps and runs carry the relation along, and no port shows them. -/
theorem latchesAreUnobservable : Obligations.LatchesAreUnobservable := by
  intro n s s' t h hrun
  obtain ⟨t', hrun', ht⟩ := core_run_simulates (R := State.SameButLatches) State.SameButLatches.step h hrun
  exact ⟨t', hrun', ht, by rw [ht]; rfl, by rw [ht]⟩

end Sys2Proof.Machine
end

section
/-! PROOF. FIFO entries outside the live ranges (spec/10_state.md R33, U1): every operation carries along the relation
that two states hold the same queues and agree in everything else. -/

namespace Sys2Proof.Machine

/-! ### One FIFO -/

namespace Fifo.SameQueue

variable {c : Nat} {f g : Fifo}

theorem enq (h : f.SameQueue c g) (hf : f.Wf c) (hg : g.Wf c) (hroom : f.count < c) (d : Byte) :
    (f.enq c d).SameQueue c (g.enq c d) := by
  obtain ⟨hhead, htail, hcount, hq⟩ := h
  refine ⟨by simp [hhead], htail, by simp [hcount], ?_⟩
  rw [Fifo.contents_enq hg (hcount ▸ hroom), Fifo.contents_enq hf hroom, hq]

/-- Equal queues have equal fronts and equal rests. -/
theorem front_deq (h : f.SameQueue c g) (hf : f.Wf c) (hg : g.Wf c) (hne : 0 < f.count) :
    g.front = f.front ∧ (f.deq c).SameQueue c (g.deq c) := by
  obtain ⟨hhead, htail, hcount, hq⟩ := h
  rw [Fifo.contents_deq hg (hcount ▸ hne), Fifo.contents_deq hf hne] at hq
  obtain ⟨hfront, hrest⟩ := List.cons.inj hq
  exact ⟨hfront, hhead, by simp [htail], by simp [hcount], hrest⟩

theorem replaceNewest (h : f.SameQueue c g) (hf : f.Wf c) (hg : g.Wf c) (hne : 0 < f.count) (v : Byte) :
    (f.replaceNewest c v).SameQueue c (g.replaceNewest c v) := by
  obtain ⟨hhead, htail, hcount, hq⟩ := h
  refine ⟨hhead, htail, hcount, ?_⟩
  rw [Fifo.contents_replaceNewest hg (hcount ▸ hne), Fifo.contents_replaceNewest hf hne, hq]

theorem clear (c : Nat) (f g : Fifo) : f.clear.SameQueue c g.clear := ⟨rfl, rfl, rfl, rfl⟩

end Fifo.SameQueue

/-! ### The relation on states -/

/-- Two states with well-formed FIFOs that agree but for dead entries. -/
structure State.DeadAlike (s s' : State) : Prop where
  wf : s.FifosWf
  wf' : s'.FifosWf
  alike : s.SameButDeadEntries s'

namespace State.DeadAlike

variable {s s' : State}

/-- What the relation gives: the second state is the first with other rings, which hold the same queues. -/
theorem exists_eq (h : s.DeadAlike s') :
    ∃ f g, s' = { s with rxf := f, txf := g } ∧
      s.rxf.SameQueue s.cfg.fifoDepth f ∧ s.txf.SameQueue s.cfg.fifoDepth g := by
  obtain ⟨-, -, heq, hrx, htx⟩ := h
  exact ⟨_, _, heq, hrx, htx⟩

theorem rxQueue (h : s.DeadAlike s') : s.rxf.SameQueue s.cfg.fifoDepth s'.rxf := by
  obtain ⟨-, -, -, hrx, -⟩ := h; exact hrx

theorem txQueue (h : s.DeadAlike s') : s.txf.SameQueue s.cfg.fifoDepth s'.txf := by
  obtain ⟨-, -, -, -, htx⟩ := h; exact htx

theorem rxCount (h : s.DeadAlike s') : s'.rxf.count = s.rxf.count := by
  obtain ⟨-, -, hcount, -⟩ := h.rxQueue; exact hcount

theorem txCount (h : s.DeadAlike s') : s'.txf.count = s.txf.count := by
  obtain ⟨-, -, hcount, -⟩ := h.txQueue; exact hcount

/-- An update that neither writes nor looks at the FIFOs and keeps the parameters. -/
theorem map (h : s.DeadAlike s') (u : State → State) (hcfg : ∀ x, (u x).cfg = x.cfg)
    (hrxf : ∀ x, (u x).rxf = x.rxf) (htxf : ∀ x, (u x).txf = x.txf)
    (hu : ∀ x f g, u { x with rxf := f, txf := g } = { u x with rxf := f, txf := g }) : (u s).DeadAlike (u s') := by
  obtain ⟨hwf, hwf', heq, hrx, htx⟩ := h
  refine ⟨?_, ?_, ?_, ?_, ?_⟩
  · rwa [State.FifosWf, hcfg, hrxf, htxf]
  · rwa [State.FifosWf, hcfg, hrxf, htxf]
  · rw [hrxf, htxf, ← hu, ← heq]
  · rwa [hcfg, hrxf, hrxf]
  · rwa [hcfg, htxf, htxf]

/-- R145 looks at the number of waiting bytes only. -/
theorem rxtoRestart (h : s.DeadAlike s') : s.rxtoRestart.DeadAlike s'.rxtoRestart := by
  have hwf := h.wf
  have hwf' := h.wf'
  have hcount := h.rxCount
  obtain ⟨f, g, rfl, hrx, htx⟩ := h.exists_eq
  have hwanted : ({ s with rxf := f, txf := g } : State).rxtoWanted = s.rxtoWanted := by
    unfold State.rxtoWanted; rw [hcount]; rfl
  refine ⟨hwf, hwf', ?_, hrx, htx⟩
  rw [State.rxtoRestart, State.rxtoRestart, hwanted]; rfl

/-- R146: there is room in the one FIFO exactly if there is in the other. -/
theorem rxStore (h : s.DeadAlike s') (d : Byte) (pe fe bi : Bool) :
    (s.rxStore d pe fe bi).DeadAlike (s'.rxStore d pe fe bi) := by
  obtain ⟨hc, hrxwf, -⟩ := h.wf
  obtain ⟨-, hrxwf', -⟩ := h.wf'
  have hfull : s'.rxFull = s.rxFull := by
    have hcount := h.rxCount
    obtain ⟨f, g, rfl, -⟩ := h.exists_eq
    unfold State.rxFull; rw [hcount]; rfl
  have hrx : (s.rxStore d pe fe bi).rxf.SameQueue s.cfg.fifoDepth (s'.rxStore d pe fe bi).rxf := by
    obtain ⟨f, g, rfl, hrx, htx⟩ := h.exists_eq
    rw [State.rxStore_rxf, State.rxStore_rxf, hfull]
    split
    · exact hrx
    · next hroom =>
      have hroom : s.rxf.count < s.cfg.fifoDepth :=
        Nat.lt_of_lt_of_le (State.rxFull_eq_false.mp (by simpa using hroom)) (State.ceff_le hc)
      exact hrx.enq hrxwf hrxwf' hroom d
  refine ⟨h.wf.rxAccept d pe fe bi, h.wf'.rxAccept d pe fe bi, ?_, hrx, h.txQueue⟩
  obtain ⟨f, g, rfl, -⟩ := h.exists_eq
  rw [State.rxStore, State.rxStore, hfull]

theorem rxAccept (h : s.DeadAlike s') (d : Byte) (pe fe bi : Bool) :
    (s.rxAccept d pe fe bi).DeadAlike (s'.rxAccept d pe fe bi) := (h.rxStore d pe fe bi).rxtoRestart

/-- R164. -/
theorem deliver (h : s.DeadAlike s') (b : Byte) : (s.deliver b).DeadAlike (s'.deliver b) := by
  have hloop : s'.loop = s.loop := by obtain ⟨_, _, rfl, -⟩ := h.exists_eq; rfl
  rcases hl : s.loop
  · rw [State.deliver_send b hl, State.deliver_send b (hloop.trans hl)]
    exact h.map (·.send b) (fun _ => rfl) (fun _ => rfl) (fun _ => rfl) (fun _ _ _ => rfl)
  · rw [State.deliver_loop b hl, State.deliver_loop b (hloop.trans hl)]
    exact h.rxAccept b false false false

/-- R163: the promoted byte is a live entry. -/
theorem promote (h : s.DeadAlike s') (hne : 0 < s.txf.count) :
    s'.txf.front = s.txf.front ∧ s.promote.DeadAlike s'.promote := by
  obtain ⟨hc, hrxwf, htxwf⟩ := h.wf
  obtain ⟨hc', hrxwf', htxwf'⟩ := h.wf'
  have hcount := h.txCount
  obtain ⟨_, _, rfl, hrx, htx⟩ := h.exists_eq
  obtain ⟨hfront, hdeq⟩ := htx.front_deq htxwf htxwf' hne
  refine ⟨hfront, ⟨hc, hrxwf, Fifo.wf_deq htxwf hne⟩, ⟨hc', hrxwf', Fifo.wf_deq htxwf' (hcount ▸ hne)⟩, ?_, hrx,
    hdeq⟩
  rw [State.promote, State.promote, hfront]

theorem armTx (h : s.DeadAlike s') (n : Nat) : (s.armTx n).DeadAlike (s'.armTx n) :=
  h.map (·.armTx n) (fun _ => rfl) (fun _ => rfl) (fun _ => rfl) (fun _ _ _ => rfl)

theorem txStart (h : s.DeadAlike s') : s.txStart.DeadAlike s'.txStart := by
  have hcount := h.txCount
  have hticks : s'.charTicks = s.charTicks := by obtain ⟨_, _, rfl, -⟩ := h.exists_eq; rfl
  rcases Nat.eq_zero_or_pos s.txf.count with h0 | hne
  · rwa [State.txStart_empty h0, State.txStart_empty (hcount.trans h0)]
  · obtain ⟨hfront, hpromote⟩ := h.promote hne
    rw [State.txStart_more hne, State.txStart_more (hcount ▸ hne), hfront, hticks]
    exact (hpromote.deliver _).armTx _

theorem txExpire (h : s.DeadAlike s') : s.txExpire.DeadAlike s'.txExpire := by
  have hcount := h.txCount
  rcases Nat.eq_zero_or_pos s.txf.count with h0 | hne
  · rw [State.txExpire_empty h0, State.txExpire_empty (hcount.trans h0)]
    exact h.map (·.emptyShift.txDrained) (fun _ => rfl) (fun _ => rfl) (fun _ => rfl) (fun _ _ _ => rfl)
  · rw [State.txExpire_more hne, State.txExpire_more (hcount ▸ hne)]
    exact txStart (h.map (·.emptyShift) (fun _ => rfl) (fun _ => rfl) (fun _ => rfl) (fun _ _ _ => rfl))

theorem tickRx (h : s.DeadAlike s') (fire : Bool) : (s.tickRx fire).DeadAlike (s'.tickRx fire) := by
  refine h.map (·.tickRx fire) ?_ ?_ ?_ ?_
  · intro x; rw [State.tickRx_frame]
  · intro x; rw [State.tickRx_frame]
  · exact fun x => State.tickRx_txf x fire
  · intro x f g
    unfold State.tickRx
    split <;> rfl

theorem afterTick (h : s.DeadAlike s') : s.afterTick.DeadAlike s'.afterTick := by
  have hfireTx : s'.fireTx = s.fireTx := by obtain ⟨_, _, rfl, -⟩ := h.exists_eq; rfl
  have hfireRx : s'.fireRx = s.fireRx := by obtain ⟨_, _, rfl, -⟩ := h.exists_eq; rfl
  rw [State.afterTick, State.afterTick, hfireTx, hfireRx]
  refine tickRx ?_ _
  cases s.fireTx
  · exact h.map (·.countDown) (fun _ => rfl) (fun _ => rfl) (fun _ => rfl) (fun _ _ _ => rfl)
  · exact txExpire (h.map (·.countDown.disarmTx) (fun _ => rfl) (fun _ => rfl) (fun _ => rfl) (fun _ _ _ => rfl))

/-- R144: room, policy and the newest entry are the same for both. -/
theorem txEnqueue (h : s.DeadAlike s') (v : Byte) : (s.txEnqueue v).DeadAlike (s'.txEnqueue v) := by
  obtain ⟨hc, -, htxwf⟩ := h.wf
  obtain ⟨-, -, htxwf'⟩ := h.wf'
  have hcount := h.txCount
  have htx : (s.txfWith v).SameQueue s.cfg.fifoDepth (s'.txfWith v) := by
    obtain ⟨f, g, rfl, -, htx⟩ := h.exists_eq
    have hroom : ({ s with rxf := f, txf := g } : State).txRoom = s.txRoom := by
      unfold State.txRoom; rw [hcount]; rfl
    rw [State.txfWith, State.txfWith, hroom, hcount]
    split
    · next hr =>
      exact htx.enq htxwf htxwf' (Nat.lt_of_lt_of_le (State.txRoom_eq_true.mp hr) (State.ceff_le hc)) v
    · split
      · next hp => exact htx.replaceNewest htxwf htxwf' hp.2 v
      · exact htx
  refine ⟨h.wf.txEnqueue v, h.wf'.txEnqueue v, ?_, h.rxQueue, htx⟩
  obtain ⟨_, _, rfl, -⟩ := h.exists_eq; rfl

/-- R110. -/
theorem afterThr (h : s.DeadAlike s') (v : Byte) : (s.afterThr v).DeadAlike (s'.afterThr v) := by
  have hset := h.map (·.setThr v) (fun _ => rfl) (fun _ => rfl) (fun _ => rfl) (fun _ _ _ => rfl)
  have hqueued : (s.thrQueued v).DeadAlike (s'.thrQueued v) :=
    (hset.txEnqueue v).map (·.txBusy) (fun _ => rfl) (fun _ => rfl) (fun _ => rfl) (fun _ _ _ => rfl)
  have hfull : s'.tsrFull = s.tsrFull := by obtain ⟨_, _, rfl, -⟩ := h.exists_eq; rfl
  rcases hf : s.tsrFull
  · rw [State.afterThr_idle v hf, State.afterThr_idle v (hfull.trans hf)]; exact hqueued.txStart
  · rwa [State.afterThr_busy v hf, State.afterThr_busy v (hfull.trans hf)]

/-- R111: the byte taken is a live entry, or the latch, which is the same for both. -/
theorem takeRbr (h : s.DeadAlike s') : s'.takeRbr.rbr = s.takeRbr.rbr ∧ s.takeRbr.DeadAlike s'.takeRbr := by
  obtain ⟨-, hrxwf, -⟩ := h.wf
  obtain ⟨-, hrxwf', -⟩ := h.wf'
  have hcount := h.rxCount
  have hrbr : s'.rbr = s.rbr := by obtain ⟨_, _, rfl, -⟩ := h.exists_eq; rfl
  have hcfg : s'.cfg = s.cfg := by obtain ⟨_, _, rfl, -⟩ := h.exists_eq; rfl
  have hrx := h.rxQueue
  have htaken : s'.takeRbr.rbr = s.takeRbr.rbr ∧ s.takeRbr.rxf.SameQueue s.cfg.fifoDepth s'.takeRbr.rxf := by
    rw [State.takeRbr_rbr, State.takeRbr_rbr, State.takeRbr_rxf, State.takeRbr_rxf, hcount, hcfg, hrbr]
    split
    · next hne => exact hrx.front_deq hrxwf (hcfg ▸ hrxwf') hne
    · exact ⟨rfl, hrx⟩
  obtain ⟨hbyte, hqueue⟩ := htaken
  refine ⟨hbyte, h.wf.takeRbr, h.wf'.takeRbr, ?_, hqueue, h.txQueue⟩
  have hframe : s'.takeRbr = { s with rbr := s'.takeRbr.rbr, rxf := s'.takeRbr.rxf, txf := s'.takeRbr.txf } := by
    obtain ⟨_, _, rfl, -⟩ := h.exists_eq; rfl
  rw [hframe, hbyte]; rfl

theorem rdRbr (h : s.DeadAlike s') :
    (s.takeRbr.clearTimeout.rxtoRestart.reply s.takeRbr.rbr).DeadAlike
      (s'.takeRbr.clearTimeout.rxtoRestart.reply s'.takeRbr.rbr) := by
  obtain ⟨hbyte, htake⟩ := h.takeRbr
  have hclear := htake.map (·.clearTimeout) (fun _ => rfl) (fun _ => rfl) (fun _ => rfl) (fun _ _ _ => rfl)
  rw [hbyte]
  exact hclear.rxtoRestart.map (·.reply _) (fun _ => rfl) (fun _ => rfl) (fun _ => rfl) (fun _ _ _ => rfl)

/-- R118. -/
theorem setFcr (h : s.DeadAlike s') (v : Byte) : (s.setFcr v).DeadAlike (s'.setFcr v) := by
  have hclear : ∀ (reset : Bool) {f g : Fifo}, f.SameQueue s.cfg.fifoDepth g →
      (if reset then f.clear else f).SameQueue s.cfg.fifoDepth (if reset then g.clear else g) := fun reset f g hfg => by
    cases reset
    · exact hfg
    · exact Fifo.SameQueue.clear _ f g
  refine ⟨h.wf.setFcr v, h.wf'.setFcr v, ?_, hclear (fcrRxReset v) h.rxQueue, hclear (fcrTxReset v) h.txQueue⟩
  obtain ⟨_, _, rfl, -⟩ := h.exists_eq; rfl

/-- R230: reset FIFOs hold nothing, whatever stands in their arrays. -/
theorem rst {t t' : State} (h : s.DeadAlike s') (hx : exec .rst s = .next t) (hx' : exec .rst s' = .next t') :
    t.DeadAlike t' := by
  refine ⟨h.wf.exec hx, h.wf'.exec hx', ?_⟩
  cases hx
  cases hx'
  obtain ⟨f, g, rfl, -⟩ := h.exists_eq
  exact ⟨rfl, Fifo.SameQueue.clear _ s.rxf f, Fifo.SameQueue.clear _ s.txf g⟩

/-- R30, R201 to R206: line status, the identification value and the interrupt output look at the number of waiting
bytes only. -/
theorem flags (h : s.DeadAlike s') : s'.lsr = s.lsr ∧ s'.iir = s.iir ∧ s'.irq = s.irq := by
  have hcount := h.rxCount
  obtain ⟨f, g, rfl, -⟩ := h.exists_eq
  have hdr : ({ s with rxf := f, txf := g } : State).dr = s.dr := by unfold State.dr; rw [hcount]
  have hlevel : ({ s with rxf := f, txf := g } : State).rdaLevel = s.rdaLevel := by
    unfold State.rdaLevel; rw [hcount]; rfl
  have hactive : ({ s with rxf := f, txf := g } : State).rdaActive = s.rdaActive := by
    unfold State.rdaActive State.rdaPending; rw [hlevel]
  refine ⟨?_, ?_, ?_⟩
  · unfold State.lsr; rw [hdr]
  · unfold State.iir State.iirCode; rw [hlevel, hactive]; rfl
  · unfold State.irq; rw [hactive]; rfl

theorem afterMcr (h : s.DeadAlike s') (v : Byte) : (s.afterMcr v).DeadAlike (s'.afterMcr v) := by
  cases hv : v.getLsbD 4
  · rw [State.afterMcr_plain s hv, State.afterMcr_plain s' hv]
    exact h.map (·.setMcr (mcrOf v)) (fun _ => rfl) (fun _ => rfl) (fun _ => rfl) (fun _ _ _ => rfl)
  · rw [State.afterMcr_loop s hv, State.afterMcr_loop s' hv]
    exact h.map (fun x => (x.setMcr (mcrOf v)).msrUpdate (x.setMcr (mcrOf v)).loopLines) (fun _ => rfl) (fun _ => rfl)
      (fun _ => rfl) (fun _ _ _ => rfl)

theorem afterMsl (h : s.DeadAlike s') (cts dsr ri dcd : Bool) :
    (s.afterMsl cts dsr ri dcd).DeadAlike (s'.afterMsl cts dsr ri dcd) := by
  have hloop : s'.loop = s.loop := by obtain ⟨_, _, rfl, -⟩ := h.exists_eq; rfl
  rcases hl : s.loop
  · rw [State.afterMsl_lines _ _ _ _ hl, State.afterMsl_lines _ _ _ _ (hloop.trans hl)]
    exact h.map (·.msrUpdate _) (fun _ => rfl) (fun _ => rfl) (fun _ => rfl) (fun _ _ _ => rfl)
  · rwa [State.afterMsl_loop _ _ _ _ hl, State.afterMsl_loop _ _ _ _ (hloop.trans hl)]

/-- No event looks at a dead entry. -/
theorem exec {t : State} {i : Instr} (h : s.DeadAlike s') (hx : exec i s = .next t) :
    ∃ t' : State, Machine.exec i s' = .next t' ∧ t.DeadAlike t' := by
  cases i with
  | wrThr v => cases hx; exact ⟨_, rfl, h.afterThr v⟩
  | rdRbr => cases hx; exact ⟨_, rfl, h.rdRbr⟩
  | wrFcr v => cases hx; exact ⟨_, rfl, (h.setFcr v).rxtoRestart⟩
  | rxb d pe fe bi => cases hx; exact ⟨_, rfl, h.rxAccept d pe fe bi⟩
  | tick => cases hx; exact ⟨_, rfl, h.afterTick⟩
  | rst => exact ⟨_, rfl, h.rst hx rfl⟩
  | wrMcr v => rw [exec_wrMcr] at hx; cases hx; exact ⟨_, exec_wrMcr v s', h.afterMcr v⟩
  | msl cts dsr ri dcd => cases hx; exact ⟨_, rfl, h.afterMsl cts dsr ri dcd⟩
  | rdIir =>
    cases hx
    refine ⟨_, exec_rdIir s', ?_⟩
    rw [h.flags.2.1]
    exact h.map (fun x => (x.reply s.iir).clearThrPending) (fun _ => rfl) (fun _ => rfl) (fun _ => rfl)
      (fun _ _ _ => rfl)
  | rdLsr =>
    cases hx
    refine ⟨_, exec_rdLsr s', ?_⟩
    rw [h.flags.1]
    exact h.map (fun x => (x.reply s.lsr).clearErrors) (fun _ => rfl) (fun _ => rfl) (fun _ => rfl) (fun _ _ _ => rfl)
  | _ =>
    cases hx
    have hwf := h.wf
    have hwf' := h.wf'
    obtain ⟨_, _, rfl, hrx, htx⟩ := h.exists_eq
    exact ⟨_, rfl, hwf, hwf', rfl, hrx, htx⟩

theorem step {t : State} (h : s.DeadAlike s') (hx : step s = .next t) :
    ∃ t' : State, Machine.step s' = .next t' ∧ t.DeadAlike t' := by
  obtain ⟨w, ws, i, hs, hdec, hexec⟩ := step_eq_next hx
  have hs' : s'.stim = w :: ws := by obtain ⟨_, _, rfl, -⟩ := h.exists_eq; exact hs
  have hdec' : decode s'.dlab w = .ok i := by obtain ⟨_, _, rfl, -⟩ := h.exists_eq; exact hdec
  rw [step_of_decode hs' hdec']
  exact exec (h.map (fun x => (afterFetch x).clearOutputs) (fun _ => rfl) (fun _ => rfl) (fun _ => rfl)
    (fun _ _ _ => rfl)) hexec

/-- The ports show the arbiter's output and fields outside the FIFOs. -/
theorem outputs (h : s.DeadAlike s') : s'.outputs = s.outputs := by
  have hirq := h.flags.2.2
  obtain ⟨_, _, rfl, -⟩ := h.exists_eq
  unfold State.outputs
  rw [hirq]

end State.DeadAlike

/-- Settles O59: states of the invariant have well-formed FIFOs, and no step looks at or shows a dead entry. -/
theorem deadFifoEntriesAreUnobservable : Obligations.DeadFifoEntriesAreUnobservable := by
  intro n s s' t hinv hinv' hdead hrun
  have hwf : ∀ {u : State}, u.Inv → u.FifosWf := fun ⟨hv, hrx, htx, _⟩ => ⟨hv.depth_pos, hrx, htx⟩
  obtain ⟨t', hrun', ht⟩ := core_run_simulates (R := State.DeadAlike) State.DeadAlike.step
    ⟨hwf hinv, hwf hinv', hdead⟩ hrun
  refine ⟨t', hrun', ht.alike, ht.outputs, ?_⟩
  obtain ⟨_, _, rfl, -⟩ := ht.exists_eq; rfl

end Sys2Proof.Machine
end

section
/-! PROOF. One step and one bus access: what runs, what is refused, how far a queue runs (spec/00_scope.md R3,
spec/20_memory.md R61, R64, R65, spec/30_encoding.md R82, R89). -/

namespace Sys2Proof.Machine

/-! ### The step -/

/-- Settles O6: the state whose queue has moved on is `afterFetch` with clear outputs. -/
theorem stepRunsTheDecodedEvent : Obligations.StepRunsTheDecodedEvent := by
  intro s w ws i hs hdec
  rw [step_of_decode hs hdec]
  simp only [afterFetch, State.clearOutputs, hs, List.tail_cons]

/-- Settles O7: the two ways a step finds no event to run. -/
theorem stepRefusesWhatIsNoEvent : Obligations.StepRefusesWhatIsNoEvent :=
  ⟨fun _ _ _ _ => step_of_reject, fun _ => step_of_nil⟩

/-- What `decodeTableWord` reads is what the decoder reads in bank 0. -/
theorem decode_of_decodeTableWord {nbits w : Nat} {i : Instr} (h : decodeTableWord nbits w = some i) :
    decode false (tableWord nbits w) = .ok i := by
  unfold decodeTableWord at h
  split at h
  · next hdec => cases h; exact hdec
  · cases h

/-- Settles O8: the presented word is the first of the queue, and taking it leaves the queue as it was. -/
theorem presentedWordRunsNext : Obligations.PresentedWordRunsNext := by
  intro s w i hdlab htable
  have hdec : decode (s.withFetchWord 16 w).dlab (tableWord 16 w) = .ok i := by
    rw [State.withFetchWord, presentFirst_dlab, hdlab]
    exact decode_of_decodeTableWord htable
  exact step_of_decode (s := s.withFetchWord 16 w) rfl hdec

/-- A step whose next word spells an event answers a next state, with that word taken (R200). -/
theorem exists_step_of_eventWord {s : State} {w : Word} {ws : List Word} (hs : s.stim = w :: ws) (hw : EventWord w) :
    ∃ t : State, step s = .next t ∧ t.stim = ws := by
  obtain ⟨i, hdec⟩ := (rejectedWordsAreTheNonEvents s.dlab w).1.mpr hw
  obtain ⟨t, hx⟩ := everyEventCompletes i (afterFetch s).clearOutputs
  refine ⟨t, (step_of_decode hs hdec).trans hx, (exec_keeps_cfg_stim hx).2.trans ?_⟩
  simp [hs]

/-- R200, R89: the first words of a queue run one a step, if they spell events. -/
theorem exists_run_of_eventWords {us vs : List Word} {s : State} (hs : s.stim = us ++ vs) (hu : ∀ w ∈ us, EventWord w) :
    ∃ t : State, core.run us.length s = .next t ∧ t.stim = vs := by
  induction us generalizing s with
  | nil => exact ⟨s, rfl, hs⟩
  | cons w us ih =>
    obtain ⟨hw, hus⟩ := List.forall_mem_cons.mp hu
    obtain ⟨t, hstep, ht⟩ := exists_step_of_eventWord hs hw
    obtain ⟨u, hrun, hu'⟩ := ih ht hus
    exact ⟨u, (core_run_succ us.length hstep).trans hrun, hu'⟩

/-- Settles O10: whether a word spells an event does not depend on the bank, so every word of the queue runs. -/
theorem eventQueueRunsToItsEnd : Obligations.EventQueueRunsToItsEnd := by
  intro s hsafe
  exact exists_run_of_eventWords (vs := []) (by simp) hsafe

/-- R4, R85: an event puts a byte on the read port exactly if it is a read. -/
theorem rdata_isSome_of_exec {i : Instr} {s t : State} (hs : s.rdata = none) (hx : exec i s = .next t) :
    t.rdata.isSome = i.isRead := by
  cases i with
  | wrThr v => rw [exec_wrThr] at hx; cases hx; simp [hs, Instr.isRead]
  | wrMcr v => rw [exec_wrMcr] at hx; cases hx; rw [State.afterMcr_frame]; simp [hs, Instr.isRead]
  | msl cts dsr ri dcd => rw [exec_msl] at hx; cases hx; rw [State.afterMsl_frame]; simp [hs, Instr.isRead]
  | tick => rw [exec_tick] at hx; cases hx; simp [hs, Instr.isRead]
  | rdRbr => cases hx; rfl
  | rdDll => cases hx; rfl
  | rdIer => cases hx; rfl
  | rdDlm => cases hx; rfl
  | rdIir => cases hx; rfl
  | rdLcr => cases hx; rfl
  | rdMcr => cases hx; rfl
  | rdLsr => cases hx; rfl
  | rdMsr => cases hx; rfl
  | rdScr => cases hx; rfl
  | _ => cases hx; exact congrArg Option.isSome hs

/-- Settles O51: the event starts with the read port clear. -/
theorem onlyReadsReturnAByte : Obligations.OnlyReadsReturnAByte := by
  intro s t w i hs hdec hstep
  obtain ⟨w', ws, i', hs', hdec', hx⟩ := step_eq_next hstep
  rw [hs', List.head?_cons] at hs
  cases hs
  rw [hdec] at hdec'
  cases hdec'
  exact rdata_isSome_of_exec rfl hx

/-! ### Bus access -/

/-- Settles O11: the width is looked at first, then the offset. -/
theorem accessOutsideTheSpaceIsRefused : Obligations.AccessOutsideTheSpaceIsRefused := by
  intro off bytes v s
  constructor
  · intro hwidth
    simp [memRead, memWrite, busAccess, hwidth]
  · intro hoff
    simp [memRead, memWrite, busAccess, hoff]

/-- A one-byte write at an offset of the space is the write R81 selects. -/
theorem memWrite_byte {off : Nat} (h : off < 8) (v : Byte) (s : State) :
    memWrite off 1 v s = exec (selectBus s.dlab true (BitVec.ofNat 3 off) v) s.clearOutputs := busAccess_byte true h v s

/-- A one-byte read at an offset of the space is the read R81 selects. -/
theorem memRead_byte {off : Nat} (h : off < 8) (s : State) :
    memRead off 1 s = exec (selectBus s.dlab false (BitVec.ofNat 3 off) 0#8) s.clearOutputs :=
  busAccess_byte false h 0#8 s

theorem ierByte_ierOf (v : Byte) : ierByte (ierOf v) = v &&& 0x0F#8 := by revert v; decide

theorem mcrByte_mcrOf (v : Byte) : mcrByte (mcrOf v) = v &&& 0x1F#8 := by revert v; decide

/-- A write and the read after it, in the bank the write leaves. -/
theorem exists_read_back {off : Nat} {v b : Byte} {s t u : State} (hoff : off < 8)
    (hw : exec (selectBus s.dlab true (BitVec.ofNat 3 off) v) s.clearOutputs = .next t)
    (hr : exec (selectBus t.dlab false (BitVec.ofNat 3 off) 0#8) t.clearOutputs = .next u) (hb : u.rdata = some b) :
    ∃ t u : State, memWrite off 1 v s = .next t ∧ memRead off 1 t = .next u ∧ u.rdata = some b :=
  ⟨t, u, (memWrite_byte hoff v s).trans hw, (memRead_byte hoff t).trans hr, hb⟩

/-- Settles O12: offset by offset, the read's register is the one the write set; at offsets 0 and 1 the bank is the same
for both. -/
theorem accessReadsBackWhatWasWritten : Obligations.AccessReadsBackWhatWasWritten := by
  rintro off v s (rfl | rfl | rfl | ⟨rfl, hdlab⟩ | rfl)
  · exact exists_read_back (by omega) rfl rfl rfl
  · exact exists_read_back (by omega) rfl rfl rfl
  · refine exists_read_back (by omega) (exec_wrMcr v _) (exec_rdMcr _) ?_
    rw [State.afterMcr_frame]
    exact congrArg some (mcrByte_mcrOf v)
  · let t := s.clearOutputs.setDl (dlWithLow s.dl v)
    have hw : exec (selectBus s.dlab true 0#3 v) s.clearOutputs = .next t := by rw [hdlab]; rfl
    have hr : exec (selectBus t.dlab false 0#3 0#8) t.clearOutputs = .next (t.clearOutputs.reply (dlLow t.dl)) := by
      rw [show t.dlab = true from hdlab]; rfl
    exact exists_read_back (by omega) hw hr (congrArg some (dlLow_dlWithLow s.dl v))
  · cases hdlab : s.dlab
    · let t := s.clearOutputs.setIer (ierOf v)
      have hw : exec (selectBus s.dlab true 1#3 v) s.clearOutputs = .next t := by rw [hdlab]; rfl
      have hr : exec (selectBus t.dlab false 1#3 0#8) t.clearOutputs =
          .next (t.clearOutputs.reply (ierByte t.ier)) := by
        rw [show t.dlab = false from hdlab]; rfl
      exact exists_read_back (by omega) hw hr (congrArg some (ierByte_ierOf v))
    · let t := s.clearOutputs.setDl (dlWithHigh s.dl v)
      have hw : exec (selectBus s.dlab true 1#3 v) s.clearOutputs = .next t := by rw [hdlab]; rfl
      have hr : exec (selectBus t.dlab false 1#3 0#8) t.clearOutputs = .next (t.clearOutputs.reply (dlHigh t.dl)) := by
        rw [show t.dlab = true from hdlab]; rfl
      exact exists_read_back (by omega) hw hr (congrArg some (dlHigh_dlWithHigh s.dl v))

/-- What a bus operation at offset 0 or 1 does while `DLAB` is 1: it is one of the four that write or return the
divisor. -/
theorem selectBus_bank_one_frame {a : BitVec 3} (h : a.toNat ≤ 1) (we : Bool) (v : Byte) (s : State) :
    ∃ t : State, exec (selectBus true we a v) s = .next t ∧ t = { s with rdata := t.rdata, dl := t.dl } := by
  have hoffset : a = 0#3 ∨ a = 1#3 := by revert a; decide
  rcases hoffset with rfl | rfl <;> cases we <;> exact ⟨_, rfl, rfl⟩

/-- Settles O52: a word of kind 0 with such an offset decodes to one of the four divisor operations. -/
theorem bankOneAccessReachesOnlyTheDivisor : Obligations.BankOneAccessReachesOnlyTheDivisor := by
  intro s w ws hs hdlab hkind hoff
  rw [← wordKind_toNat] at hkind
  rw [← wordAddr_toNat] at hoff
  have hdec := decode_of_kind_bus s.dlab (BitVec.eq_of_toNat_eq hkind)
  obtain ⟨t, hx, ht⟩ := selectBus_bank_one_frame hoff (wordWe w) (wordByte w) (afterFetch s).clearOutputs
  refine ⟨t, ?_, ht.trans ?_⟩
  · rw [step_of_decode hs hdec, hdlab, hx]
  · simp only [afterFetch, State.clearOutputs, hs, List.tail_cons]

end Sys2Proof.Machine
end

section
/-! PROOF. The other registers: read-only offsets, line control, modem control and status, FIFO control, and `RST`
(spec/40_bus_register_ops.md R118, R120, R122, R125, R127, spec/43_modem_loopback_break.md R180 to R185,
spec/70_reset_and_hazards.md R230). -/

namespace Sys2Proof.Machine

/-- Settles O16: the two arms answer the state they were given. -/
theorem writesToReadOnlyOffsetsChangeNothing : Obligations.WritesToReadOnlyOffsetsChangeNothing :=
  fun _ _ => ⟨rfl, rfl⟩

/-- Settles O20: `break_edge` keeps a set bit and adds the edge of bit 6 against `last_break_enable`. -/
theorem writeOfLcrDetectsBreakStart : Obligations.WriteOfLcrDetectsBreakStart := by
  intro v s
  exact ⟨(s.setLcr v).breakEdge (v.getLsbD 6), rfl, rfl, by simp⟩

/-- Settles O37: `RST` writes each reset value and resets both FIFOs over their arrays. -/
theorem resetEventRestoresResetValues : Obligations.ResetEventRestoresResetValues := fun _ => rfl

/-- Settles O38: fixed values of one state. -/
theorem derivedValuesAfterReset : Obligations.DerivedValuesAfterReset := by
  unfold Obligations.DerivedValuesAfterReset
  refine ⟨by decide, by decide, by decide, by decide, rfl, rfl⟩

/-! ### Modem status -/

/-- R180 as the statements say it: the four recorded lines, and the sticky delta bit of each. -/
theorem State.msrUpdate_modemLines (s : State) (cts dsr ri dcd : Bool) :
    (s.msrUpdate (modemLines cts dsr ri dcd)).msr.getLsbD 4 = cts ∧
    (s.msrUpdate (modemLines cts dsr ri dcd)).msr.getLsbD 5 = dsr ∧
    (s.msrUpdate (modemLines cts dsr ri dcd)).msr.getLsbD 6 = ri ∧
    (s.msrUpdate (modemLines cts dsr ri dcd)).msr.getLsbD 7 = dcd ∧
    ∀ k < 4, (s.msrUpdate (modemLines cts dsr ri dcd)).msr.getLsbD k =
      (s.msr.getLsbD k ||
        (s.msr.getLsbD (k + 4) != (s.msrUpdate (modemLines cts dsr ri dcd)).msr.getLsbD (k + 4))) := by
  obtain ⟨h0, h1, h2, h3⟩ := modemLines_bits cts dsr ri dcd
  have hline := s.msrUpdate_lines (modemLines cts dsr ri dcd)
  refine ⟨(hline 0).trans h0, (hline 1).trans h1, (hline 2).trans h2, (hline 3).trans h3, fun k hk => ?_⟩
  rw [hline k, State.msrUpdate_delta s _ k hk, Bool.xor_comm]

/-- Settles O22: outside loopback the event is one `msr_update` of the reported lines. -/
theorem modemLineReportRecordsLines : Obligations.ModemLineReportRecordsLines := by
  intro cts dsr ri dcd s
  refine ⟨s.afterMsl cts dsr ri dcd, exec_msl .., s.afterMsl_frame cts dsr ri dcd, fun hl => ?_, fun hl => ?_⟩
  · rw [State.afterMsl_loop cts dsr ri dcd hl]
  · rw [State.afterMsl_lines cts dsr ri dcd hl]
    exact s.msrUpdate_modemLines cts dsr ri dcd

/-- R181: the outputs just written, as the lines they are wired to. -/
theorem State.setMcr_loopLines (s : State) (v : Byte) :
    (s.setMcr (mcrOf v)).loopLines = modemLines (v.getLsbD 1) (v.getLsbD 0) (v.getLsbD 2) (v.getLsbD 3) := by
  have hbit := mcrOf_getLsbD v
  rw [State.loopLines_eq, State.setMcr_mcr, hbit 1 (by omega), hbit 0 (by omega), hbit 2 (by omega), hbit 3 (by omega)]

/-- Settles O21: in loopback the write is one `msr_update` of the outputs it has just set. -/
theorem writeOfMcrLoopsItsOutputs : Obligations.WriteOfMcrLoopsItsOutputs := by
  intro v s
  refine ⟨s.afterMcr v, exec_wrMcr v s, ?_, fun hv => ?_, fun hv => ?_⟩
  · rw [← mcrOf_eq]; exact s.afterMcr_frame v
  · rw [State.afterMcr_plain s hv]; rfl
  · rw [State.afterMcr_loop s hv, State.setMcr_loopLines]
    exact (s.setMcr (mcrOf v)).msrUpdate_modemLines _ _ _ _

/-! ### FIFO control -/

/-- Settles O23: the two kept fields and the two reset commands, then the timer is put in line. -/
theorem writeOfFcrSetsFifoMode : Obligations.WriteOfFcrSetsFifoMode := by
  intro v s
  refine ⟨(s.setFcr v).rxtoRestart, rfl, ?_, fun h => ?_, fun h => ?_, fun h => ?_, fun h => ?_,
    State.rxtoRestart_timerInLine (s.setFcr v)⟩
  · rw [← fcrTrigger_eq]; rfl
  · have hreset : fcrRxReset v = true := h
    simp [hreset, Fifo.clear]
  · have hkeep : fcrRxReset v = false := h
    simp [hkeep]
  · have hreset : fcrTxReset v = true := h
    simp [hreset, Fifo.clear]
  · have hkeep : fcrTxReset v = false := h
    simp [hkeep]

end Sys2Proof.Machine
end

section
/-! PROOF. The FIFOs as queues, and the events that queue and take received bytes (spec/41_fifo_and_receive.md R140 to
R148, spec/40_bus_register_ops.md R111). -/

namespace Sys2Proof.Machine

/-- Settles O27: one law per primitive; a FIFO that has an index has a capacity of at least 1. -/
theorem fifoIsAQueue : Obligations.FifoIsAQueue := by
  intro c f v h
  have hc : 1 ≤ c := by obtain ⟨-, hhead, -⟩ := h; omega
  refine ⟨Fifo.length_contents c f, fun hroom => ⟨Fifo.contents_enq h hroom v, Fifo.wf_enq h hroom v⟩,
    fun hne => ⟨Fifo.contents_deq h hne, Fifo.wf_deq h hne, Fifo.contents_replaceNewest h hne v,
      Fifo.wf_replaceNewest h v⟩, Fifo.contents_clear c f, Fifo.wf_clear h.1 hc⟩

/-- R146 on the queue of waiting bytes: with room, and without. -/
theorem State.rxAccept_queue {s : State} (d : Byte) (pe fe bi : Bool) (hc : 1 ≤ s.cfg.fifoDepth)
    (hwf : s.rxf.Wf s.cfg.fifoDepth) :
    (s.rxf.count < s.ceff →
      (s.rxAccept d pe fe bi).rxf.contents s.cfg.fifoDepth = s.rxf.contents s.cfg.fifoDepth ++ [d] ∧
      (s.rxAccept d pe fe bi).lsrOe = s.lsrOe) ∧
    (s.ceff ≤ s.rxf.count → (s.rxAccept d pe fe bi).rxf = s.rxf ∧ (s.rxAccept d pe fe bi).lsrOe = true) := by
  refine ⟨fun hroom => ?_, State.rxAccept_overrun d pe fe bi⟩
  obtain ⟨hrxf, hoe⟩ := State.rxAccept_room d pe fe bi hroom
  rw [hrxf]
  exact ⟨Fifo.contents_enq hwf (Nat.lt_of_lt_of_le hroom (State.ceff_le hc)) d, hoe⟩

/-- Settles O25: `RXB` is one `rx_accept`. -/
theorem arrivalIsQueuedOrOverruns : Obligations.ArrivalIsQueuedOrOverruns := by
  intro d pe fe bi s hv hwf
  obtain ⟨hroom, hfull⟩ := State.rxAccept_queue d pe fe bi hv.depth_pos hwf
  exact ⟨s.rxAccept d pe fe bi, rfl, rfl, hroom, hfull, State.rxAccept_timerInLine s d pe fe bi⟩

/-- R111 with a byte waiting: the oldest is taken and latched. -/
theorem State.takeRbr_more {s : State} (h : 0 < s.rxf.count) :
    s.takeRbr.rbr = s.rxf.front ∧ s.takeRbr.rxf = s.rxf.deq s.cfg.fifoDepth := by simp [h]

/-- R111 with nothing waiting. -/
theorem State.takeRbr_empty {s : State} (h : s.rxf.count = 0) : s.takeRbr.rbr = s.rbr ∧ s.takeRbr.rxf = s.rxf := by
  simp [h]

/-- Settles O26: the byte is taken, the flag cleared, the timer put in line with what is left, and the latch
returned. -/
theorem readOfRbrTakesTheOldestByte : Obligations.ReadOfRbrTakesTheOldestByte := by
  intro s hwf
  refine ⟨_, rfl, rfl, fun b rest hq => ?_, fun hq => ?_, State.rxtoRestart_timerInLine s.takeRbr.clearTimeout⟩
  · have hne := Fifo.count_pos_of_contents_cons hq
    rw [Fifo.contents_deq hwf hne] at hq
    obtain ⟨hb, hrest⟩ := List.cons.inj hq
    obtain ⟨hrbr, hrxf⟩ := State.takeRbr_more hne
    refine ⟨hrbr.trans hb, ?_, ?_⟩
    · exact (congrArg (Fifo.contents _) hrxf).trans hrest
    · exact (congrArg Fifo.data hrxf :)
  · exact State.takeRbr_empty (Fifo.contents_eq_nil_iff.mp hq)

end Sys2Proof.Machine
end

section
/-! PROOF. `WR_THR` in its three situations: idle, idle in loopback, busy (spec/40_bus_register_ops.md R110,
spec/41_fifo_and_receive.md R144, spec/42_timing_and_transmit.md R163, R164). -/

namespace Sys2Proof.Machine

/-! ### An idle transmitter -/

/-- R144 into an empty transmit FIFO: the byte is its front, and nothing stands behind it. -/
theorem State.txfWith_of_empty {s : State} (v : Byte) (hc : 1 ≤ s.cfg.fifoDepth) (hwf : s.txf.Wf s.cfg.fifoDepth)
    (h0 : s.txf.count = 0) :
    (s.txfWith v).front = v ∧ ((s.txfWith v).deq s.cfg.fifoDepth).contents s.cfg.fifoDepth = [] := by
  have hroom : s.txf.count < s.ceff := by have := State.ceff_pos (s := s) hc; omega
  have hq := Fifo.contents_enq hwf (by omega) v
  rw [← State.txfWith_room v hroom, Fifo.contents_eq_nil_iff.mpr h0, List.nil_append,
    Fifo.contents_deq (State.wf_txfWith v hc hwf) (State.txfWith_pos v hc)] at hq
  exact List.cons.inj hq

/-- A byte written to an idle transmitter, in the shift stage and not yet delivered. -/
def State.thrShifted (s : State) (v : Byte) : State :=
  { s with
    thr := v, txf := (s.txfWith v).deq s.cfg.fifoDepth, lsrThre := false, lsrTemt := false, thrIpending := false
    tsr := v, tsrFull := true }

/-- R110, R163: from a state of the invariant with the shift stage empty the byte goes straight through the transmit
FIFO. -/
theorem State.afterThr_of_idle {s : State} (v : Byte) (h : s.Inv) (hidle : s.tsrFull = false) :
    s.afterThr v = ((s.thrShifted v).deliver v).armTx s.charTicks ∧
    (s.thrShifted v).txf.contents s.cfg.fifoDepth = [] := by
  obtain ⟨hv, -, htx, ⟨-, hq, -⟩, -⟩ := h
  have h0 : s.txf.count = 0 := Nat.eq_zero_of_not_pos fun hpos => by simp [hq hpos] at hidle
  obtain ⟨hfront, hempty⟩ := State.txfWith_of_empty v hv.depth_pos htx h0
  have hshift : (s.thrQueued v).promote = s.thrShifted v := by
    rw [State.promote, State.thrQueued_frame, hfront]; rfl
  exact ⟨by rw [State.afterThr_promoting v hv.depth_pos hidle, hshift, hfront], hempty⟩

/-- Settles O28: outside loopback the byte in the shift stage is sent. -/
theorem writeOfThrWhenIdleSendsAtOnce : Obligations.WriteOfThrWhenIdleSendsAtOnce := by
  intro v s hinv hidle hloop
  obtain ⟨hafter, hempty⟩ := State.afterThr_of_idle v hinv hidle
  rw [State.deliver_send (s := s.thrShifted v) v hloop] at hafter
  exact ⟨((s.thrShifted v).send v).armTx s.charTicks, hafter ▸ exec_wrThr v s, rfl, hempty⟩

/-- Settles O29: in loopback the byte in the shift stage is accepted by the receive path. -/
theorem writeOfThrWhenIdleInLoopbackReceives : Obligations.WriteOfThrWhenIdleInLoopbackReceives := by
  intro v s hinv hidle hloop
  obtain ⟨hafter, hempty⟩ := State.afterThr_of_idle v hinv hidle
  rw [State.deliver_loop (s := s.thrShifted v) v hloop] at hafter
  obtain ⟨hv, hrx, -⟩ := hinv
  obtain ⟨hroom, hfull⟩ := State.rxAccept_queue (s := s.thrShifted v) v false false false hv.depth_pos hrx
  refine ⟨((s.thrShifted v).rxAccept v false false false).armTx s.charTicks, hafter ▸ exec_wrThr v s, ?_, hempty, hroom,
    hfull, State.rxAccept_timerInLine (s.thrShifted v) v false false false⟩
  rw [State.rxAccept_frame]
  simp [State.thrShifted, State.armTx]

/-! ### A busy transmitter -/

/-- Settles O30: with the shift stage occupied the byte is only queued, as `tx_enqueue` does with room and without. -/
theorem writeOfThrWhenBusyQueues : Obligations.WriteOfThrWhenBusyQueues := by
  intro v s hv hwf hbusy
  have hafter : exec (.wrThr v) s = .next (s.thrQueued v) := by rw [exec_wrThr, State.afterThr_busy v hbusy]
  refine ⟨s.thrQueued v, hafter, rfl, fun hroom => ?_, fun hfull hp => ?_, fun hfull hp => ?_⟩
  · rw [State.thrQueued_frame, State.txfWith_room v hroom]
    exact Fifo.contents_enq hwf (Nat.lt_of_lt_of_le hroom (State.ceff_le hv.depth_pos)) v
  · rw [State.thrQueued_frame, State.txfWith_full_drop v hfull hp]
  · have hne : 0 < s.txf.count := Nat.lt_of_lt_of_le (State.ceff_pos hv.depth_pos) hfull
    rw [State.thrQueued_frame, State.txfWith_full_overwrite v hfull hne hp]
    exact Fifo.contents_replaceNewest hwf hne v

end Sys2Proof.Machine
end

section
/-! PROOF. Time: the character time, one `TICK`, and runs of `TICK`s (spec/42_timing_and_transmit.md R160 to R168,
R172). -/

namespace Sys2Proof.Machine

/-! ### The character time -/

/-- The number of bits of a frame lies between 7 and 12 (R172). -/
theorem State.frameBits_range (s : State) : 7 ≤ s.frameBits ∧ s.frameBits ≤ 12 := by
  rw [State.frameBits_eq]; omega

theorem State.effDiv_range (s : State) : 1 ≤ s.effDiv ∧ s.effDiv ≤ 65535 := by
  have := s.dl.isLt
  rw [State.effDiv_eq]; omega

/-- Settles O33: a product of three factors, each within its range. -/
theorem characterTimeAndItsRange : Obligations.CharacterTimeAndItsRange := by
  intro s
  obtain ⟨hf7, hf12⟩ := s.frameBits_range
  obtain ⟨hd1, hd⟩ := s.effDiv_range
  refine ⟨?_, ?_, ?_, fun hv => ⟨?_, State.timeoutTicks_pos hv⟩⟩
  · rw [State.charTicks, State.frameBits_eq, State.effDiv_eq]
  · calc 7 * s.cfg.prescale = 7 * s.cfg.prescale * 1 := (Nat.mul_one _).symm
      _ ≤ s.charTicks := Nat.mul_le_mul (Nat.mul_le_mul_right _ hf7) hd1
  · exact Nat.mul_le_mul (Nat.mul_le_mul_right _ hf12) hd
  · have := State.charTicks_pos (s := s) hv.prescale_pos; omega

/-! ### One `TICK` -/

/-- R166: the timeout timer, only counted down before its test, fires if it was due. -/
theorem State.tickRx_due {s u : State} (ha : u.rxArmed = s.rxArmed) (hc : u.rxCnt = s.countDown.rxCnt)
    (h : s.rxArmed = true ∧ s.rxCnt = 1) : u.tickRx s.fireRx = u.disarmRx.rxtoExpire := by
  obtain ⟨harmed, hcnt⟩ := h
  have hzero : u.rxCnt = 0 := by rw [hc, State.countDown_rxCnt, harmed, hcnt]; rfl
  rw [State.fireRx_eq_true.mpr ⟨harmed, hcnt⟩, State.tickRx_true, if_pos ⟨ha.trans harmed, hzero⟩]

/-- R166: a timeout timer that is not due does nothing more. -/
theorem State.tickRx_not_due {s : State} (u : State) (h : ¬(s.rxArmed = true ∧ s.rxCnt = 1)) :
    u.tickRx s.fireRx = u := by
  rw [State.fireRx_eq_false.mpr h, State.tickRx_false]

/-- R166, second test: a timer just put in line does not fire. -/
theorem State.tickRx_of_timerInLine {u : State} {old : Nat} (hv : u.cfg.Valid) (h : u.TimerInLine old) (fire : Bool) :
    u.tickRx fire = u := by
  cases fire
  · exact State.tickRx_false u
  · rw [State.tickRx_true, if_neg]
    rintro ⟨harmed, hzero⟩
    by_cases hw : u.fifoen = true ∧ 0 < u.rxf.count ∧ u.rxf.count < u.trigEff
    · have hload : u.rxCnt = u.timeoutTicks := (h.1 hw).2
      have := State.timeoutTicks_pos hv
      omega
    · simp [(h.2 hw).1] at harmed

/-- What a due transmit expiry leaves when nothing is queued, field by field. -/
theorem State.drained_eq {s : State} (h : s.fireTx = true) :
    s.drained = { s with
      txArmed := false, txCnt := 0, tsrFull := false, lsrThre := true, lsrTemt := true, thrIpending := true
      rxCnt := s.countDown.rxCnt } := by
  obtain ⟨harmed, hcnt⟩ := State.fireTx_eq_true.mp h
  simp [State.drained, State.countDown, State.disarmTx, State.emptyShift, State.txDrained, harmed, hcnt]

/-- A due transmit expiry once the oldest queued byte stands in the shift stage, field by field. -/
theorem State.promotedNext_eq (s : State) :
    s.promotedNext = { s with
      txArmed := false, txCnt := s.countDown.txCnt, tsr := s.txf.front, tsrFull := true
      txf := s.txf.deq s.cfg.fifoDepth, rxCnt := s.countDown.rxCnt } := rfl

/-- What a due transmit expiry outside loopback leaves when a byte is queued, field by field. -/
theorem State.restarted_send {s : State} (h : s.loop = false) :
    s.restarted = { s with
      txArmed := true, txCnt := s.charTicks, tsr := s.txf.front, tsrFull := true, txf := s.txf.deq s.cfg.fifoDepth
      txOut := some s.txf.front, sent := s.sent ++ [s.txf.front], rxCnt := s.countDown.rxCnt } := by
  rw [State.restarted, State.deliver_send (s := s.promotedNext) _ h]
  simp [State.promotedNext_eq, State.armTx, State.send]

/-- The same in loopback. -/
theorem State.restarted_loop {s : State} (h : s.loop = true) :
    s.restarted =
      (s.promotedNext.rxAccept s.txf.front false false false).armTx s.charTicks := by
  rw [State.restarted, State.deliver_loop (s := s.promotedNext) _ h]

end Sys2Proof.Machine
end

section
/-! PROOF. One `TICK` whole, and runs of `TICK`s (spec/42_timing_and_transmit.md R164 to R168). -/

namespace Sys2Proof.Machine

/-! ### The transmit side with its frame, whatever the timeout side does -/

theorem State.tickRx_countDown_frame (s : State) (fire : Bool) :
    s.countDown.tickRx fire = { s with
      txCnt := if s.txArmed then s.txCnt - 1 else s.txCnt
      rxArmed := (s.countDown.tickRx fire).rxArmed, rxCnt := (s.countDown.tickRx fire).rxCnt
      timeoutIpending := (s.countDown.tickRx fire).timeoutIpending } := by
  rcases s.countDown.tickRx_cases fire with h | h
  · rw [h]; rfl
  · rw [h]; rfl

theorem State.tickRx_drained_frame {s : State} (h : s.fireTx = true) (fire : Bool) :
    s.drained.tickRx fire = { s with
      txArmed := false, txCnt := 0, tsrFull := false, lsrThre := true, lsrTemt := true, thrIpending := true
      rxArmed := (s.drained.tickRx fire).rxArmed, rxCnt := (s.drained.tickRx fire).rxCnt
      timeoutIpending := (s.drained.tickRx fire).timeoutIpending } := by
  rcases s.drained.tickRx_cases fire with ht | ht
  · rw [ht, State.drained_eq h]
  · rw [ht, State.drained_eq h]; rfl

theorem State.tickRx_send_frame {s : State} (hl : s.loop = false) (fire : Bool) :
    s.restarted.tickRx fire = { s with
      txArmed := true, txCnt := s.charTicks, tsr := s.txf.front, tsrFull := true, txf := s.txf.deq s.cfg.fifoDepth
      txOut := some s.txf.front, sent := s.sent ++ [s.txf.front]
      rxArmed := (s.restarted.tickRx fire).rxArmed, rxCnt := (s.restarted.tickRx fire).rxCnt
      timeoutIpending := (s.restarted.tickRx fire).timeoutIpending } := by
  rcases s.restarted.tickRx_cases fire with ht | ht
  · rw [ht, State.restarted_send hl]
  · rw [ht, State.restarted_send hl]; rfl

/-! ### The timeout side, when no byte is looped back -/

/-- R166, R168: the timeout timer counts, or fires in its turn. -/
theorem State.afterTick_timeout {s : State}
    (h : s.loop = false ∨ ¬(s.txArmed = true ∧ s.txCnt = 1) ∨ s.txf.count = 0) :
    (s.rxArmed = true ∧ s.rxCnt = 1 →
      s.afterTick.rxArmed = false ∧ s.afterTick.rxCnt = 0 ∧ s.afterTick.timeoutIpending = true) ∧
    (¬(s.rxArmed = true ∧ s.rxCnt = 1) →
      s.afterTick.rxArmed = s.rxArmed ∧ s.afterTick.rxCnt = (if s.rxArmed then s.rxCnt - 1 else s.rxCnt) ∧
      s.afterTick.timeoutIpending = s.timeoutIpending) := by
  have hquiet : s.countDown.loop = false ∨ s.fireTx = false ∨ s.countDown.txf.count = 0 := by
    rwa [State.fireTx_eq_false]
  obtain ⟨harmed, hcnt, hpend, -⟩ := State.tickTx_rx s.fireTx hquiet
  constructor
  · intro hdue
    have hzero : (s.countDown.tickTx s.fireTx).rxCnt = 0 := by rw [hcnt, State.countDown_rxCnt, hdue.1, hdue.2]; rfl
    rw [State.afterTick, State.tickRx_due (s := s) harmed hcnt hdue]
    exact ⟨rfl, hzero, rfl⟩
  · intro hdue
    rw [State.afterTick, State.tickRx_not_due _ hdue]
    exact ⟨harmed, hcnt, hpend⟩

/-- Settles O31: the transmit side by its three cases; the timeout side does not depend on them. -/
theorem tickCountsAndExpires : Obligations.TickCountsAndExpires := by
  intro s hwf hquiet
  obtain ⟨hdue, hnot⟩ := State.afterTick_timeout hquiet
  have hsend : s.fireTx = true → 0 < s.txf.count → s.loop = false := fun hfire hne => by
    rcases hquiet with h | h | h
    · exact h
    · exact absurd (State.fireTx_eq_true.mp hfire) h
    · omega
  refine ⟨s.afterTick, exec_tick s, ?_, fun h => ?_, fun ha hc hq => ?_, fun ha hc b rest hq => ?_, hdue, hnot⟩
  · rcases s.afterTick_cases with ⟨-, h⟩ | ⟨hfire, -, h⟩ | ⟨hfire, hne, h⟩
    · rw [h, State.tickRx_countDown_frame]
    · rw [h, State.tickRx_drained_frame hfire]
    · rw [h, State.tickRx_send_frame (hsend hfire hne)]
  · rw [State.afterTick_counting (State.fireTx_eq_false.mpr h)]
    exact s.tickRx_countDown_frame _
  · have hfire : s.fireTx = true := State.fireTx_eq_true.mpr ⟨ha, hc⟩
    rw [State.afterTick_drained hfire (Fifo.contents_eq_nil_iff.mp hq)]
    exact State.tickRx_drained_frame hfire _
  · have hfire : s.fireTx = true := State.fireTx_eq_true.mpr ⟨ha, hc⟩
    have hne := Fifo.count_pos_of_contents_cons hq
    rw [Fifo.contents_deq hwf hne] at hq
    obtain ⟨rfl, hrest⟩ := List.cons.inj hq
    rw [State.afterTick_restarted hfire hne]
    have hframe := State.tickRx_send_frame (hsend hfire hne) s.fireRx
    exact ⟨by rw [hframe]; exact hrest, by rw [hframe]⟩

/-- R166, second test: a looped-back byte puts the timeout timer in line, so nothing is left for its own part of the
`TICK`. -/
theorem State.afterTick_loopedBack {s : State} (hv : s.cfg.Valid) (hl : s.loop = true) (hfire : s.fireTx = true)
    (hne : 0 < s.txf.count) : s.afterTick = s.restarted ∧ s.afterTick.TimerInLine s.countDown.rxCnt := by
  have hline : s.restarted.TimerInLine s.countDown.rxCnt := by
    rw [State.restarted_loop hl]
    exact State.rxAccept_timerInLine s.promotedNext s.txf.front false false false
  have hcfg : s.restarted.cfg = s.cfg := by rw [s.restarted_frame]
  have hafter : s.afterTick = s.restarted :=
    (State.afterTick_restarted hfire hne).trans (State.tickRx_of_timerInLine (hcfg ▸ hv) hline _)
  exact ⟨hafter, hafter ▸ hline⟩

/-- Settles O32: the looped-back byte puts the timeout timer in line before its own part of the `TICK`. -/
theorem tickInLoopbackRestartsTheTimeout : Obligations.TickInLoopbackRestartsTheTimeout := by
  intro s b rest hv htx hrx hl ha hc hq
  have hne := Fifo.count_pos_of_contents_cons hq
  rw [Fifo.contents_deq htx hne] at hq
  obtain ⟨rfl, hrest⟩ := List.cons.inj hq
  obtain ⟨hafter, hline⟩ := State.afterTick_loopedBack hv hl (State.fireTx_eq_true.mpr ⟨ha, hc⟩) hne
  rw [State.restarted_loop hl] at hafter
  obtain ⟨hroom, hfull⟩ := State.rxAccept_queue (s := s.promotedNext) s.txf.front false false false hv.depth_pos hrx
  refine ⟨_, exec_tick s, ?_, ?_, ?_, ?_, hline⟩
  · rw [hafter, State.rxAccept_frame]
    simp [State.promotedNext_eq, State.armTx]
  · rw [hafter]; exact hrest
  · rw [hafter]; exact hroom
  · rw [hafter]; exact hfull

/-! ### Runs of `TICK`s -/

/-- The state in which the next event runs: its word taken from the queue, the event outputs clear. -/
def State.fetched (s : State) : State := (afterFetch s).clearOutputs

/-- The state after the next event when that event is a `TICK`. -/
def State.ticked (s : State) : State := s.fetched.afterTick

theorem step_tick {s : State} {ws : List Word} (h : s.stim = 0x3000#16 :: ws) : step s = .next s.ticked :=
  step_of_decode h (i := .tick) (decode_of_kind_tick s.dlab rfl)

theorem State.ticked_stim {s : State} {w : Word} {ws : List Word} (h : s.stim = w :: ws) : s.ticked.stim = ws := by
  simp [State.ticked, State.fetched, h]

/-- A queue of `TICK` words runs, one `TICK` a step. -/
theorem core_run_ticks {n : Nat} {s : State} {rest : List Word} (h : s.stim = List.replicate n 0x3000#16 ++ rest) :
    core.run n s = .next (State.ticked^[n] s) ∧ (State.ticked^[n] s).stim = rest := by
  induction n generalizing s with
  | zero => exact ⟨rfl, by simpa using h⟩
  | succ n ih =>
    rw [List.replicate_succ, List.cons_append] at h
    obtain ⟨hrun, hstim⟩ := ih (s.ticked_stim h)
    exact ⟨(core_run_succ n (step_tick h)).trans hrun, hstim⟩

/-- `t` is `s` after `k` `TICK`s none of which was the transmit timer's last, as far as the transmit side goes. -/
structure State.TxWaits (s : State) (k : Nat) (t : State) : Prop where
  armed : t.txArmed = true
  cnt : t.txCnt = s.txCnt - k
  sent : t.sent = s.sent
  full : t.tsrFull = s.tsrFull
  txf : t.txf = s.txf
  cfg : t.cfg = s.cfg
  loop : t.loop = s.loop
  ticks : t.charTicks = s.charTicks

theorem State.TxWaits.ticked {s t : State} {k : Nat} (h : s.TxWaits k t) (hk : k + 1 < s.txCnt) :
    s.TxWaits (k + 1) t.ticked := by
  have hcnt := h.cnt
  have hfire : t.fetched.fireTx = false := State.fireTx_eq_false.mpr fun ⟨_, h1⟩ => by
    have h1' : t.txCnt = 1 := h1
    omega
  have hframe := t.fetched.tickRx_countDown_frame t.fetched.fireRx
  rw [State.ticked, State.afterTick_counting hfire, hframe]
  exact ⟨h.armed, by simp [State.fetched, h.armed, hcnt, Nat.sub_sub], h.sent, h.full, h.txf, h.cfg, h.loop, h.ticks⟩

theorem State.txWaits_ticks {s : State} (harmed : s.txArmed = true) {k : Nat} (hk : k < s.txCnt) :
    s.TxWaits k (State.ticked^[k] s) := by
  induction k with
  | zero => exact ⟨harmed, rfl, rfl, rfl, rfl, rfl, rfl, rfl⟩
  | succ k ih =>
    rw [Function.iterate_succ_apply']
    exact (ih (by omega)).ticked hk

/-- A queue of `n` `TICK` words holds a queue of `k`, for each `k` up to `n`. -/
theorem replicate_ticks_split {k n : Nat} (hk : k ≤ n) (rest : List Word) :
    List.replicate n 0x3000#16 ++ rest = List.replicate k 0x3000#16 ++ (List.replicate (n - k) 0x3000#16 ++ rest) := by
  rw [← List.append_assoc, List.replicate_append_replicate, Nat.add_sub_cancel' hk]

/-- Settles O35: the first `n - 1` `TICK`s only count the transmit timer down; the `n`-th is its expiry. -/
theorem transmitPacing : Obligations.TransmitPacing := by
  intro s rest hwf hl harmed hpos hstim
  constructor
  · intro k hk
    have hw := State.txWaits_ticks harmed hk
    rw [replicate_ticks_split hk.le] at hstim
    exact ⟨_, (core_run_ticks hstim).1, hw.armed, hw.cnt, hw.sent, hw.full, hw.txf⟩
  · obtain ⟨hrun, hrest⟩ := core_run_ticks hstim
    refine ⟨_, hrun, hrest, ?_⟩
    obtain ⟨m, hm⟩ : ∃ m, s.txCnt = m + 1 := ⟨s.txCnt - 1, by omega⟩
    have hw := State.txWaits_ticks harmed (k := m) (by omega)
    rw [hm, Function.iterate_succ_apply']
    generalize State.ticked^[m] s = t at hw
    have hfire : t.fetched.fireTx = true := State.fireTx_eq_true.mpr ⟨hw.armed, hw.cnt.trans (by omega)⟩
    have hl' : t.fetched.loop = false := hw.loop.trans hl
    refine ⟨fun hq => ?_, fun b bs hq => ?_⟩
    · have h0 : t.fetched.txf.count = 0 := by
        rw [← Fifo.contents_eq_nil_iff (c := s.cfg.fifoDepth), ← hq]; exact congrArg _ hw.txf
      rw [State.ticked, State.afterTick_drained hfire h0, State.tickRx_drained_frame hfire]
      exact ⟨rfl, rfl, rfl, rfl, rfl, hw.sent⟩
    · have hne := Fifo.count_pos_of_contents_cons hq
      have hne' : 0 < t.fetched.txf.count := (congrArg Fifo.count hw.txf).symm ▸ hne
      rw [Fifo.contents_deq hwf hne] at hq
      obtain ⟨rfl, hbs⟩ := List.cons.inj hq
      rw [State.ticked, State.afterTick_restarted hfire hne', State.tickRx_send_frame hl']
      have htxf : t.fetched.txf = s.txf := hw.txf
      have hcfg : t.fetched.cfg = s.cfg := hw.cfg
      have hsent : t.fetched.sent = s.sent := hw.sent
      exact ⟨rfl, hw.ticks, by rw [htxf], rfl, by rw [htxf, hcfg]; exact hbs, by rw [htxf, hsent], by rw [htxf]⟩

/-- `t` is `s` after `k` `TICK`s outside loopback, none of which was the timeout timer's last, as far as the receive
side goes. -/
structure State.RxWaits (s : State) (k : Nat) (t : State) : Prop where
  armed : t.rxArmed = true
  cnt : t.rxCnt = s.rxCnt - k
  pending : t.timeoutIpending = s.timeoutIpending
  rxf : t.rxf = s.rxf
  loop : t.loop = s.loop
  ier : t.ier = s.ier

/-- R166: outside loopback a `TICK` leaves the receive FIFO as it is. -/
theorem State.afterTick_rxf {s : State} (h : s.loop = false) : s.afterTick.rxf = s.rxf := by
  obtain ⟨-, -, -, hrxf⟩ := State.tickTx_rx (s := s.countDown) s.fireTx (.inl h)
  rw [State.afterTick, State.tickRx_frame]
  exact hrxf

theorem State.afterTick_loop (s : State) : s.afterTick.loop = s.loop := by rw [State.loop, State.afterTick_mcr]; rfl

theorem State.RxWaits.ticked {s t : State} {k : Nat} (hl : s.loop = false) (h : s.RxWaits k t) (hk : k + 1 < s.rxCnt) :
    s.RxWaits (k + 1) t.ticked := by
  have hcnt := h.cnt
  have hl' : t.fetched.loop = false := h.loop.trans hl
  obtain ⟨harmed, hcnt', hpend⟩ := (State.afterTick_timeout (s := t.fetched) (.inl hl')).2 fun ⟨_, h1⟩ => by
    have h1' : t.rxCnt = 1 := h1
    omega
  have ha : t.fetched.rxArmed = true := h.armed
  have hc : t.fetched.rxCnt = s.rxCnt - k := h.cnt
  refine ⟨harmed.trans ha, ?_, hpend.trans h.pending, (State.afterTick_rxf hl').trans h.rxf,
    t.fetched.afterTick_loop.trans h.loop, t.fetched.afterTick_ier.trans h.ier⟩
  rw [State.ticked, hcnt', ha, if_pos rfl, hc, Nat.sub_sub]

theorem State.rxWaits_ticks {s : State} (hl : s.loop = false) (harmed : s.rxArmed = true) {k : Nat} (hk : k < s.rxCnt) :
    s.RxWaits k (State.ticked^[k] s) := by
  induction k with
  | zero => exact ⟨harmed, rfl, rfl, rfl, rfl, rfl⟩
  | succ k ih =>
    rw [Function.iterate_succ_apply']
    exact (ih (by omega)).ticked hl hk

/-- R202, R206: with `ERBFI` enabled a pending timeout raises the interrupt output. -/
theorem State.irq_of_timeout {s : State} (hen : s.ier.getLsbD 0 = true) (hp : s.timeoutIpending = true) :
    s.irq = true := by
  have hactive : s.rdaActive = true := by rw [State.rdaActive, State.rdaPending, hen, hp, Bool.or_true]; rfl
  simp [State.irq, hactive]

/-- Settles O36: the first `n - 1` `TICK`s only count the timeout timer down; in the `n`-th it fires. -/
theorem receiveTimeoutAfterItsCount : Obligations.ReceiveTimeoutAfterItsCount := by
  intro s rest hl harmed hpos hstim
  constructor
  · intro k hk
    have hw := State.rxWaits_ticks hl harmed hk
    rw [replicate_ticks_split hk.le] at hstim
    exact ⟨_, (core_run_ticks hstim).1, hw.armed, hw.cnt, hw.pending, hw.rxf⟩
  · obtain ⟨hrun, hrest⟩ := core_run_ticks hstim
    refine ⟨_, hrun, hrest, ?_⟩
    obtain ⟨m, hm⟩ : ∃ m, s.rxCnt = m + 1 := ⟨s.rxCnt - 1, by omega⟩
    have hw := State.rxWaits_ticks hl harmed (k := m) (by omega)
    rw [hm, Function.iterate_succ_apply']
    generalize State.ticked^[m] s = t at hw
    have hl' : t.fetched.loop = false := hw.loop.trans hl
    have hdue : t.fetched.rxArmed = true ∧ t.fetched.rxCnt = 1 := ⟨hw.armed, hw.cnt.trans (by omega)⟩
    obtain ⟨hdis, -, hpend⟩ := (State.afterTick_timeout (s := t.fetched) (.inl hl')).1 hdue
    have hier : t.fetched.afterTick.ier = s.ier := t.fetched.afterTick_ier.trans hw.ier
    exact ⟨hdis, hpend, (State.afterTick_rxf hl').trans hw.rxf, fun hen => State.irq_of_timeout (hier ▸ hen) hpend⟩

end Sys2Proof.Machine
end

section
/-! PROOF. The arbiter (spec/60_exceptions.md R201 to R207): the interrupt output and the identification value. -/

namespace Sys2Proof.Machine

theorem State.rlsActive_iff {s : State} : s.rlsActive = true ↔
    s.ier.getLsbD 2 = true ∧ (s.lsrOe = true ∨ s.lsrPe = true ∨ s.lsrFe = true ∨ s.lsrBi = true) := by
  simp only [State.rlsActive, State.rlsPending, Bool.and_eq_true, Bool.or_eq_true, or_assoc]

theorem State.rdaLevel_iff {s : State} : s.rdaLevel = true ↔ s.trigEff ≤ s.rxf.count := by simp [State.rdaLevel]

theorem State.rdaActive_iff {s : State} : s.rdaActive = true ↔
    s.ier.getLsbD 0 = true ∧ (s.trigEff ≤ s.rxf.count ∨ s.timeoutIpending = true) := by
  simp only [State.rdaActive, State.rdaPending, Bool.and_eq_true, Bool.or_eq_true, State.rdaLevel_iff]

theorem State.threActive_iff {s : State} : s.threActive = true ↔ s.ier.getLsbD 1 = true ∧ s.thrIpending = true := by
  simp only [State.threActive, Bool.and_eq_true]

/-- The delta bits are the value of `msr` modulo 16. -/
theorem msrDelta_ne_zero_iff (m : Byte) : (msrDelta m != 0#4) = true ↔ m.toNat % 16 ≠ 0 := by revert m; decide

theorem State.msActive_iff {s : State} : s.msActive = true ↔ s.ier.getLsbD 3 = true ∧ s.msr.toNat % 16 ≠ 0 := by
  simp only [State.msActive, State.msPending, Bool.and_eq_true, msrDelta_ne_zero_iff]

/-- R206: the output is the disjunction of the four sources. -/
theorem State.irq_iff {s : State} : s.irq = true ↔
    s.rlsActive = true ∨ s.rdaActive = true ∨ s.threActive = true ∨ s.msActive = true := by
  simp only [State.irq, Bool.or_eq_true, or_assoc]

/-- Settles O39: source by source. -/
theorem irqIsSomeEnabledPendingSource : Obligations.IrqIsSomeEnabledPendingSource := by
  intro s
  rw [State.irq_iff, State.rlsActive_iff, State.rdaActive_iff, State.threActive_iff, State.msActive_iff]

/-! ### The identification value: one case per source, in the order of R207 -/

/-- R205: what `iir()` shows, by the highest-priority active source. -/
theorem State.iirCode_cases (s : State) :
    (s.rlsActive = true ∧ s.iirCode = 0x06#8) ∨
    (s.rlsActive = false ∧ s.rdaActive = true ∧ s.rdaLevel = true ∧ s.iirCode = 0x04#8) ∨
    (s.rlsActive = false ∧ s.rdaActive = true ∧ s.rdaLevel = false ∧ s.iirCode = 0x0C#8) ∨
    (s.rlsActive = false ∧ s.rdaActive = false ∧ s.threActive = true ∧ s.iirCode = 0x02#8) ∨
    (s.rlsActive = false ∧ s.rdaActive = false ∧ s.threActive = false ∧ s.msActive = true ∧ s.iirCode = 0x00#8) ∨
    (s.rlsActive = false ∧ s.rdaActive = false ∧ s.threActive = false ∧ s.msActive = false ∧ s.iirCode = 0x01#8) := by
  unfold State.iirCode
  cases s.rlsActive <;> cases s.rdaActive <;> cases s.rdaLevel <;> cases s.threActive <;> cases s.msActive <;> simp

/-- The code is below 16, so it and the frame bits 7:4 do not overlap. -/
theorem State.iirCode_mem (s : State) : s.iirCode ∈ [0x06#8, 0x04#8, 0x0C#8, 0x02#8, 0x00#8, 0x01#8] := by
  rcases s.iirCode_cases with ⟨-, h⟩ | ⟨-, -, -, h⟩ | ⟨-, -, -, h⟩ | ⟨-, -, -, h⟩ | ⟨-, -, -, -, h⟩ |
    ⟨-, -, -, -, h⟩ <;> simp [h]

/-- R205: bits 3:0 are the code. -/
theorem State.iir_low (s : State) : s.iir &&& 0x0F#8 = s.iirCode := by
  have hlow : ∀ (en : Bool), ∀ c ∈ [0x06#8, 0x04#8, 0x0C#8, 0x02#8, 0x00#8, 0x01#8],
      ((if en then 0xC0#8 else 0x00#8) ||| c) &&& 0x0F#8 = c := by decide
  exact hlow s.fifoen s.iirCode s.iirCode_mem

/-- R205: bits 7:4 are the frame, and bit 0 is that of the code. -/
theorem State.iir_frame (s : State) :
    s.iir.getLsbD 0 = s.iirCode.getLsbD 0 ∧ s.iir.getLsbD 6 = s.fifoen ∧ s.iir.getLsbD 7 = s.fifoen ∧
    s.iir.getLsbD 4 = false ∧ s.iir.getLsbD 5 = false := by
  have hframe : ∀ (en : Bool), ∀ c ∈ [0x06#8, 0x04#8, 0x0C#8, 0x02#8, 0x00#8, 0x01#8],
      ((if en then 0xC0#8 else 0x00#8) ||| c).getLsbD 0 = c.getLsbD 0 ∧
      ((if en then 0xC0#8 else 0x00#8) ||| c).getLsbD 6 = en ∧ ((if en then 0xC0#8 else 0x00#8) ||| c).getLsbD 7 = en ∧
      ((if en then 0xC0#8 else 0x00#8) ||| c).getLsbD 4 = false ∧
      ((if en then 0xC0#8 else 0x00#8) ||| c).getLsbD 5 = false := by decide
  exact hframe s.fifoen s.iirCode s.iirCode_mem

/-- R205, R206: of the six codes only that of no active source is odd. -/
theorem State.iirCode_bit0 (s : State) : s.iirCode.getLsbD 0 = !s.irq := by
  rcases s.iirCode_cases with ⟨h, hc⟩ | ⟨-, h, -, hc⟩ | ⟨-, h, -, hc⟩ | ⟨-, -, h, hc⟩ | ⟨-, -, -, h, hc⟩ |
    ⟨h1, h2, h3, h4, hc⟩
  case inr.inr.inr.inr.inr => simp [hc, State.irq, h1, h2, h3, h4]
  all_goals simp [hc, State.irq, h]

/-- Settles O40: the frame, and the one odd code. -/
theorem iirFrameFollowsTheState : Obligations.IirFrameFollowsTheState := by
  intro s
  obtain ⟨h0, hframe⟩ := s.iir_frame
  exact ⟨h0.trans s.iirCode_bit0, hframe⟩

/-- Settles O41: each premise names one case of the code. -/
theorem iirShowsTheHighestPrioritySource : Obligations.IirShowsTheHighestPrioritySource := by
  intro s
  rw [State.iir_low]
  refine ⟨fun h1 => ?_, fun h1 h2 hl => ?_, fun h1 h2 hl => ?_, fun h1 h2 h3 => ?_, fun h1 h2 h3 h4 => ?_, fun h => ?_⟩
  · simp [State.iirCode, h1]
  · simp [State.iirCode, h1, h2, State.rdaLevel, hl]
  · simp [State.iirCode, h1, h2, State.rdaLevel, hl]
  · simp [State.iirCode, h1, h2, h3]
  · simp [State.iirCode, h1, h2, h3, h4]
  · simp only [State.irq, Bool.or_eq_false_iff] at h
    obtain ⟨⟨⟨h1, h2⟩, h3⟩, h4⟩ := h
    simp [State.iirCode, h1, h2, h3, h4]

/-- R46, R87: outside FIFO mode waiting bytes reach the trigger level of 1, so the timeout code does not appear. -/
theorem State.iirCode_ne_timeout {s : State} (h : s.Inv) (hf : s.fifoen = false) : s.iirCode ≠ 0x0C#8 := by
  obtain ⟨-, -, -, -, ⟨-, hpend, -⟩, -⟩ := h
  have htrig : s.trigEff = 1 := by simp [State.trigEff, hf]
  rcases s.iirCode_cases with ⟨-, hc⟩ | ⟨-, -, -, hc⟩ | ⟨-, hactive, hlevel, -⟩ | ⟨-, -, -, hc⟩ | ⟨-, -, -, -, hc⟩ |
    ⟨-, -, -, -, hc⟩
  case inr.inr.inl =>
    have hlt : ¬s.trigEff ≤ s.rxf.count := fun hle => by simp [State.rdaLevel_iff.mpr hle] at hlevel
    obtain ⟨-, hle | hp⟩ := State.rdaActive_iff.mp hactive
    · exact absurd hle hlt
    · have := hpend hp
      omega
  all_goals rw [hc]; decide

/-- Settles O42: a frame of either mode over the codes that can stand in it. -/
theorem iirIsATableValue : Obligations.IirIsATableValue := by
  intro s hinv
  have hmem := s.iirCode_mem
  constructor
  · intro hf
    have hne := State.iirCode_ne_timeout hinv hf
    have hiir : s.iir = s.iirCode := by simp [State.iir, hf]
    rw [hiir]
    generalize s.iirCode = c at hmem hne
    revert c; decide
  · intro hf
    have hiir : s.iir = 0xC0#8 ||| s.iirCode := by simp [State.iir, hf]
    rw [hiir]
    generalize s.iirCode = c at hmem
    revert c; decide

end Sys2Proof.Machine
end

section
/-! PROOF. Rules over every event (spec/10_state.md R21 to R44, spec/60_exceptions.md R200): who writes what, and what
raises and clears each flag. -/

namespace Sys2Proof.Machine

/-! ### Which events promote and receive -/

theorem State.promotes_wrThr {s : State} {v : Byte} : s.promotes (.wrThr v) ↔ s.tsrFull = false := by
  simp [State.promotes]

theorem State.promotes_tick {s : State} : s.promotes .tick ↔ s.fireTx = true ∧ 0 < s.txf.count := by
  simp [State.promotes, State.fireTx_eq_true, and_assoc]

theorem State.receives_rxb {s : State} (d : Byte) (pe fe bi : Bool) : s.receives (.rxb d pe fe bi) :=
  .inl ⟨d, pe, fe, bi, rfl⟩

theorem State.receives_wrThr {s : State} {v : Byte} :
    s.receives (.wrThr v) ↔ s.loop = true ∧ s.tsrFull = false := by
  simp [State.receives, State.promotes_wrThr]

theorem State.receives_tick {s : State} :
    s.receives .tick ↔ s.loop = true ∧ s.fireTx = true ∧ 0 < s.txf.count := by
  simp [State.receives, State.promotes_tick]

/-- Every event but `WR_THR` and `TICK` promotes nothing. -/
theorem State.not_promotes {s : State} {i : Instr} (h : ∀ v, i ≠ .wrThr v) (ht : i ≠ .tick) : ¬s.promotes i := by
  rintro (⟨⟨v, rfl⟩, -⟩ | ⟨rfl, -⟩)
  · exact h v rfl
  · exact ht rfl

/-! ### Line status: the error bits -/

/-- R146, R164: a delivered byte overruns exactly in loopback with the receive FIFO full. -/
theorem State.deliver_lsrOe_eq (s : State) (b : Byte) : (s.deliver b).lsrOe = (s.lsrOe || (s.loop && s.rxFull)) := by
  rcases hl : s.loop
  · rw [State.deliver_send b hl]; simp
  · rw [State.deliver_loop b hl, State.rxAccept_frame]; simp

/-- R163, R164, R146: only an idle transmitter takes the byte, and in loopback that byte may overrun. -/
theorem State.afterThr_lsrOe (s : State) (v : Byte) :
    (s.afterThr v).lsrOe = s.lsrOe ∨
    (s.tsrFull = false ∧ (s.afterThr v).lsrOe = (s.lsrOe || (s.loop && s.rxFull))) := by
  rcases hf : s.tsrFull
  · rw [State.afterThr_idle v hf]
    rcases Nat.eq_zero_or_pos (s.thrQueued v).txf.count with h0 | hne
    · rw [State.txStart_empty h0]; exact .inl rfl
    · rw [State.txStart_more hne]
      exact .inr ⟨rfl, (s.thrQueued v).promote.deliver_lsrOe_eq _⟩
  · rw [State.afterThr_busy v hf]; exact .inl rfl

theorem State.afterThr_lsrOe_promoting {s : State} (v : Byte) (hc : 1 ≤ s.cfg.fifoDepth) (h : s.tsrFull = false) :
    (s.afterThr v).lsrOe = (s.lsrOe || (s.loop && s.rxFull)) := by
  rw [State.afterThr_promoting v hc h]
  exact (s.thrQueued v).promote.deliver_lsrOe_eq _

theorem State.tickRx_lsrOe (s : State) (fire : Bool) : (s.tickRx fire).lsrOe = s.lsrOe := by rw [State.tickRx_frame]

theorem State.afterTick_lsrOe_promoting {s : State} (h : s.fireTx = true) (hne : 0 < s.txf.count) :
    s.afterTick.lsrOe = (s.lsrOe || (s.loop && s.rxFull)) := by
  rw [State.afterTick_restarted h hne, State.tickRx_lsrOe]
  exact s.promotedNext.deliver_lsrOe_eq _

theorem State.afterTick_lsrOe (s : State) :
    s.afterTick.lsrOe = s.lsrOe ∨
    (s.fireTx = true ∧ 0 < s.txf.count ∧ s.afterTick.lsrOe = (s.lsrOe || (s.loop && s.rxFull))) := by
  rcases s.afterTick_cases with ⟨-, ht⟩ | ⟨-, -, ht⟩ | ⟨hfire, hne, -⟩
  · rw [ht, State.tickRx_lsrOe]; exact .inl rfl
  · rw [ht, State.tickRx_lsrOe]; exact .inl rfl
  · exact .inr ⟨hfire, hne, State.afterTick_lsrOe_promoting hfire hne⟩

/-- R200, R146: but for the two clears the overrun bit is kept, or an arrival adds to it whether the FIFO is full. -/
theorem lsrOe_of_exec {i : Instr} {s t : State} (hx : exec i s = .next t) (hlsr : i ≠ .rdLsr) (hrst : i ≠ .rst) :
    t.lsrOe = s.lsrOe ∨ (s.receives i ∧ t.lsrOe = (s.lsrOe || s.rxFull)) := by
  cases i with
  | rdLsr => exact absurd rfl hlsr
  | rst => exact absurd rfl hrst
  | wrThr v =>
    rw [exec_wrThr] at hx
    cases hx
    rcases s.afterThr_lsrOe v with h | ⟨hf, h⟩
    · exact .inl h
    · cases hl : s.loop
      · exact .inl (h.trans (by simp [hl]))
      · exact .inr ⟨State.receives_wrThr.mpr ⟨hl, hf⟩, h.trans (by simp [hl])⟩
  | tick =>
    rw [exec_tick] at hx
    cases hx
    rcases s.afterTick_lsrOe with h | ⟨hfire, hne, h⟩
    · exact .inl h
    · cases hl : s.loop
      · exact .inl (h.trans (by simp [hl]))
      · exact .inr ⟨State.receives_tick.mpr ⟨hl, hfire, hne⟩, h.trans (by simp [hl])⟩
  | rxb d pe fe bi => cases hx; exact .inr ⟨State.receives_rxb d pe fe bi, rfl⟩
  | wrMcr v => rw [exec_wrMcr] at hx; cases hx; rw [State.afterMcr_frame]; exact .inl rfl
  | msl cts dsr ri dcd => rw [exec_msl] at hx; cases hx; rw [State.afterMsl_frame]; exact .inl rfl
  | _ => cases hx; exact .inl rfl

/-- R146: with legal parameters every arrival finds a byte to bring, and leaves the overrun bit set if it finds the FIFO
full. -/
theorem lsrOe_of_receives {i : Instr} {s t : State} (hx : exec i s = .next t) (hv : s.cfg.Valid) (hr : s.receives i)
    (hfull : s.ceff ≤ s.rxf.count) : t.lsrOe = true := by
  have hfull' : s.rxFull = true := State.rxFull_eq_true.mpr hfull
  obtain ⟨d, pe, fe, bi, rfl⟩ | ⟨hl, ⟨⟨v, rfl⟩, hf⟩ | ⟨rfl, ha, hc, hne⟩⟩ := hr
  · cases hx
    exact (State.rxAccept_overrun d pe fe bi hfull).2
  · rw [exec_wrThr] at hx
    cases hx
    rw [State.afterThr_lsrOe_promoting v hv.depth_pos hf, hl, hfull']; simp
  · rw [exec_tick] at hx
    cases hx
    rw [State.afterTick_lsrOe_promoting (State.fireTx_eq_true.mpr ⟨ha, hc⟩) hne, hl, hfull']; simp

/-- R200: the other three error bits are written by `RXB` with the flag, and the break bit by `WR_LCR`; `RD_LSR` and
`RST` clear them. -/
theorem errorFlags_of_exec {i : Instr} {s t : State} (hx : exec i s = .next t) (hlsr : i ≠ .rdLsr) (hrst : i ≠ .rst) :
    (t.lsrPe = true ↔ s.lsrPe = true ∨ ∃ d fe bi, i = .rxb d true fe bi) ∧
    (t.lsrFe = true ↔ s.lsrFe = true ∨ ∃ d pe bi, i = .rxb d pe true bi) ∧
    (t.lsrBi = true ↔ s.lsrBi = true ∨ (∃ d pe fe, i = .rxb d pe fe true) ∨
      ∃ v : Byte, i = .wrLcr v ∧ v.getLsbD 6 = true ∧ s.lastBreakEnable = false) := by
  cases i with
  | rdLsr => exact absurd rfl hlsr
  | rst => exact absurd rfl hrst
  | wrThr v => rw [exec_wrThr] at hx; cases hx; simp
  | tick => rw [exec_tick] at hx; cases hx; simp
  | wrMcr v => rw [exec_wrMcr] at hx; cases hx; rw [State.afterMcr_frame]; simp
  | msl cts dsr ri dcd => rw [exec_msl] at hx; cases hx; rw [State.afterMsl_frame]; simp
  | rxb d pe fe bi => cases hx; rw [State.rxAccept_frame]; simp
  | _ => cases hx; simp

/-- Settles O43: `RD_LSR` and `RST` write the four bits, every other event only adds to them. -/
theorem errorBitsAreSticky : Obligations.ErrorBitsAreSticky := by
  intro i s t hx
  refine ⟨?_, fun hlsr hrst => ⟨fun h => ?_, ?_⟩⟩
  · rintro (rfl | rfl)
    · cases hx; exact ⟨rfl, rfl, rfl, rfl⟩
    · cases hx; exact ⟨rfl, rfl, rfl, rfl⟩
  · rcases lsrOe_of_exec hx hlsr hrst with he | ⟨-, he⟩
    · rw [he, h]
    · rw [he, h]; rfl
  · obtain ⟨hpe, hfe, hbi⟩ := errorFlags_of_exec hx hlsr hrst
    exact ⟨fun h => hpe.mpr (.inl h), fun h => hfe.mpr (.inl h), fun h => hbi.mpr (.inl h)⟩

/-- Settles O44: what adds to an error bit is what raises it; the two clearing events raise none. -/
theorem errorBitsAreRaisedByTheirCauseOnly : Obligations.ErrorBitsAreRaisedByTheirCauseOnly := by
  intro i s t hx
  by_cases hclear : i = .rdLsr ∨ i = .rst
  · obtain ⟨hoe, hpe, hfe, hbi⟩ := (errorBitsAreSticky i s t hx).1 hclear
    rw [hoe, hpe, hfe, hbi]
    rcases hclear with rfl | rfl <;> simp [State.receives, State.promotes]
  · obtain ⟨hlsr, hrst⟩ := not_or.mp hclear
    obtain ⟨hpe, hfe, hbi⟩ := errorFlags_of_exec hx hlsr hrst
    refine ⟨fun h h' => ?_, lsrOe_of_receives hx, fun h => ?_, fun h => ?_, fun h => ?_⟩
    · rcases lsrOe_of_exec hx hlsr hrst with he | ⟨hr, he⟩
      · rw [he, h] at h'; cases h'
      · rw [he, h, Bool.false_or] at h'
        exact ⟨hr, State.rxFull_eq_true.mp h'⟩
    · rw [hpe, h]; simp
    · rw [hfe, h]; simp
    · rw [hbi, h]; simp

/-! ### Line status: the transmitter, and the pending flags -/

/-- R167: the transmit status bits and the pending flag after a `TICK`: raised together if it drains, else kept. -/
theorem State.afterTick_status (s : State) :
    (s.txArmed = true ∧ s.txCnt = 1 ∧ s.txf.count = 0 ∧
      s.afterTick.lsrThre = true ∧ s.afterTick.lsrTemt = true ∧ s.afterTick.thrIpending = true) ∨
    (¬(s.txArmed = true ∧ s.txCnt = 1 ∧ s.txf.count = 0) ∧
      s.afterTick.lsrThre = s.lsrThre ∧ s.afterTick.lsrTemt = s.lsrTemt ∧ s.afterTick.thrIpending = s.thrIpending) := by
  rcases s.afterTick_cases with ⟨hfire, ht⟩ | ⟨hfire, h0, ht⟩ | ⟨-, hne, ht⟩
  · rw [ht, State.tickRx_frame]
    exact .inr ⟨fun ⟨ha, hc, _⟩ => State.fireTx_eq_false.mp hfire ⟨ha, hc⟩, rfl, rfl, rfl⟩
  · obtain ⟨ha, hc⟩ := State.fireTx_eq_true.mp hfire
    rw [ht, State.tickRx_frame]
    exact .inl ⟨ha, hc, h0, rfl, rfl, rfl⟩
  · rw [ht, State.tickRx_frame, State.restarted, State.deliver_frame]
    exact .inr ⟨fun ⟨_, _, h0⟩ => by omega, rfl, rfl, rfl⟩

/-- Settles O45: `WR_THR` clears the two bits, `RST` sets them, a `TICK` raises them as it drains, and the others keep
them. -/
theorem transmitStatusFollowsTheDrain : Obligations.TransmitStatusFollowsTheDrain := by
  intro i s t hx
  cases i with
  | wrThr v => rw [exec_wrThr] at hx; cases hx; simp
  | tick =>
    rw [exec_tick] at hx
    cases hx
    rcases s.afterTick_status with ⟨ha, hc, h0, hthre, htemt, -⟩ | ⟨hnot, hthre, htemt, -⟩
    · simp [ha, hc, h0, hthre, htemt]
    · rw [hthre, htemt]
      exact ⟨by simp +contextual, by simp +contextual, fun _ ha hc h0 => absurd ⟨ha, hc, h0⟩ hnot⟩
  | rst => cases hx; simp
  | wrMcr v => rw [exec_wrMcr] at hx; cases hx; rw [State.afterMcr_frame]; simp +contextual
  | msl cts dsr ri dcd => rw [exec_msl] at hx; cases hx; rw [State.afterMsl_frame]; simp +contextual
  | rxb d pe fe bi => cases hx; rw [State.rxAccept_frame]; simp +contextual
  | _ => cases hx; simp +contextual

/-- Settles O46: `RD_IIR`, `WR_THR` and `RST` clear the flag, a `TICK` raises it as it drains, and the others keep
it. -/
theorem transmitPendingRaisedAndCleared : Obligations.TransmitPendingRaisedAndCleared := by
  intro i s t hx
  cases i with
  | wrThr v => rw [exec_wrThr] at hx; cases hx; simp
  | tick =>
    rw [exec_tick] at hx
    cases hx
    rcases s.afterTick_status with ⟨ha, hc, h0, -, -, hpend⟩ | ⟨-, -, -, hpend⟩
    · simp [ha, hc, h0, hpend]
    · rw [hpend]; simp +contextual
  | rst => cases hx; simp
  | rdIir => cases hx; simp
  | wrMcr v => rw [exec_wrMcr] at hx; cases hx; rw [State.afterMcr_frame]; simp +contextual
  | msl cts dsr ri dcd => rw [exec_msl] at hx; cases hx; rw [State.afterMsl_frame]; simp +contextual
  | rxb d pe fe bi => cases hx; rw [State.rxAccept_frame]; simp +contextual
  | _ => cases hx; simp +contextual

/-- R164, R167: the transmit half of a `TICK` does not touch the timeout flag. -/
theorem State.tickTx_timeoutIpending (s : State) (fire : Bool) :
    (s.tickTx fire).timeoutIpending = s.timeoutIpending := by
  cases fire
  · rfl
  · rw [State.tickTx_true, State.txExpire_frame]; rfl

/-- R168: after a `TICK` the flag is as it was, or its timer was due and it is set. -/
theorem State.afterTick_timeoutIpending (s : State) :
    s.afterTick.timeoutIpending = s.timeoutIpending ∨
    (s.rxArmed = true ∧ s.rxCnt = 1 ∧ s.afterTick.timeoutIpending = true) := by
  by_cases hdue : s.rxArmed = true ∧ s.rxCnt = 1
  · rcases (s.countDown.tickTx s.fireTx).tickRx_cases s.fireRx with h | h
    · rw [State.afterTick, h]; exact .inl (s.countDown.tickTx_timeoutIpending _)
    · rw [State.afterTick, h]; exact .inr ⟨hdue.1, hdue.2, rfl⟩
  · rw [State.afterTick, State.tickRx_not_due _ hdue]; exact .inl (s.countDown.tickTx_timeoutIpending _)

/-- Settles O47: `RD_RBR`, a receive reset and `RST` clear the flag, a `TICK` raises it when its timer is due, and the
others keep it. -/
theorem timeoutPendingRaisedAndCleared : Obligations.TimeoutPendingRaisedAndCleared := by
  intro i s t hx
  cases i with
  | wrThr v => rw [exec_wrThr] at hx; cases hx; simp +contextual
  | tick =>
    rw [exec_tick] at hx
    cases hx
    rcases s.afterTick_timeoutIpending with h | ⟨ha, hc, h⟩
    · rw [h]; simp +contextual
    · simp [ha, hc, h]
  | rst => cases hx; simp
  | rdRbr => cases hx; simp
  | wrFcr v => cases hx; simp +contextual [fcrRxReset]
  | wrMcr v => rw [exec_wrMcr] at hx; cases hx; rw [State.afterMcr_frame]; simp +contextual
  | msl cts dsr ri dcd => rw [exec_msl] at hx; cases hx; rw [State.afterMsl_frame]; simp +contextual
  | rxb d pe fe bi => cases hx; rw [State.rxAccept_frame]; simp +contextual
  | _ => cases hx; simp +contextual

/-! ### Registers and modem status -/

/-- Settles O48: each event's updates name the registers it writes. -/
theorem registersHaveTheirWritersOnly : Obligations.RegistersHaveTheirWritersOnly := by
  intro i s t hx hrst
  cases i with
  | wrThr v => rw [exec_wrThr] at hx; cases hx; simp
  | tick => rw [exec_tick] at hx; cases hx; simp
  | rst => exact absurd rfl hrst
  | wrMcr v => rw [exec_wrMcr] at hx; cases hx; rw [State.afterMcr_frame]; simp
  | msl cts dsr ri dcd => rw [exec_msl] at hx; cases hx; rw [State.afterMsl_frame]; simp
  | rxb d pe fe bi => cases hx; rw [State.rxAccept_frame]; simp
  | _ => cases hx; simp

/-- R180: a line that `msr_update` changes has its delta bit set, and no delta bit falls. -/
theorem State.msrUpdate_sticky (s : State) (n : BitVec 4) {k : Nat} (hk : k < 4) :
    (s.msr.getLsbD k = true → (s.msrUpdate n).msr.getLsbD k = true) ∧
    ((s.msrUpdate n).msr.getLsbD (k + 4) ≠ s.msr.getLsbD (k + 4) → (s.msrUpdate n).msr.getLsbD k = true) := by
  rw [State.msrUpdate_lines, State.msrUpdate_delta s n k hk]
  constructor
  · intro h
    rw [h, Bool.true_or]
  · intro h
    simp [h]

/-- R126: the deltas fall, the lines stay. -/
theorem State.clearDeltas_line (s : State) {k : Nat} (hk : k < 4) :
    s.clearDeltas.msr.getLsbD (k + 4) = s.msr.getLsbD (k + 4) := by
  rw [State.clearDeltas_eq]
  interval_cases k <;> simp

/-- Settles O53: only `RD_MSR`, `WR_MCR` and `MSL` write `msr`; the last two by `msr_update`. -/
theorem modemDeltaBitsAreSticky : Obligations.ModemDeltaBitsAreSticky := by
  intro i s t hx hrst k hk
  have hkept : t.msr = s.msr → (i ≠ .rdMsr → s.msr.getLsbD k = true → t.msr.getLsbD k = true) ∧
      (t.msr.getLsbD (k + 4) ≠ s.msr.getLsbD (k + 4) → t.msr.getLsbD k = true) := fun h =>
    ⟨fun _ hd => h ▸ hd, fun hne => absurd (by rw [h]) hne⟩
  cases i with
  | rdMsr => cases hx; exact ⟨fun h => absurd rfl h, fun h => absurd (s.clearDeltas_line hk) h⟩
  | wrMcr v =>
    rw [exec_wrMcr] at hx
    cases hx
    cases hv : v.getLsbD 4
    · rw [State.afterMcr_plain s hv] at hkept ⊢; exact hkept rfl
    · rw [State.afterMcr_loop s hv]
      obtain ⟨hsticky, hline⟩ := (s.setMcr (mcrOf v)).msrUpdate_sticky (s.setMcr (mcrOf v)).loopLines hk
      exact ⟨fun _ => hsticky, hline⟩
  | msl cts dsr ri dcd =>
    rw [exec_msl] at hx
    cases hx
    cases hl : s.loop
    · rw [State.afterMsl_lines cts dsr ri dcd hl]
      obtain ⟨hsticky, hline⟩ := s.msrUpdate_sticky (modemLines cts dsr ri dcd) hk
      exact ⟨fun _ => hsticky, hline⟩
    · rw [State.afterMsl_loop cts dsr ri dcd hl] at hkept ⊢; exact hkept rfl
  | rst => exact absurd rfl hrst
  | wrThr v => rw [exec_wrThr] at hx; cases hx; exact hkept (by simp)
  | tick => rw [exec_tick] at hx; cases hx; exact hkept (by simp)
  | _ => cases hx; exact hkept rfl

end Sys2Proof.Machine
end

section
/-! PROOF. What an event sends, and what it does to the two timers (spec/42_timing_and_transmit.md R163 to R169,
spec/41_fifo_and_receive.md R145). -/

namespace Sys2Proof.Machine

/-! ### The output sequence -/

/-- `t` has sent what `s` has, and shows no other pulse. -/
def State.SendsNothing (s t : State) : Prop := t.txOut = s.txOut ∧ t.sent = s.sent

/-- `t` has sent one byte more than `s`, and shows it. -/
def State.SendsOne (s t : State) : Prop := ∃ b : Byte, t.txOut = some b ∧ t.sent = s.sent ++ [b]

/-- R163, R164: `WR_THR` sends only a byte it promotes, and none in loopback. -/
theorem State.afterThr_output (s : State) (v : Byte) :
    s.SendsNothing (s.afterThr v) ∨ (s.tsrFull = false ∧ s.loop = false ∧ s.SendsOne (s.afterThr v)) := by
  rcases hf : s.tsrFull
  · rw [State.afterThr_idle v hf]
    exact (s.thrQueued v).txStart_output.imp id fun ⟨hl, ho⟩ => ⟨rfl, hl, ho⟩
  · rw [State.afterThr_busy v hf]; exact .inl ⟨rfl, rfl⟩

/-- R163, R164: a `TICK` sends only a byte it promotes, and none in loopback. -/
theorem State.afterTick_output (s : State) :
    s.SendsNothing s.afterTick ∨
    (s.fireTx = true ∧ 0 < s.txf.count ∧ s.loop = false ∧ s.SendsOne s.afterTick) := by
  rcases s.afterTick_cases with ⟨-, ht⟩ | ⟨-, -, ht⟩ | ⟨hfire, hne, ht⟩
  · rw [ht, State.tickRx_frame]; exact .inl ⟨rfl, rfl⟩
  · rw [ht, State.tickRx_frame]; exact .inl ⟨rfl, rfl⟩
  · rw [State.SendsNothing, State.SendsOne, ht, State.tickRx_txOut, State.tickRx_sent]
    exact (s.promotedNext.deliver_output s.txf.front).imp id
      fun ⟨hl, ho⟩ => ⟨hfire, hne, hl, _, ho⟩

/-- R51, R164: an event sends nothing, or it promotes a byte outside loopback and sends that one. -/
theorem output_of_exec {i : Instr} {s t : State} (hx : exec i s = .next t) :
    s.SendsNothing t ∨ (s.promotes i ∧ s.loop = false ∧ s.SendsOne t) := by
  cases i with
  | wrThr v =>
    rw [exec_wrThr] at hx
    cases hx
    exact (s.afterThr_output v).imp id fun ⟨hf, hl, ho⟩ => ⟨State.promotes_wrThr.mpr hf, hl, ho⟩
  | tick =>
    rw [exec_tick] at hx
    cases hx
    exact s.afterTick_output.imp id fun ⟨hfire, hne, hl, ho⟩ => ⟨State.promotes_tick.mpr ⟨hfire, hne⟩, hl, ho⟩
  | wrMcr v => rw [exec_wrMcr] at hx; cases hx; rw [State.afterMcr_frame]; exact .inl ⟨rfl, rfl⟩
  | msl cts dsr ri dcd => rw [exec_msl] at hx; cases hx; rw [State.afterMsl_frame]; exact .inl ⟨rfl, rfl⟩
  | _ => cases hx; exact .inl ⟨rfl, rfl⟩

/-- Settles O50: the event starts with the pulse clear. -/
theorem stepSendsAtMostOneByte : Obligations.StepSendsAtMostOneByte := by
  intro s t hstep
  obtain ⟨w, ws, i, -, -, hx⟩ := step_eq_next hstep
  rcases output_of_exec hx with ⟨hout, hsent⟩ | ⟨-, hl, b, hout, hsent⟩
  · exact ⟨.inl ⟨hout, hsent⟩, fun _ => hout⟩
  · have hl' : s.mcr.getLsbD 4 = false := hl
    exact ⟨.inr ⟨b, hout, hsent⟩, fun h => absurd (hl'.symm.trans h) Bool.false_ne_true⟩

/-! ### The transmit timer -/

/-- R163: with legal parameters an event that promotes leaves the shift stage full and its timer loaded. -/
theorem txTimer_of_promotes {i : Instr} {s t : State} (hx : exec i s = .next t) (hv : s.cfg.Valid)
    (hp : s.promotes i) : t.txArmed = true ∧ t.txCnt = s.charTicks ∧ t.tsrFull = true := by
  obtain ⟨⟨v, rfl⟩, hf⟩ | ⟨rfl, ha, hc, hne⟩ := hp
  · rw [exec_wrThr] at hx
    cases hx
    rw [State.afterThr_promoting v hv.depth_pos hf, State.deliver_frame]
    exact ⟨rfl, rfl, rfl⟩
  · rw [exec_tick] at hx
    cases hx
    rw [State.afterTick_restarted (State.fireTx_eq_true.mpr ⟨ha, hc⟩) hne, State.tickRx_frame, State.restarted,
      State.deliver_frame]
    exact ⟨rfl, rfl, rfl⟩

/-- R166, R167: an event that does not promote counts the transmit timer at most, and disarms it at its expiry. -/
theorem txTimer_of_not_promotes {i : Instr} {s t : State} (hx : exec i s = .next t) (hrst : i ≠ .rst)
    (hp : ¬s.promotes i) :
    t.txCnt = countAfter i s.txArmed s.txCnt ∧ (t.txArmed = true ↔ s.txArmed = true ∧ ¬(i = .tick ∧ s.txCnt = 1)) := by
  cases i with
  | wrThr v =>
    rw [exec_wrThr] at hx
    cases hx
    have hbusy : s.tsrFull = true := by simpa [State.promotes_wrThr] using hp
    rw [State.afterThr_busy v hbusy, State.thrQueued_frame]
    simp [countAfter]
  | tick =>
    rw [exec_tick] at hx
    cases hx
    rcases s.afterTick_cases with ⟨hfire, ht⟩ | ⟨hfire, -, ht⟩ | ⟨hfire, hne, -⟩
    · rw [ht, State.tickRx_frame]
      have hnot := State.fireTx_eq_false.mp hfire
      refine ⟨by simp [countAfter], ?_⟩
      simp only [State.countDown_txArmed, true_and]
      tauto
    · obtain ⟨ha, hc⟩ := State.fireTx_eq_true.mp hfire
      rw [ht, State.tickRx_frame, State.drained_eq hfire]
      simp [countAfter, ha, hc]
    · exact absurd (State.promotes_tick.mpr ⟨hfire, hne⟩) hp
  | rst => exact absurd rfl hrst
  | wrMcr v => rw [exec_wrMcr] at hx; cases hx; rw [State.afterMcr_frame]; simp [countAfter]
  | msl cts dsr ri dcd => rw [exec_msl] at hx; cases hx; rw [State.afterMsl_frame]; simp [countAfter]
  | rxb d pe fe bi => cases hx; rw [State.rxAccept_frame]; simp [countAfter]
  | _ => cases hx; simp [countAfter]

/-! ### The timeout timer -/

/-- R163, R164: outside loopback `tx_start` leaves the timeout timer alone. -/
theorem State.txStart_rxTimer {s : State} (hl : s.loop = false) :
    s.txStart.rxArmed = s.rxArmed ∧ s.txStart.rxCnt = s.rxCnt := by
  rcases Nat.eq_zero_or_pos s.txf.count with h0 | hne
  · rw [State.txStart_empty h0]; exact ⟨rfl, rfl⟩
  · rw [State.txStart_more hne, State.deliver_send (s := s.promote) _ hl]; exact ⟨rfl, rfl⟩

/-- R145: with legal parameters an arrival, `RD_RBR` and `WR_FCR` put the timer in line with the FIFO they leave. -/
theorem rxTimer_of_restartsTimeout {i : Instr} {s t : State} (hx : exec i s = .next t) (hv : s.cfg.Valid)
    (hr : s.restartsTimeout i) : t.TimerInLine (countAfter i s.rxArmed s.rxCnt) ∧ t.charTicks = s.charTicks := by
  obtain (⟨d, pe, fe, bi, rfl⟩ | ⟨hl, ⟨⟨v, rfl⟩, hf⟩ | ⟨rfl, ha, hc, hne⟩⟩) | rfl | ⟨v, rfl⟩ := hr
  · cases hx
    exact ⟨State.rxAccept_timerInLine s d pe fe bi, rfl⟩
  · rw [exec_wrThr] at hx
    cases hx
    rw [State.afterThr_promoting v hv.depth_pos hf,
      State.deliver_loop (s := (s.thrQueued v).promote) (s.txfWith v).front hl]
    exact ⟨State.rxAccept_timerInLine (s.thrQueued v).promote _ false false false, rfl⟩
  · rw [exec_tick] at hx
    cases hx
    obtain ⟨hafter, hline⟩ := State.afterTick_loopedBack hv hl (State.fireTx_eq_true.mpr ⟨ha, hc⟩) hne
    have hcnt : countAfter .tick s.rxArmed s.rxCnt = s.countDown.rxCnt := by simp [countAfter]
    exact ⟨hcnt ▸ hline, by rw [hafter, s.restarted_frame]; rfl⟩
  · cases hx
    exact ⟨State.rxtoRestart_timerInLine s.takeRbr.clearTimeout, rfl⟩
  · cases hx
    exact ⟨State.rxtoRestart_timerInLine (s.setFcr v), rfl⟩

/-- R166, R168: an event that does not restart the timeout timer counts it at most, and disarms it at its expiry. -/
theorem rxTimer_of_not_restartsTimeout {i : Instr} {s t : State} (hx : exec i s = .next t) (hrst : i ≠ .rst)
    (hr : ¬s.restartsTimeout i) :
    t.rxCnt = countAfter i s.rxArmed s.rxCnt ∧ (t.rxArmed = true ↔ s.rxArmed = true ∧ ¬(i = .tick ∧ s.rxCnt = 1)) := by
  obtain ⟨hrec, hrbr, hfcr⟩ : ¬s.receives i ∧ i ≠ .rdRbr ∧ ¬∃ v, i = .wrFcr v := by
    simpa [State.restartsTimeout, not_or] using hr
  cases i with
  | wrThr v =>
    rw [exec_wrThr] at hx
    cases hx
    rcases hf : s.tsrFull
    · have hl : s.loop = false := by simpa [State.receives_wrThr, hf] using hrec
      obtain ⟨ha, hc⟩ := State.txStart_rxTimer (s := s.thrQueued v) hl
      rw [State.afterThr_idle v hf, ha, hc, State.thrQueued_frame]
      simp [countAfter]
    · rw [State.afterThr_busy v hf, State.thrQueued_frame]
      simp [countAfter]
  | tick =>
    rw [exec_tick] at hx
    cases hx
    have hquiet : s.loop = false ∨ ¬(s.txArmed = true ∧ s.txCnt = 1) ∨ s.txf.count = 0 := by
      rw [State.receives_tick, State.fireTx_eq_true] at hrec
      by_contra h
      simp only [not_or, Bool.not_eq_false, not_not] at h
      exact hrec ⟨h.1, h.2.1, Nat.pos_of_ne_zero h.2.2⟩
    obtain ⟨hdue, hnot⟩ := State.afterTick_timeout hquiet
    by_cases h : s.rxArmed = true ∧ s.rxCnt = 1
    · obtain ⟨ha, hc, -⟩ := hdue h
      rw [ha, hc]
      simp [countAfter, h.1, h.2]
    · obtain ⟨ha, hc, -⟩ := hnot h
      rw [ha, hc]
      refine ⟨by simp [countAfter], ?_⟩
      simp only [true_and]
      tauto
  | rst => exact absurd rfl hrst
  | rdRbr => exact absurd rfl hrbr
  | wrFcr v => exact absurd ⟨v, rfl⟩ hfcr
  | rxb d pe fe bi => exact absurd (State.receives_rxb d pe fe bi) hrec
  | wrMcr v => rw [exec_wrMcr] at hx; cases hx; rw [State.afterMcr_frame]; simp [countAfter]
  | msl cts dsr ri dcd => rw [exec_msl] at hx; cases hx; rw [State.afterMsl_frame]; simp [countAfter]
  | _ => cases hx; simp [countAfter]

/-- Settles O34: timer by timer, for the events that load it and for those that do not. -/
theorem runningTimersAreNeverRescaled : Obligations.RunningTimersAreNeverRescaled := by
  refine ⟨?_, fun i s t hrst hx => ⟨fun hv hp => ?_, txTimer_of_not_promotes hx hrst,
    rxTimer_of_restartsTimeout hx, rxTimer_of_not_restartsTimeout hx hrst⟩⟩
  · rintro v i s t (rfl | rfl | rfl) hx <;> cases hx <;> exact ⟨rfl, rfl, rfl, rfl⟩
  · obtain ⟨ha, hc, -⟩ := txTimer_of_promotes hx hv hp
    exact ⟨ha, hc⟩

end Sys2Proof.Machine
end

section
/-! PROOF. One clock cycle (spec/10_state.md R50, R51, spec/60_exceptions.md R212): in any admitted order its events
run, at most one of them sends, and the bus read returns what it would return alone. -/

namespace Sys2Proof.Machine

/-! ### The events of a cycle -/

/-- The event a source causes, as the decoder reads it in the bank in force. -/
def Pins.instr (p : Pins) (dlab : Bool) : Source → Instr
  | .tick => .tick
  | .rxb => .rxb p.rxData p.rxPe p.rxFe p.rxBi
  | .msl => .msl p.cts p.dsr p.ri p.dcd
  | .bus => selectBus dlab p.busWe p.busAddr p.busWdata

theorem Pins.decode_event {p : Pins} {x : Source} {w : Word} (h : p.event x = some w) (dlab : Bool) :
    decode dlab w = .ok (p.instr dlab x) := by
  cases x with
  | tick => cases h; exact decodeOfEncode dlab .tick rfl
  | rxb =>
    obtain ⟨-, rfl⟩ : p.rxValid = true ∧ encode (.rxb p.rxData p.rxPe p.rxFe p.rxBi) = w := by
      simpa [Pins.event] using h
    exact decode_encode_rxb dlab _ _ _ _
  | msl =>
    obtain ⟨-, rfl⟩ : p.mslValid = true ∧ encode (.msl p.cts p.dsr p.ri p.dcd) = w := by simpa [Pins.event] using h
    exact decode_encode_msl dlab _ _ _ _
  | bus =>
    obtain ⟨-, rfl⟩ : p.busSel = true ∧ busWord p.busWe p.busAddr p.busWdata = w := by simpa [Pins.event] using h
    exact decode_busWord dlab _ _ _

/-- R89: what decodes to an event spells one. -/
theorem eventWord_of_decode {dlab : Bool} {w : Word} {i : Instr} (h : decode dlab w = .ok i) : EventWord w :=
  (rejectedWordsAreTheNonEvents dlab w).1.mp ⟨i, h⟩

theorem Pins.eventWord_of_mem (p : Pins) (order : List Source) : ∀ w ∈ order.filterMap p.event, EventWord w := by
  intro w hw
  obtain ⟨x, -, hx⟩ := List.mem_filterMap.mp hw
  exact eventWord_of_decode (Pins.decode_event hx false)

theorem selectBus_ne_tick (dlab we : Bool) (a : BitVec 3) (v : Byte) : selectBus dlab we a v ≠ .tick := by
  unfold selectBus; split <;> nofun

theorem selectBus_ne_rst (dlab we : Bool) (a : BitVec 3) (v : Byte) : selectBus dlab we a v ≠ .rst := by
  unfold selectBus; split <;> nofun

/-- R81, R83: a read ignores the byte on the write lines. -/
theorem selectBus_read_byte (dlab : Bool) (a : BitVec 3) (v : Byte) :
    selectBus dlab false a v = selectBus dlab false a 0#8 := by
  rcases offset_cases a with rfl | rfl | rfl | rfl | rfl | rfl | rfl | rfl <;> cases dlab <;> rfl

theorem Pins.instr_ne_rst (p : Pins) (dlab : Bool) (x : Source) : p.instr dlab x ≠ .rst := by
  cases x
  case bus => exact selectBus_ne_rst _ _ _ _
  all_goals nofun

theorem Pins.instr_eq_tick {p : Pins} {dlab : Bool} {x : Source} (h : p.instr dlab x = .tick) : x = .tick := by
  cases x
  case bus => exact absurd h (selectBus_ne_tick _ _ _ _)
  case tick => rfl
  all_goals cases h

theorem Pins.instr_isRead (p : Pins) (dlab : Bool) (x : Source) :
    (p.instr dlab x).isRead = true ↔ x = .bus ∧ p.busWe = false := by
  cases x
  case bus => simp [Pins.instr, selectBus_isRead]
  all_goals simp [Pins.instr, Instr.isRead]

/-- Of the sources only the bus and the clock can cause a promotion. -/
theorem Pins.promotes_instr {p : Pins} {dlab : Bool} {x : Source} {s : State} (h : s.promotes (p.instr dlab x)) :
    (x = .bus ∧ s.tsrFull = false) ∨ (x = .tick ∧ s.fireTx = true) := by
  obtain ⟨⟨v, hv⟩, hf⟩ | ⟨htick, ha, hc, -⟩ := h
  · cases x
    case bus => exact .inl ⟨rfl, hf⟩
    all_goals cases hv
  · exact .inr ⟨Pins.instr_eq_tick htick, State.fireTx_eq_true.mpr ⟨ha, hc⟩⟩

/-- R7, R212: an admitted order holds each source once. -/
theorem orderAdmitted_perm {o : EventOrder} {order : List Source} (hlegal : o.legal = true)
    (h : orderAdmitted o order = true) : order.Perm Source.all := by
  cases o with
  | any => exact List.isPerm_iff.mp h
  | fixed l =>
    obtain rfl : order = l := by simpa [orderAdmitted] using h
    exact List.isPerm_iff.mp hlegal

theorem nodup_of_perm_all {order : List Source} (h : order.Perm Source.all) : order.Nodup :=
  h.nodup_iff.mpr (by decide)

theorem bus_mem_of_perm_all {order : List Source} (h : order.Perm Source.all) : Source.bus ∈ order :=
  h.mem_iff.mpr (by decide)

theorem Pins.events_of_not_rst {p : Pins} {order : List Source} (h : p.rst = false) :
    p.events order = order.filterMap p.event := by simp [Pins.events, h]

/-- The step that takes the word of a source. -/
theorem Pins.step_event {p : Pins} {x : Source} {w : Word} {ws : List Word} {s : State} (hx : p.event x = some w)
    (hs : s.stim = w :: ws) :
    ∃ u : State, step s = .next u ∧ exec (p.instr s.dlab x) s.fetched = .next u ∧ u.stim = ws := by
  have hdec := Pins.decode_event hx s.dlab
  obtain ⟨u, hstep, hu⟩ := exists_step_of_eventWord hs (eventWord_of_decode hdec)
  exact ⟨u, hstep, (step_of_decode hs hdec).symm.trans hstep, hu⟩

/-! ### At most one byte -/

/-- No source still to come can make the transmitter promote a byte: the shift stage is full for the bus, and the timer
not due for the clock. -/
def State.Quiet (s : State) (order : List Source) : Prop :=
  (Source.bus ∈ order → s.tsrFull = true) ∧ (Source.tick ∈ order → s.fireTx = false)

theorem State.Quiet.tail {s : State} {x : Source} {xs : List Source} (h : s.Quiet (x :: xs)) : s.Quiet xs :=
  ⟨fun hb => h.1 (List.mem_cons_of_mem _ hb), fun ht => h.2 (List.mem_cons_of_mem _ ht)⟩

theorem State.Quiet.not_promotes {s : State} {p : Pins} {dlab : Bool} {x : Source} {xs : List Source}
    (h : s.Quiet (x :: xs)) : ¬s.promotes (p.instr dlab x) := by
  intro hp
  rcases Pins.promotes_instr hp with ⟨rfl, hf⟩ | ⟨rfl, hfire⟩
  · simp [h.1 List.mem_cons_self] at hf
  · simp [h.2 List.mem_cons_self] at hfire

/-- A full shift stage is emptied only by a due expiry and by `RST`. -/
theorem tsrFull_of_exec {i : Instr} {s u : State} (hx : exec i s = .next u) (hrst : i ≠ .rst)
    (hdue : i = .tick → s.fireTx = false) (hf : s.tsrFull = true) : u.tsrFull = true := by
  cases i with
  | wrThr v => rw [exec_wrThr] at hx; cases hx; rw [State.afterThr_busy v hf]; exact hf
  | tick =>
    rw [exec_tick] at hx
    cases hx
    rw [State.afterTick_counting (hdue rfl), State.tickRx_frame]
    exact hf
  | rst => exact absurd rfl hrst
  | wrMcr v => rw [exec_wrMcr] at hx; cases hx; rw [State.afterMcr_frame]; exact hf
  | msl cts dsr ri dcd => rw [exec_msl] at hx; cases hx; rw [State.afterMsl_frame]; exact hf
  | _ => cases hx; exact hf

/-- An event that is no `TICK` and does not promote leaves the timer due or not, as it was. -/
theorem fireTx_of_exec {i : Instr} {s u : State} (hx : exec i s = .next u) (hrst : i ≠ .rst) (htick : i ≠ .tick)
    (hp : ¬s.promotes i) : u.fireTx = s.fireTx := by
  obtain ⟨hcnt, harmed⟩ := txTimer_of_not_promotes hx hrst hp
  have ha : u.txArmed = s.txArmed := by simpa [htick] using harmed
  rw [State.fireTx, State.fireTx, ha, hcnt]
  simp [countAfter, htick]

/-- In a quiet state the next source's event changes that for none of the others. -/
theorem State.Quiet.exec {s u : State} {p : Pins} {dlab : Bool} {x : Source} {xs : List Source}
    (h : s.Quiet (x :: xs)) (hnodup : (x :: xs).Nodup) (hx : exec (p.instr dlab x) s = .next u) : u.Quiet xs := by
  have hrst := p.instr_ne_rst dlab x
  constructor
  · intro hb
    refine tsrFull_of_exec hx hrst (fun htick => ?_) (h.1 (List.mem_cons_of_mem _ hb))
    obtain rfl := Pins.instr_eq_tick htick
    exact h.2 List.mem_cons_self
  · intro ht
    have hne : p.instr dlab x ≠ .tick := fun htick => by
      obtain rfl := Pins.instr_eq_tick htick
      exact (List.nodup_cons.mp hnodup).1 ht
    rw [fireTx_of_exec hx hrst hne h.not_promotes]
    exact h.2 (List.mem_cons_of_mem _ ht)

/-- After a promotion the state is quiet: the stage is full and a whole character time is to go. -/
theorem State.quiet_of_promotes {s u : State} {i : Instr} (hx : Machine.exec i s = .next u) (hv : s.cfg.Valid)
    (hp : s.promotes i) (order : List Source) : u.Quiet order := by
  obtain ⟨-, hcnt, hfull⟩ := txTimer_of_promotes hx hv hp
  refine ⟨fun _ => hfull, fun _ => State.fireTx_eq_false.mpr fun ⟨_, h1⟩ => ?_⟩
  have := State.charTicks_pos (s := s) hv.prescale_pos
  omega

/-- Over the sources of a cycle: a quiet state sends nothing, and any state of the invariant sends at most one byte. -/
theorem Pins.tx_of_runCycle {p : Pins} {order : List Source} {o o' : CycleOutputs} {s t : State}
    (hnodup : order.Nodup) (hinv : s.Inv) (hstim : s.stim = order.filterMap p.event)
    (hrun : runCycle o (order.filterMap p.event).length s = .next (o', t)) :
    (s.Quiet order → o'.tx = o.tx) ∧ o'.tx.length ≤ o.tx.length + 1 := by
  induction order generalizing o s with
  | nil => cases hrun; exact ⟨fun _ => rfl, Nat.le_succ _⟩
  | cons x xs ih =>
    have hnodup' := (List.nodup_cons.mp hnodup).2
    rcases hx : p.event x with _ | w
    · rw [List.filterMap_cons_none hx] at hstim hrun
      obtain ⟨hquiet, hlen⟩ := ih hnodup' hinv hstim hrun
      exact ⟨fun h => hquiet h.tail, hlen⟩
    · rw [List.filterMap_cons_some hx] at hstim hrun
      obtain ⟨u, hstep, hexec, hu⟩ := Pins.step_event hx hstim
      rw [List.length_cons, runCycle_succ o _ hstep] at hrun
      obtain ⟨hquiet, hlen⟩ := ih hnodup' (stepKeepsTheInvariant s u hinv hstep) hu hrun
      rw [CycleOutputs.afterEvent_tx] at hquiet hlen
      rcases output_of_exec hexec with ⟨hout, -⟩ | ⟨hp, -, b, hout, -⟩
      · have hout' : u.txOut = none := hout
        rw [hout', Option.toList_none, List.append_nil] at hquiet hlen
        exact ⟨fun h => hquiet (State.Quiet.exec (s := s.fetched) h hnodup hexec), hlen⟩
      · have hsent : o'.tx = o.tx ++ [b] := by
          rw [hquiet (State.quiet_of_promotes hexec hinv.1 hp xs), hout]; rfl
        exact ⟨fun h => absurd hp (State.Quiet.not_promotes (s := s.fetched) h), by simp [hsent]⟩

/-- R51: what a cycle shows as sent is what its events appended to the output sequence. -/
theorem sent_of_runCycle {n : Nat} {o o' : CycleOutputs} {s t : State} (hrun : runCycle o n s = .next (o', t)) :
    ∃ l, o'.tx = o.tx ++ l ∧ t.sent = s.sent ++ l := by
  induction n generalizing o s with
  | zero => cases hrun; exact ⟨[], by simp, by simp⟩
  | succ n ih =>
    obtain ⟨u, hstep, -⟩ := core_run_succ_eq_next (core_run_of_runCycle hrun)
    rw [runCycle_succ o n hstep] at hrun
    obtain ⟨l, htx, hsent⟩ := ih hrun
    have hone : u.sent = s.sent ++ u.txOut.toList := by
      rcases (stepSendsAtMostOneByte s u hstep).1 with ⟨hout, hsame⟩ | ⟨b, hout, happ⟩
      · rw [hout, hsame]; simp
      · rw [hout, happ]; rfl
    refine ⟨u.txOut.toList ++ l, ?_, ?_⟩
    · rw [htx, CycleOutputs.afterEvent_tx, List.append_assoc]
    · rw [hsent, hone, List.append_assoc]

/-! ### The read result -/

/-- Events of sources that make no bus read leave the read result as it was. -/
theorem Pins.rdata_of_runCycle {p : Pins} {order : List Source} {rest : List Word} {o o' : CycleOutputs} {s t : State}
    (hno : Source.bus ∈ order → p.busSel = false ∨ p.busWe = true)
    (hstim : s.stim = order.filterMap p.event ++ rest)
    (hrun : runCycle o (order.filterMap p.event).length s = .next (o', t)) : o'.rdata = o.rdata := by
  induction order generalizing o s with
  | nil => cases hrun; rfl
  | cons x xs ih =>
    have hno' := fun hb => hno (List.mem_cons_of_mem x hb)
    rcases hx : p.event x with _ | w
    · rw [List.filterMap_cons_none hx] at hstim hrun
      exact ih hno' hstim hrun
    · rw [List.filterMap_cons_some hx] at hstim hrun
      obtain ⟨u, hstep, hexec, hu⟩ := Pins.step_event hx hstim
      rw [List.length_cons, runCycle_succ o _ hstep] at hrun
      have hread : (p.instr s.dlab x).isRead = false := by
        rw [← Bool.not_eq_true, Pins.instr_isRead]
        rintro ⟨rfl, hwe⟩
        rcases hno List.mem_cons_self with hsel | hwe'
        · simp [Pins.event, hsel] at hx
        · simp [hwe] at hwe'
      have hnone : u.rdata = none := by
        rw [← Option.not_isSome_iff_eq_none, rdata_isSome_of_exec rfl hexec, hread]; simp
      rw [ih hno' hu hrun, CycleOutputs.afterEvent_rdata, hnone, Option.none_or]

/-- The run of a queue's first words is the same, up to what no event looks at, if more words stand behind them. -/
def State.AlikeBefore (ws : List Word) (s s' : State) : Prop := s.SameButHidden s' ∧ s'.stim = s.stim ++ ws

theorem State.AlikeBefore.step {ws : List Word} {s s' t : State} (h : s.AlikeBefore ws s') (hx : step s = .next t) :
    ∃ t' : State, Machine.step s' = .next t' ∧ t.AlikeBefore ws t' := by
  obtain ⟨hhid, hstim⟩ := h
  obtain ⟨-, w, hs⟩ := stepKeepsParametersAndTakesOneEvent s t hx
  have hs' : s'.stim = w :: (t.stim ++ ws) := by rw [hstim, hs, List.cons_append]
  obtain ⟨t', hx', ht⟩ := hhid.step hs hs' hx
  obtain ⟨-, w', hs''⟩ := stepKeepsParametersAndTakesOneEvent s' t' hx'
  exact ⟨t', hx', ht, (List.cons.inj (hs''.symm.trans hs')).2⟩

/-- A read of the bus in a cycle and the same read alone, from states alike but for what no event looks at, return the
same byte. -/
theorem memRead_of_busRead {a : BitVec 3} {wdata : Byte} {u u' v : State} (h : u.SameButHidden u')
    (hx : exec (selectBus u'.dlab false a wdata) u'.fetched = .next v) :
    ∃ r : State, memRead a.toNat 1 u = .next r ∧ v.rdata = r.rdata := by
  have hdlab : u'.dlab = u.dlab := by rw [h]; rfl
  have halike : u.clearOutputs.SameButHidden u'.fetched := by
    obtain ⟨_, _, _, rfl⟩ := h.exists_eq; rfl
  obtain ⟨r, hr⟩ := everyEventCompletes (selectBus u.dlab false a 0#8) u.clearOutputs
  obtain ⟨v', hv', hrv⟩ := halike.exec hr
  rw [selectBus_read_byte, hdlab, hv'] at hx
  cases hx
  refine ⟨r, ?_, by rw [hrv]⟩
  rw [memRead_byte a.isLt, BitVec.ofNat_toNat, BitVec.setWidth_eq, hr]

/-- R51: the read of a cycle returns the byte `MemRead` gives in the state the events before it left. -/
theorem Pins.read_of_clockCycle {p : Pins} {before later : List Source} {s t : State} {o : CycleOutputs}
    (hstim : s.stim = []) (hnodup : (before ++ Source.bus :: later).Nodup) (hrst : p.rst = false)
    (hsel : p.busSel = true) (hwe : p.busWe = false)
    (hcycle : clockCycle p (before ++ Source.bus :: later) s = .next (o, t)) :
    o.rdata.isSome = true ∧
    ∃ u r : State, core.run (p.events before).length (s.presentCycle p before) = .next u ∧
      memRead p.busAddr.toNat 1 u = .next r ∧ o.rdata = r.rdata := by
  obtain ⟨hlater, hbefore⟩ : Source.bus ∉ later ∧ Source.bus ∉ before := by
    obtain ⟨-, hcons, hdisj⟩ := List.nodup_append'.mp hnodup
    exact ⟨(List.nodup_cons.mp hcons).1, fun hb => hdisj hb List.mem_cons_self⟩
  obtain ⟨w, hbus⟩ : ∃ w, p.event .bus = some w := ⟨_, if_pos hsel⟩
  rw [clockCycle_of_nil p _ hstim, Pins.events_of_not_rst hrst, List.filterMap_append, List.filterMap_cons_some hbus,
    List.length_append] at hcycle
  rw [presentCycle_of_nil p before hstim, Pins.events_of_not_rst hrst]
  obtain ⟨u, hu, -⟩ := exists_run_of_eventWords (us := before.filterMap p.event) (vs := [])
    (s := { s with stim := before.filterMap p.event }) (List.append_nil _).symm (p.eventWord_of_mem before)
  obtain ⟨u', hu', halike, -⟩ := core_run_simulates (R := State.AlikeBefore (w :: later.filterMap p.event))
    State.AlikeBefore.step (s := { s with stim := before.filterMap p.event })
    (s' := { s with stim := before.filterMap p.event ++ w :: later.filterMap p.event })
    ⟨rfl, rfl⟩ hu
  obtain ⟨u'', hu'', hstim'⟩ := exists_run_of_eventWords (us := before.filterMap p.event)
    (s := { s with stim := before.filterMap p.event ++ w :: later.filterMap p.event }) rfl (p.eventWord_of_mem before)
  cases hu'.symm.trans hu''
  obtain ⟨o₁, ho₁⟩ := runCycle_of_core_run (CycleOutputs.idle s) hu'
  obtain ⟨v, hstep, hexec, hv⟩ := Pins.step_event hbus hstim'
  rw [runCycle_append _ ho₁, List.length_cons, runCycle_succ o₁ _ hstep] at hcycle
  have hread : (p.instr u'.dlab .bus).isRead = true := (p.instr_isRead _ _).mpr ⟨rfl, hwe⟩
  have hsome : v.rdata.isSome = true := (rdata_isSome_of_exec rfl hexec).trans hread
  have ho : o.rdata = v.rdata := by
    rw [Pins.rdata_of_runCycle (rest := []) (fun hb => absurd hb hlater) (by simpa using hv) hcycle,
      CycleOutputs.afterEvent_rdata, Option.or_of_isSome hsome]
  rw [Pins.instr, hwe] at hexec
  obtain ⟨r, hr, hvr⟩ := memRead_of_busRead halike hexec
  exact ⟨ho ▸ hsome, u, r, hu, hr, ho.trans hvr⟩

/-- R50: a cycle with `rst` shows no read result. -/
theorem Pins.rdata_of_rst {p : Pins} {order : List Source} {s t : State} {o : CycleOutputs} (hstim : s.stim = [])
    (hrst : p.rst = true) (hcycle : clockCycle p order s = .next (o, t)) : o.rdata = none ∧ o.tx = [] := by
  have hevents : p.events order = [encode .rst] := by simp [Pins.events, hrst]
  rw [clockCycle_of_nil p order hstim, hevents] at hcycle
  have hstep := step_of_decode (s := { s with stim := [encode .rst] }) rfl (decodeOfEncode s.dlab .rst rfl)
  rw [List.length_singleton, runCycle_succ _ 0 hstep] at hcycle
  cases hcycle
  exact ⟨rfl, rfl⟩

/-- Settles O60: the words of a cycle all spell events; the promotions in it, at most one of them outside loopback, are
what it sends; the read result is the bus event's, wherever it stands. -/
theorem clockCycleSendsAtMostOneByte : Obligations.ClockCycleSendsAtMostOneByte := by
  intro s p order hinv hstim hadm
  have hperm := orderAdmitted_perm hinv.1.eventOrder_legal hadm
  have hnodup := nodup_of_perm_all hperm
  have hwords : ∀ w ∈ p.events order, EventWord w := by
    cases hrst : p.rst
    · rw [Pins.events_of_not_rst hrst]; exact p.eventWord_of_mem order
    · simp only [Pins.events, hrst, if_true, List.forall_mem_singleton]; decide
  obtain ⟨t, hrun, ht⟩ := exists_run_of_eventWords (us := p.events order) (vs := [])
    (s := { s with stim := p.events order }) (List.append_nil _).symm hwords
  obtain ⟨o, ho⟩ := runCycle_of_core_run (CycleOutputs.idle s) hrun
  have hcycle : clockCycle p order s = .next (o, t) := (clockCycle_of_nil p order hstim).trans ho
  obtain ⟨l, htx, hsent⟩ := sent_of_runCycle ho
  rw [CycleOutputs.idle_tx, List.nil_append] at htx
  rw [← htx] at hsent
  have hlen : o.tx.length ≤ 1 := by
    cases hrst : p.rst
    · rw [Pins.events_of_not_rst hrst] at ho
      exact (Pins.tx_of_runCycle (s := { s with stim := order.filterMap p.event }) hnodup hinv rfl ho).2
    · simp [(Pins.rdata_of_rst hstim hrst hcycle).2]
  refine ⟨o, t, hcycle, ?_, ht, hsent, hlen, ?_, ?_, ?_, ?_⟩
  · rw [presentCycle_of_nil p order hstim]; exact hrun
  · rw [hsent]; simp [CycleOutputs.txValid]
  · have hlevels : (CycleOutputs.idle s).LevelsOf { s with stim := p.events order } := rfl
    exact levelsOf_of_runCycle hlevels ho
  · cases hrst : p.rst
    · by_cases hread : p.busSel = true ∧ p.busWe = false
      · obtain ⟨before, later, rfl⟩ := List.append_of_mem (bus_mem_of_perm_all hperm)
        simp [(Pins.read_of_clockCycle hstim hnodup hrst hread.1 hread.2 hcycle).1, hread]
      · rw [Pins.events_of_not_rst hrst] at ho
        have hno : p.busSel = false ∨ p.busWe = true := by
          simpa only [not_and_or, Bool.not_eq_true, Bool.not_eq_false] using hread
        have hnone : o.rdata = none := Pins.rdata_of_runCycle (rest := [])
          (s := { s with stim := order.filterMap p.event }) (fun _ => hno) (List.append_nil _).symm ho
        simp [hnone, hread]
    · simp [(Pins.rdata_of_rst hstim hrst hcycle).1]
  · rintro hrst hsel hwe before later rfl
    exact (Pins.read_of_clockCycle hstim hnodup hrst hsel hwe hcycle).2

end Sys2Proof.Machine
end
